-- ==== Sys2Proof/Word.lean ====
section
/-! DEFINITION. The word types of the core: the number format, the index and the widths an event word is made of. -/

namespace Sys2Proof

/-- R125: a value of the spec's `Num`, an IEEE 754 binary64 held as its 64 bits (R216 copies NaN payloads, so the bits
are what a register holds). The arithmetic is in `Machine/Numerics.lean`. -/
abbrev Num64 := BitVec 64

/-- R120: the spec's `idx`, an unsigned integer of `IDX_W = 32` bits. -/
abbrev Idx := BitVec 32

/-- R120: a MIDI data byte, `0 .. 127`: note number, controller number or velocity. -/
abbrev Data7 := BitVec 7

/-- One operand word as the command port carries it (log entry 3): a `Num` whole, an `idx`, an event word or a flag in
its low bits, the others not its own. -/
abbrev Slot := BitVec 64

end Sys2Proof
end

