-- ==== Sys2Proof/Config.lean ====
section
/-! DEFINITION. What an implementation fixes (R6) and the free values. Every row of R6's table that the spec marks OPEN
is an opaque constant here, so a theorem holds whatever its value is; the rows it marks DECIDED have their value. -/

namespace Sys2Proof

/-- R6, R216: `NCH`, the number of output channels. -/
inductive Channels where
  | mono
  | stereo
  deriving DecidableEq, Repr, Inhabited

/-- R6, R156: `OSC_SHAPE`. -/
inductive OscShape where
  | saw
  | sine
  deriving DecidableEq, Repr

/-- R126: the elementary functions of the configuration record `Numerics`. Of these five the spec assumes only that each
is a total function of its operand. The sixth, `floor`, is exact and is `Machine.floorNum`. -/
structure Numerics where
  sin : Num64 → Num64
  cos : Num64 → Num64
  exp : Num64 → Num64
  pow2 : Num64 → Num64
  pow10 : Num64 → Num64

/-- R6: the implementation parameters of the core. The datapath is written over this record, so that a test can give a
record of its own; the machine itself runs with `Config.params`. -/
structure Params where
  num : Numerics
  /-- `SmoothK(sr)`, OPEN (D5). -/
  smoothK : Num64 → Num64
  /-- `HEADROOM`, OPEN (D6). -/
  headroom : Num64
  /-- `NCH`, OPEN (D29). -/
  nch : Channels
  hasLfo : Bool
  hasEnv : Bool
  hasFilter : Bool
  shape : OscShape

/-- R301: the `PowerOn` record, OPEN (D20). -/
structure PowerOn where
  oscFreq : Num64
  lfoRate : Num64
  lfoDepth : Num64
  cutoff : Num64
  resonance : Num64
  attack : Num64
  decay : Num64
  sustain : Num64
  release : Num64
  envEnabled : Bool
  bypass : Bool
  deriving DecidableEq, Repr

/-- The arithmetic operation that delivers a NaN: what the bits R125 leaves open may depend on, beside the operands. -/
inductive FpOp where
  | add
  | sub
  | mul
  | div
  deriving DecidableEq, Repr

/-! ### Free values -/

/-- R126: `sin`, a total function and nothing more. -/
opaque Config.sin : Num64 → Num64
/-- R126: `cos`. -/
opaque Config.cos : Num64 → Num64
/-- R126: `exp`. -/
opaque Config.exp : Num64 → Num64
/-- R126: `2^x`. -/
opaque Config.pow2 : Num64 → Num64
/-- R126: `10^x`. -/
opaque Config.pow10 : Num64 → Num64
/-- The numbers above 0 and at most 1, counted upwards from the smallest. The bits of a positive number rise with it, and
`0x3FF0000000000000` is 1, so every such number is one of these and no other is (`Machine.unitNum_bounds`,
`Machine.exists_unitNum`). -/
def Config.unitNum (step : Fin 0x3FF0000000000000) : Num64 := BitVec.ofNat 64 (step.val + 1)
/-- R6, R172: which of the numbers above 0 and at most 1 `SmoothK` gives for a sample rate. -/
opaque Config.smoothKStep : Num64 → Fin 0x3FF0000000000000
/-- R6, R172: `SmoothK`, `0 < SmoothK(sr) <= 1`; the default the spec's vectors use is `Machine.smoothKDefault`. -/
def Config.smoothK (sr : Num64) : Num64 := Config.unitNum (Config.smoothKStep sr)
/-- R6, R195: which of the numbers above 0 and at most 1 `HEADROOM` is. -/
opaque Config.headroomStep : Fin 0x3FF0000000000000
/-- R6, R195: `HEADROOM`, `0 < HEADROOM <= 1`. -/
def Config.headroom : Num64 := Config.unitNum Config.headroomStep
/-- R6, R216: `NCH`, 1 or 2. -/
opaque Config.nch : Channels
/-- R125: the sign and the 51 payload bits of a NaN that an operation delivers from given operands: the standard fixes
only that it is a quiet NaN (log entry 6). -/
opaque Config.freeNaN : FpOp → Num64 → Num64 → BitVec 52
/-- R121: the frame index at which `VOICE.Process` writes where `base + i` is no 32-bit index, from `base` and `i`; the
spec gives no result there (log entry 25). -/
opaque Config.freeFrame : Nat → Nat → Idx
/-- R72, R228: where a concurrent write lands whose place is beyond `frameCount`, from `frameCount` and the place given
(log entry 12). -/
opaque Config.freePlace : Idx → Idx → Idx
/-- R96: what an operand reads as that was not presented with its word, by its position (log entry 3). -/
opaque Config.freeOperand : Nat → Slot

/-- R6, R126: the machine's numerics. -/
def Config.numerics : Numerics where
  sin := Config.sin
  cos := Config.cos
  exp := Config.exp
  pow2 := Config.pow2
  pow10 := Config.pow10

/-- R6: this hardware is the full variant (D27); what is OPEN stays free. -/
def Config.params : Params where
  num := Config.numerics
  smoothK := Config.smoothK
  headroom := Config.headroom
  nch := Config.nch
  hasLfo := true
  hasEnv := true
  hasFilter := true
  shape := .saw

/-- R301: the column "Test default" (frequencies 440 and 0 Hz, depth 0, cutoff 5000 Hz, resonance 1, times 0.01, 0.02 and
0.03 s, sustain 0.5, envelope enabled, no bypass). DESIGN CHOICE, unsafe: the source gives no value (log entry 1). -/
def Config.powerOn : PowerOn where
  oscFreq := 0x407B800000000000
  lfoRate := 0
  lfoDepth := 0
  cutoff := 0x40B3880000000000
  resonance := 0x3FF0000000000000
  attack := 0x3F847AE147AE147B
  decay := 0x3F947AE147AE147B
  sustain := 0x3FE0000000000000
  release := 0x3F9EB851EB851EB8
  envEnabled := true
  bypass := false

end Sys2Proof
end

