-- ==== Sys2Proof/Syntax.lean ====
section
/-! DEFINITION. The three formats of R90 as the command port carries them, and the instructions: one constructor per row
of spec/opcode_table.json, with the operands its rule gives it. -/

namespace Sys2Proof

/-- R90: a word of one of the three formats. The format is part of how a word is presented; nothing in a word selects
it. -/
inductive CmdWord where
  /-- Format EV (R91): a MIDI event word. -/
  | ev (w : BitVec 24)
  /-- Format HC (R96): a host command word, `cmd` in the high byte and `sub` in the low. -/
  | hc (w : BitVec 16)
  /-- Format UOP (R103): a unit-operation selector. -/
  | uop (w : BitVec 8)
  deriving DecidableEq, Repr

/-- One input presented to the core: a word, the operands that follow it (R90, R96, R103), one slot each (log entry 3),
and whether it is issued while a `RENDER` is in progress (R225 to R230: "a test on how the command was presented"). -/
structure PortItem where
  word : CmdWord
  operands : List Slot
  during : Bool
  deriving DecidableEq, Repr

/-- R72: the two parameters whose target the control agent may write while a `RENDER` runs: ids 0 and 1. -/
inductive Smoothed where
  | cutoff
  | resonance
  deriving DecidableEq, Repr

/-- R228: one concurrent target write `(n_j, id_j, value_j)` of a `RENDER`. -/
structure TargetWrite where
  frame : Idx
  target : Smoothed
  value : Num64
  deriving DecidableEq, Repr

/-- R242: the host commands, as a fault records them (R262, the column "Records"). -/
inductive Command where
  | setsr
  | setbs
  | enq
  | setp (id : BitVec 8)
  | render
  | reset
  deriving DecidableEq, Repr

/-- The operations of the three levels (R7). Of an event, `ch` is the channel nibble, which R91 drops at `ENQ`, and `off`
the side-band `sampleOffset`, which R207 does not read again: the event takes effect where it is applied. -/
inductive Instr where
  -- level E, the MIDI events (R93)
  /-- R208; `vel` is in `1 .. 127`. -/
  | noteOn (ch : BitVec 4) (note vel : Data7) (off : Idx)
  /-- R209. -/
  | noteOnV0 (ch : BitVec 4) (note : Data7) (off : Idx)
  /-- R210. -/
  | noteOff (ch : BitVec 4) (note vel : Data7) (off : Idx)
  /-- R211: controller 123. -/
  | ccAllNotesOff (ch : BitVec 4) (value : Data7) (off : Idx)
  /-- R213: any controller but 123. -/
  | ccOther (ch : BitVec 4) (controller value : Data7) (off : Idx)
  /-- R214, status `0xA`. -/
  | polyPressure (ch : BitVec 4) (d1 d2 : Data7) (off : Idx)
  /-- R214, status `0xC`. -/
  | programChange (ch : BitVec 4) (d1 d2 : Data7) (off : Idx)
  /-- R214, status `0xD`. -/
  | channelPressure (ch : BitVec 4) (d1 d2 : Data7) (off : Idx)
  /-- R214, status `0xE`. -/
  | pitchBend (ch : BitVec 4) (d1 d2 : Data7) (off : Idx)
  /-- R214, status `0xF`. -/
  | system (ch : BitVec 4) (d1 d2 : Data7) (off : Idx)
  /-- R214, status `0x0 .. 0x7`; `st` is its low three bits. -/
  | notAStatus (st : BitVec 3) (ch : BitVec 4) (d1 d2 : Data7) (off : Idx)
  -- level H, the host commands (R97, R98)
  /-- R225. -/
  | setsr (sr : Num64)
  /-- R226. -/
  | setbs (frames : Idx)
  /-- R227; `ev` is the event word of R91, reserved bits and all. -/
  | enq (ev : BitVec 24) (off : Idx)
  /-- R231, id 0. -/
  | setpCutoff (value : Num64)
  /-- R232, id 1. -/
  | setpResonance (value : Num64)
  /-- R233, id 2. -/
  | setpAttack (value : Num64)
  /-- R234, id 3. -/
  | setpDecay (value : Num64)
  /-- R235, id 4. -/
  | setpSustain (value : Num64)
  /-- R236, id 5. -/
  | setpRelease (value : Num64)
  /-- R237, id 6. -/
  | setpLfoRate (value : Num64)
  /-- R238, id 7. -/
  | setpLfoDepth (value : Num64)
  /-- R239, id 8. -/
  | setpEnvEnable (value : Num64)
  /-- R240, id 9. -/
  | setpBypass (value : Num64)
  /-- R228: `RENDER frameCount WITH writes`. The `NCH` buffers it is given are `OUT` (R61). -/
  | render (frameCount : Idx) (writes : List TargetWrite)
  /-- R229. -/
  | reset
  -- level U, the unit operations (R103)
  /-- R150. -/
  | oscSetFrequency (f : Num64)
  /-- R151. -/
  | oscSetSampleRate (sr : Num64)
  /-- R152. -/
  | oscReset
  /-- R153. -/
  | oscNextSample
  /-- R160. -/
  | lfoSetFrequency (f : Num64)
  /-- R161. -/
  | lfoSetAmplitude (a : Num64)
  /-- R162. -/
  | lfoSetSampleRate (sr : Num64)
  /-- R163. -/
  | lfoReset
  /-- R164. -/
  | lfoNextSample
  /-- R170. -/
  | fltSetCutoffFrequency (f : Num64)
  /-- R171. -/
  | fltSetResonance (q : Num64)
  /-- R172. -/
  | fltSetSampleRate (sr : Num64)
  /-- R173. -/
  | fltReset
  /-- R174. -/
  | fltUpdateCoefficients
  /-- R176. -/
  | fltProcess (x : Num64)
  /-- R185. -/
  | envValue (dt : Num64)
  /-- R186. -/
  | envAttack
  /-- R187. -/
  | envSetAttackTime (t : Num64)
  /-- R188. -/
  | envSetDecayTime (t : Num64)
  /-- R189. -/
  | envSetSustainLevel (level : Num64)
  /-- R190. -/
  | envSetReleaseTime (t : Num64)
  /-- R195. -/
  | voiceProcess (base n : Idx) (gate : Bool)
  /-- R196. -/
  | voiceReset
  /-- R197. -/
  | voiceSetEnvelopeEnabled (b : Bool)
  /-- R198. -/
  | voiceSetGlobalBypass (b : Bool)
  /-- R199. -/
  | voiceSetCutoff (f : Num64)
  /-- R200. -/
  | voiceSetSampleRate (sr : Num64)
  /-- R206. -/
  | schDrain
  /-- R212. -/
  | schGate
  /-- R216. -/
  | schCopyChannels (frameCount : Idx)
  deriving DecidableEq, Repr

end Sys2Proof
end

