-- ==== Sys2Proof/Machine/State.lean ====
section
/-! DEFINITION. The state of the core (10_state.md, 20_memory.md), its power-on value (R302), the faults (R262) and the
refusals. -/

namespace Sys2Proof.Machine

/-! ### Faults and refusals -/

/-- R262: the eleven fault codes, each with what it records. Every one marks a broken contract of the host (R261). All
are safe: the core of the source goes on, in a way it does not describe, and the model stops. -/
inductive Fault where
  /-- Code 1, raised by the port decoder: no command has this word. Safe. -/
  | badCommand (hc : BitVec 16)
  /-- Code 2, raised by the port decoder for a `SETP`: `id >= 10`. Safe. -/
  | badParameterId (id : BitVec 8)
  /-- Code 3, raised by `SETP`, also by one that lands inside a `RENDER`: a NaN or an infinity. Safe. -/
  | badOperand (id : BitVec 8) (value : Num64)
  /-- Code 4, raised by `SETSR`: not finite or not above 0. Safe. -/
  | badSampleRate (sr : Num64)
  /-- Code 5, raised by `RENDER` and `ENQ`: before the `SETSR` or `SETBS` it needs. Safe. -/
  | notConfigured (c : Command)
  /-- Code 6, raised by every command but the two smoothed `SETP`: issued while a `RENDER` is in progress. Safe. -/
  | concurrentWrite (c : Command)
  /-- Code 7, raised by `ENQ`: `sampleOffset >= sch.blockSize`. Safe. -/
  | eventOffsetOutOfRange (off : Idx)
  /-- Code 8, raised by `ENQ`: an offset below that of the record queued before it. Safe. -/
  | eventOrderViolation (off : Idx)
  /-- Code 9, raised by `ENQ`: the queue holds `q.cap` records or more. Safe. -/
  | queueOverflow (len : Nat)
  /-- Code 10, raised by `RENDER`: `frameCount > sch.blockSize`. Safe. -/
  | frameCountExceedsBlockSize (frameCount : Idx)
  /-- Code 11, raised by `RENDER`: a queued record at or beyond `frameCount`; the fields are the first such record's.
  Safe. -/
  | eventBeyondFrameCount (status : BitVec 4) (data1 data2 : Data7) (off : Idx)
  deriving DecidableEq, Repr

/-- Inputs that are no thing the interface can carry. All are safe: the model stops. -/
inductive Refusal where
  /-- An arm of `exec` without a meaning; raised by no meaning. Safe. -/
  | notModelled (mnemonic : String)
  /-- R95, R262: an event word with a reserved bit set, at `ENQ` or presented as an event. Safe. -/
  | malformedEvent (ev : BitVec 24)
  /-- R104: a unit-operation selector that does not exist, raised by the port decoder. Safe. -/
  | noSuchOperation (uop : BitVec 8)
  deriving DecidableEq, Repr

/-- What a step answers. -/
abbrev Answer (σ : Type) := Host.Outcome σ Fault Refusal

/-! ### Registers, unit by unit -/

/-- R21: the oscillator. -/
structure Osc where
  freq : Num64
  sr : Num64
  inc : Num64
  phase : Num64
  deriving DecidableEq, Repr

/-- R22: the modulator. `srSet` is whether `sr` has been written: R22 and R160 say "unset" of it. -/
structure Lfo where
  freq : Num64
  amp : Num64
  sr : Num64
  srSet : Bool
  inc : Num64
  phase : Num64
  deriving DecidableEq, Repr

/-- R24: the coefficient bank, already divided by the leading feedback term. -/
structure Coefs where
  b0 : Num64
  b1 : Num64
  b2 : Num64
  a1 : Num64
  a2 : Num64
  deriving DecidableEq, Repr

/-- R23, R24, R25: the filter: smoothed parameters, coefficient bank, history. -/
structure Flt where
  cutTgt : Num64
  cutCur : Num64
  resTgt : Num64
  resCur : Num64
  k : Num64
  sr : Num64
  bank : Coefs
  x1 : Num64
  x2 : Num64
  y1 : Num64
  y2 : Num64
  deriving DecidableEq, Repr

/-- R26: the envelope parameters `env.A`, `env.D`, `env.S`, `env.R`. -/
structure Env where
  attack : Num64
  decay : Num64
  sustain : Num64
  release : Num64
  deriving DecidableEq, Repr

/-- R27: the voice. `heldNote = none` is the spec's `-1`. -/
structure Voice where
  noteOnTime : Num64
  heldNote : Option Data7
  envEnabled : Bool
  bypass : Bool
  baseCut : Num64
  sr : Num64
  deriving DecidableEq, Repr

/-- R28, R32: the scheduler: the block size and the two position registers `sch.offset` and `i`. -/
structure Sch where
  blockSize : Idx
  offset : Idx
  i : Idx
  deriving DecidableEq, Repr

/-- R92: a queued event record. -/
structure EventRec where
  status : BitVec 4
  data1 : Data7
  data2 : Data7
  off : Idx
  deriving DecidableEq, Repr

/-- R64: the event queue, oldest record first, with its capacity in events. -/
structure Queue where
  cap : Idx
  recs : List EventRec
  deriving DecidableEq, Repr

/-- R32: what the host has supplied. -/
structure Cfg where
  srSet : Bool
  bsSet : Bool
  deriving DecidableEq, Repr

/-- R61, R63: one channel buffer: the words that hold a value, by frame index, indexes strictly rising. An index that is
not listed is a poisoned word. -/
abbrev Buffer := List (Nat × Num64)

/-- R61: `OUT`; `ch0` is the source's channel 1 (90_conflicts.md C13). -/
structure Memory where
  ch0 : Buffer
  ch1 : Buffer
  deriving DecidableEq, Repr

/-- The model's own (log entry 4): the value the unit operation run last returned to the datapath, a `Num` or a
`bool`. -/
structure Result where
  num : Num64
  flag : Bool
  deriving DecidableEq, Repr

/-- The model's own (log entry 2): the inputs still to be presented, first one first, and whether the input being
executed was issued while a `RENDER` is in progress. -/
structure Port where
  pending : List PortItem
  during : Bool
  deriving DecidableEq, Repr

/-! ### The whole state -/

/-- R20: the registers, the event queue, the output memory, the fault record; and the model's own `res` and `port`. -/
structure State where
  osc : Osc
  lfo : Lfo
  flt : Flt
  env : Env
  v : Voice
  sch : Sch
  q : Queue
  cfg : Cfg
  out : Memory
  /-- R37: the recorded faults. -/
  faults : List Fault
  res : Result
  port : Port
  deriving DecidableEq, Repr

/-! ### Power-on -/

/-- R302: the power-on state for a `PowerOn` record. The registers that R302 calls unset hold 0 (log entry 5), and so do
the two position registers, which have no value outside a `RENDER`. -/
def State.powerOn (p : PowerOn) : State where
  osc := { freq := p.oscFreq, sr := 0, inc := 0, phase := 0 }
  lfo := { freq := p.lfoRate, amp := p.lfoDepth, sr := 0, srSet := false, inc := 0, phase := 0 }
  flt := {
    cutTgt := p.cutoff, cutCur := p.cutoff, resTgt := p.resonance, resCur := p.resonance, k := 0, sr := 0,
    bank := { b0 := 0, b1 := 0, b2 := 0, a1 := 0, a2 := 0 }, x1 := 0, x2 := 0, y1 := 0, y2 := 0 }
  env := { attack := p.attack, decay := p.decay, sustain := p.sustain, release := p.release }
  v := {
    noteOnTime := 0, heldNote := none, envEnabled := p.envEnabled, bypass := p.bypass, baseCut := p.cutoff,
    sr := 0 }
  sch := { blockSize := 0, offset := 0, i := 0 }
  q := { cap := 0, recs := [] }
  cfg := { srSet := false, bsSet := false }
  out := { ch0 := [], ch1 := [] }
  faults := []
  res := { num := 0, flag := false }
  port := { pending := [], during := false }

/-- R300, R302: the machine right after power-on, with the record of log entry 1. -/
def State.reset : State := State.powerOn Config.powerOn

end Sys2Proof.Machine
end

