-- ==== Sys2Proof/Machine/Flags.lean ====
section
/-! DEFINITION. The flags (R30): the derived ones are computed here. There are no arithmetic condition codes. -/

namespace Sys2Proof.Machine

/-- R30: `v.heldNote != -1`. -/
def noteHeld (v : Voice) : Bool := v.heldNote.isSome

/-- R12, R193: the envelope enable flag as the rules read it; the constant false in a configuration without an
envelope. -/
def envelopeOn (P : Params) (v : Voice) : Bool := P.hasEnv && v.envEnabled

/-- R212: `SCH.Gate`. -/
def gateOf (P : Params) (v : Voice) : Bool := !v.bypass && (noteHeld v || envelopeOn P v)

end Sys2Proof.Machine
end

