-- ==== Sys2Proof/Machine/Numerics.lean ====
section
/-! DEFINITION. The arithmetic of 40_numerics.md: binary64, round to nearest, ties to even, subnormals kept, no traps
(R125). Each operation computes its result exactly on integers and rounds once. -/

namespace Sys2Proof.Machine

/-! ### The format -/

/-- The weight of the last place of a subnormal number is `2^-1074`; below, a unit is that weight. -/
def unitExp : Nat := 1074

/-- The bits of an infinity without its sign. -/
def infMag : Nat := 2047 * 2 ^ 52

def signOf (x : Num64) : Bool := x.getLsbD 63
def expField (x : Num64) : Nat := (x.extractLsb' 52 11).toNat
def fracField (x : Num64) : Nat := (x.extractLsb' 0 52).toNat
/-- The bits without the sign, as a number: it rises with the absolute value. -/
def magOf (x : Num64) : Nat := (x.extractLsb' 0 63).toNat

def isNaN (x : Num64) : Bool := expField x == 2047 && fracField x != 0
def isInf (x : Num64) : Bool := expField x == 2047 && fracField x == 0
def isFinite (x : Num64) : Bool := expField x != 2047
def isZero (x : Num64) : Bool := magOf x == 0

/-- The absolute value of a finite number, in units. -/
def unitsOf (x : Num64) : Nat :=
  if expField x = 0 then fracField x else (2 ^ 52 + fracField x) * 2 ^ (expField x - 1)

/-- The value of a finite number, in units. -/
def valueOf (x : Num64) : Int := if signOf x then -(unitsOf x : Int) else unitsOf x

/-- A number of a sign and the other 63 bits. -/
def ofMag (neg : Bool) (mag : Nat) : Num64 := BitVec.ofNat 64 (mag + if neg then 2 ^ 63 else 0)

/-! ### Rounding -/

/-- The integer nearest to `a / b`, the even one of two. -/
def divNearest (a b : Nat) : Nat :=
  let q := a / b
  let r := a % b
  if 2 * r < b then q else if b < 2 * r then q + 1 else q + q % 2

/-- How many low places of an integer of units a 53-bit significand does not hold. -/
def placesDropped (n : Nat) : Nat := Nat.log2 n - 52

/-- R125: the bits of `a / b` units, rounded to nearest, ties to even; an infinity beyond the format. The sum works for
subnormal and normal results and for a carry out of the significand, since one more in the exponent field is `2^52` more
in the bits. -/
def roundMag (a b : Nat) : Nat :=
  let s := placesDropped (a / b)
  min (s * 2 ^ 52 + divNearest a (b * 2 ^ s)) infMag

/-- R125: a quiet NaN; the standard leaves its sign and payload open (log entry 6). -/
def quietNaN (free : BitVec 52) : Num64 := free.extractLsb' 51 1 ++ (0xFFF : BitVec 12) ++ free.extractLsb' 0 51

def nanOf (op : FpOp) (x y : Num64) : Num64 := quietNaN (Config.freeNaN op x y)

/-! ### The operations of R10 -/

/-- The sign of the operand reversed (the unary minus of R174 and R185). -/
def fneg (x : Num64) : Num64 := x ^^^ 0x8000000000000000

/-- The rounded sum of two finite numbers; an exact zero is `+0` unless both are `-0`. -/
def sumFinite (x y : Num64) : Num64 :=
  let z := valueOf x + valueOf y
  ofMag (if z = 0 then signOf x && signOf y else decide (z < 0)) (roundMag z.natAbs 1)

/-- The sum, with the NaN it delivers where it delivers one. -/
def sumWith (nan x y : Num64) : Num64 :=
  if isNaN x || isNaN y then nan
  else if isInf x then (if isInf y && (signOf x != signOf y) then nan else x)
  else if isInf y then y
  else sumFinite x y

/-- R10, R125: `x + y`. -/
def fadd (x y : Num64) : Num64 := sumWith (nanOf .add x y) x y

/-- R10, R125: `x - y`. -/
def fsub (x y : Num64) : Num64 := sumWith (nanOf .sub x y) x (fneg y)

/-- R10, R125: `x * y`. -/
def fmul (x y : Num64) : Num64 :=
  let neg := signOf x != signOf y
  if isNaN x || isNaN y then nanOf .mul x y
  else if isInf x || isInf y then (if isZero x || isZero y then nanOf .mul x y else ofMag neg infMag)
  else ofMag neg (roundMag (unitsOf x * unitsOf y) (2 ^ unitExp))

/-- R10, R125: `x / y`; `0/0` and `inf/inf` are NaN, `x/0` an infinity. -/
def fdiv (x y : Num64) : Num64 :=
  let neg := signOf x != signOf y
  if isNaN x || isNaN y then nanOf .div x y
  else if isInf x then (if isInf y then nanOf .div x y else ofMag neg infMag)
  else if isInf y then ofMag neg 0
  else if isZero y then (if isZero x then nanOf .div x y else ofMag neg infMag)
  else ofMag neg (roundMag (unitsOf x * 2 ^ unitExp) (unitsOf y))

/-! ### Comparison (R10, R127) -/

/-- An integer that orders the numbers other than NaN; both zeros are 0. -/
def orderKey (x : Num64) : Int := if signOf x then -(magOf x : Int) else magOf x

/-- R127: `x < y`; false with a NaN. -/
def numLt (x y : Num64) : Bool := !isNaN x && !isNaN y && decide (orderKey x < orderKey y)
/-- R127: `x <= y`. -/
def numLe (x y : Num64) : Bool := !isNaN x && !isNaN y && decide (orderKey x ≤ orderKey y)
/-- R127: `x == y`; the two zeros are equal. -/
def numEq (x y : Num64) : Bool := !isNaN x && !isNaN y && decide (orderKey x = orderKey y)
/-- R127: `x != y`; true with a NaN. -/
def numNe (x y : Num64) : Bool := !numEq x y

/-! ### Functions of 40_numerics.md -/

/-- R126: the largest integer not above the operand; an infinity or NaN is itself. A zero keeps its sign (log entry
7). -/
def floorNum (x : Num64) : Num64 :=
  if !isFinite x then x
  else
    let one := 2 ^ unitExp
    let whole := if signOf x then (unitsOf x + (one - 1)) / one else unitsOf x / one
    ofMag (signOf x) (roundMag (whole * one) 1)

/-- R128: `wrap(t) = t - floor(t)`. -/
def wrapNum (t : Num64) : Num64 := fsub t (floorNum t)

/-- R129: `clamp(x, lo, hi)`; a NaN passes unchanged. -/
def clampNum (x lo hi : Num64) : Num64 := if numLt x lo then lo else if numLt hi x then hi else x

/-- R123: `ToNum(n)`, exact for every integer below `2^53` in absolute value. -/
def toNum (n : Int) : Num64 := ofMag (decide (n < 0)) (roundMag (n.natAbs * 2 ^ unitExp) 1)

/-! ### Constants (R130) -/

def zeroNum : Num64 := 0x0000000000000000
def halfNum : Num64 := 0x3FE0000000000000
def oneNum : Num64 := 0x3FF0000000000000
def twoNum : Num64 := 0x4000000000000000
def minusTwoNum : Num64 := 0xC000000000000000
def twelveNum : Num64 := 0x4028000000000000
def twentyNum : Num64 := 0x4034000000000000
def thousandNum : Num64 := 0x408F400000000000
/-- `A4_HZ` of R6. -/
def a4Hz : Num64 := 0x407B800000000000
/-- `A4_NOTE` of R6. -/
def a4Note : Int := 69
def piNum : Num64 := 0x400921FB54442D18
def twoPiNum : Num64 := 0x401921FB54442D18
/-- `W_MAX = 0.98 * PI`. -/
def wMaxNum : Num64 := 0x4008A14D57B373DF
/-- `SMOOTH_TIME` of R6, 0.1 s. -/
def smoothTime : Num64 := 0x3FB999999999999A

end Sys2Proof.Machine
end

