-- ==== Sys2Proof/Machine/Ops.lean ====
section
/-! DEFINITION. The named operations over the output memory, the event queue and the model's own registers, and the one
way a rule raises a fault. -/

namespace Sys2Proof.Machine

/-! ### One channel buffer -/

/-- The word at a frame index; `none` is a poisoned word (R63). -/
def bufRead (b : Buffer) (n : Nat) : Option Num64 :=
  match b with
  | [] => none
  | (k, w) :: rest => if n = k then some w else bufRead rest n

/-- R68: one word written; the others keep their value. -/
def bufWrite (b : Buffer) (n : Nat) (v : Num64) : Buffer :=
  match b with
  | [] => [(n, v)]
  | (k, w) :: rest =>
    if n < k then (n, v) :: (k, w) :: rest
    else if n = k then (n, v) :: rest
    else (k, w) :: bufWrite rest n v

/-- The canonical form: frame indexes strictly rising. Nothing listed is poisoned, so no entry equals what an unlisted
index reads as. -/
abbrev bufWf (b : Buffer) : Prop := b.Pairwise fun x y => x.1 < y.1

/-- R216: the words of `src` at indexes below `count`, and those of `dst` from there on. A poisoned source word makes
the destination word poisoned. -/
def bufCopy (count : Nat) (src dst : Buffer) : Buffer :=
  src.filter (fun c => decide (c.1 < count)) ++ dst.filter (fun c => decide (count ≤ c.1))

/-! ### The output memory (R61) -/

/-- A channel of `OUT`, as an address names it. -/
inductive ChannelId where
  | first
  | second
  deriving DecidableEq, Repr

/-- R10, R63: `MemRead((c, n), 1)`. -/
def memRead (m : Memory) (c : ChannelId) (n : Nat) : Option Num64 :=
  match c with
  | .first => bufRead m.ch0 n
  | .second => bufRead m.ch1 n

/-- R10, R68: `MemWrite((c, n), 1, v)`. -/
def memWrite (m : Memory) (c : ChannelId) (n : Nat) (v : Num64) : Memory :=
  match c with
  | .first => { m with ch0 := bufWrite m.ch0 n v }
  | .second => { m with ch1 := bufWrite m.ch1 n v }

/-- R63: the buffers as a `RENDER` finds them: what the host left there is no value the model knows. -/
def Memory.poisoned : Memory := { ch0 := [], ch1 := [] }

/-- Both buffers are in canonical form. -/
abbrev Memory.wf (m : Memory) : Prop := bufWf m.ch0 ∧ bufWf m.ch1

/-! ### The event queue (R64) -/

/-- `QPush(e)`, after its check. -/
def queuePush (q : Queue) (e : EventRec) : Queue := { q with recs := q.recs ++ [e] }

/-- R227: the offset of `QTail()`, the record pushed last. -/
def queueTailOff (q : Queue) : Option Idx := q.recs.getLast?.map EventRec.off

/-- R226: the capacity never shrinks. -/
def queueResize (q : Queue) (frames : Idx) : Queue :=
  if q.cap.toNat < frames.toNat then { q with cap := frames } else q

/-- The queue as a run without faults has it: offsets in non-decreasing order (R227), no more records than the
capacity (R64). -/
abbrev Queue.wf (q : Queue) : Prop :=
  q.recs.Pairwise (fun a b => a.off.toNat ≤ b.off.toNat) ∧ q.recs.length ≤ q.cap.toNat

/-! ### The model's own registers -/

/-- The `Num` a unit operation returns to the datapath. -/
def setNumResult (x : Num64) (s : State) : State := { s with res := { s.res with num := x } }

/-- The `bool` a unit operation returns to the datapath. -/
def setFlagResult (b : Bool) (s : State) : State := { s with res := { s.res with flag := b } }

/-! ### Faults (R37, R261)

The hardware raises no exception (R260): there is no entry, no handler and no return to model. A rule that says
`raise F(info)` has no next state; the fault set of the trace is `recordFault`'s. -/

/-- R37: `raise F(info)`: the step has no next state. -/
def raise (f : Fault) : Answer State := .fault f

/-- R37: the state a trace ends in when a step raises `f`: the fault is added to the set, nothing else changes. -/
def recordFault (f : Fault) (s : State) : State :=
  if f ∈ s.faults then s else { s with faults := s.faults ++ [f] }

/-- R225 to R229: the first line of every command but `SETP`: issued while a `RENDER` is in progress, it faults. -/
def betweenRenders (c : Command) (s : State) (answer : Answer State) : Answer State :=
  if s.port.during then raise (.concurrentWrite c) else answer

end Sys2Proof.Machine
end

