-- ==== Sys2Proof/Machine/Envelope.lean ====
section
/-! DEFINITION. The envelope generator (44_envelope.md). Its stage is a function of the clock; nothing stores it. -/

namespace Sys2Proof.Machine

/-! ### The unit -/

/-- R185: `ENV.Value(dt)`, with the enable flag as `on`. -/
def envGain (P : Params) (on : Bool) (e : Env) (dt : Num64) : Num64 :=
  if !on then oneNum
  else if numLt dt e.attack then fdiv dt e.attack
  else if numLt dt (fadd e.attack e.decay) then
    fsub oneNum (fdiv (fmul (fsub oneNum e.sustain) (fsub dt e.attack)) e.decay)
  else fmul e.sustain (P.num.exp (fdiv (fneg (fsub (fsub dt e.attack) e.decay)) e.release))

/-- R186: `ENV.Attack()`. -/
def envAttack (v : Voice) : Voice := { v with noteOnTime := zeroNum }

/-- R187. -/
def envSetAttackTime (t : Num64) (e : Env) : Env := { e with attack := t }
/-- R188. -/
def envSetDecayTime (t : Num64) (e : Env) : Env := { e with decay := t }
/-- R189: not clamped. -/
def envSetSustainLevel (level : Num64) (e : Env) : Env := { e with sustain := level }
/-- R190. -/
def envSetReleaseTime (t : Num64) (e : Env) : Env := { e with release := t }

/-! ### The operations -/

/-- R185, `ENV.Value(dt) -> g`. -/
def execEnvValue (dt : Num64) (s : State) : Answer State :=
  .next (setNumResult (envGain Config.params (envelopeOn Config.params s.v) s.env dt) s)

/-- R186, `ENV.Attack()`. -/
def execEnvAttack (s : State) : Answer State := .next { s with v := envAttack s.v }

/-- R187, `ENV.SetAttackTime(t)`. -/
def execEnvSetAttackTime (t : Num64) (s : State) : Answer State := .next { s with env := envSetAttackTime t s.env }

/-- R188, `ENV.SetDecayTime(t)`. -/
def execEnvSetDecayTime (t : Num64) (s : State) : Answer State := .next { s with env := envSetDecayTime t s.env }

/-- R189, `ENV.SetSustainLevel(s)`. -/
def execEnvSetSustainLevel (level : Num64) (s : State) : Answer State :=
  .next { s with env := envSetSustainLevel level s.env }

/-- R190, `ENV.SetReleaseTime(t)`. -/
def execEnvSetReleaseTime (t : Num64) (s : State) : Answer State := .next { s with env := envSetReleaseTime t s.env }

end Sys2Proof.Machine
end

