-- ==== Sys2Proof/Machine/Filter.lean ====
section
/-! DEFINITION. The resonant filter with smoothed coefficient updates (43_filter.md). -/

namespace Sys2Proof.Machine

/-! ### The unit -/

/-- R170: only the target is written. -/
def fltSetCutoff (f : Num64) (t : Flt) : Flt := { t with cutTgt := f }

/-- R171: only the target is written. -/
def fltSetResonance (q : Num64) (t : Flt) : Flt := { t with resTgt := q }

/-- R174: the cutoff angular frequency, clamped to `[0, W_MAX]`. -/
def cutoffAngle (cut sr : Num64) : Num64 := clampNum (fdiv (fmul twoPiNum cut) sr) zeroNum wMaxNum

/-- R174: `Coef(w, Q)`, in the order of arithmetic the rule fixes. -/
def coefsOf (P : Params) (w q : Num64) : Coefs :=
  let cs := P.num.cos w
  let sn := P.num.sin w
  let alpha := fdiv sn (fmul twoNum q)
  let a0 := fadd oneNum alpha
  let b0 := fdiv (fmul (fsub oneNum cs) halfNum) a0
  { b0 := b0, b1 := fdiv (fsub oneNum cs) a0, b2 := b0, a1 := fdiv (fmul minusTwoNum cs) a0,
    a2 := fdiv (fsub oneNum alpha) a0 }

/-- R174: `FLT.UpdateCoefficients`. -/
def fltUpdate (P : Params) (t : Flt) : Flt := { t with bank := coefsOf P (cutoffAngle t.cutCur t.sr) t.resCur }

/-- R172. -/
def fltSetSampleRate (P : Params) (sr : Num64) (t : Flt) : Flt := fltUpdate P { t with sr := sr, k := P.smoothK sr }

/-- R172: the default of `SmoothK`, which the spec's test vectors use; the machine does not rest on it. -/
def smoothKDefault (num : Numerics) (sr : Num64) : Num64 :=
  fsub oneNum (num.exp (fdiv (fneg oneNum) (fmul smoothTime sr)))

/-- R173: the four history samples, and nothing else. -/
def fltReset (t : Flt) : Flt := { t with x1 := zeroNum, x2 := zeroNum, y1 := zeroNum, y2 := zeroNum }

/-- R175: one step of exponential approach. -/
def approach (cur tgt k : Num64) : Num64 := fadd cur (fmul (fsub tgt cur) k)

/-- R175: the smoothing step of both parameters. -/
def fltSmooth (t : Flt) : Flt :=
  { t with cutCur := approach t.cutCur t.cutTgt t.k, resCur := approach t.resCur t.resTgt t.k }

/-- R176: whether a smoothed parameter differs from its target. -/
def fltGliding (t : Flt) : Bool := numNe t.cutCur t.cutTgt || numNe t.resCur t.resTgt

/-- R176, its first three lines. -/
def fltAdopt (P : Params) (t : Flt) : Flt := if fltGliding t then fltUpdate P (fltSmooth t) else t

/-- R176: the difference equation, summed left to right. -/
def fltOutput (x : Num64) (t : Flt) : Num64 :=
  fsub
    (fsub (fadd (fadd (fmul t.bank.b0 x) (fmul t.bank.b1 t.x1)) (fmul t.bank.b2 t.x2)) (fmul t.bank.a1 t.y1))
    (fmul t.bank.a2 t.y2)

/-- R176: the histories after an input `x` and an output `y`. -/
def fltShift (x y : Num64) (t : Flt) : Flt := { t with x2 := t.x1, x1 := x, y2 := t.y1, y1 := y }

/-- R176, R179: the value `FLT.Process(x)` returns. -/
def fltSample (P : Params) (x : Num64) (t : Flt) : Num64 :=
  if P.hasFilter then fltOutput x (fltAdopt P t) else x

/-- R176, R179: the filter after `FLT.Process(x)`. -/
def fltAdvance (P : Params) (x : Num64) (t : Flt) : Flt :=
  if P.hasFilter then fltShift x (fltOutput x (fltAdopt P t)) (fltAdopt P t) else t

/-! ### The operations -/

/-- R170, `FLT.SetCutoffFrequency(f)`. -/
def execFltSetCutoffFrequency (f : Num64) (s : State) : Answer State := .next { s with flt := fltSetCutoff f s.flt }

/-- R171, `FLT.SetResonance(q)`. -/
def execFltSetResonance (q : Num64) (s : State) : Answer State := .next { s with flt := fltSetResonance q s.flt }

/-- R172, `FLT.SetSampleRate(sr)`. -/
def execFltSetSampleRate (sr : Num64) (s : State) : Answer State :=
  .next { s with flt := fltSetSampleRate Config.params sr s.flt }

/-- R173, `FLT.Reset()`. -/
def execFltReset (s : State) : Answer State := .next { s with flt := fltReset s.flt }

/-- R174, `FLT.UpdateCoefficients()`. -/
def execFltUpdateCoefficients (s : State) : Answer State := .next { s with flt := fltUpdate Config.params s.flt }

/-- R176, `FLT.Process(x) -> y`. -/
def execFltProcess (x : Num64) (s : State) : Answer State :=
  .next (setNumResult (fltSample Config.params x s.flt) { s with flt := fltAdvance Config.params x s.flt })

end Sys2Proof.Machine
end

