-- ==== Sys2Proof/Machine/Modulator.lean ====
section
/-! DEFINITION. The modulator, LFO (42_lfo.md). -/

namespace Sys2Proof.Machine

/-! ### The unit -/

/-- R160; while `lfo.sr` is unset only `lfo.freq` is written (its corner case). -/
def lfoSetFrequency (f : Num64) (l : Lfo) : Lfo :=
  if l.srSet then { l with freq := f, inc := fdiv f l.sr } else { l with freq := f }

/-- R161. -/
def lfoSetAmplitude (a : Num64) (l : Lfo) : Lfo := { l with amp := a }

/-- R162. -/
def lfoSetSampleRate (sr : Num64) (l : Lfo) : Lfo := { l with sr := sr, srSet := true, inc := fdiv l.freq sr }

/-- R163. -/
def lfoReset (l : Lfo) : Lfo := { l with phase := zeroNum }

/-- R164: the value `LFO.NextSample` returns. -/
def lfoSample (P : Params) (l : Lfo) : Num64 := fmul l.amp (P.num.sin (fmul twoPiNum l.phase))

/-- R164: the phase after `LFO.NextSample`. -/
def lfoAdvance (l : Lfo) : Lfo := { l with phase := wrapNum (fadd l.phase l.inc) }

/-! ### The operations -/

/-- R160, `LFO.SetFrequency(f)`. -/
def execLfoSetFrequency (f : Num64) (s : State) : Answer State := .next { s with lfo := lfoSetFrequency f s.lfo }

/-- R161, `LFO.SetAmplitude(a)`. -/
def execLfoSetAmplitude (a : Num64) (s : State) : Answer State := .next { s with lfo := lfoSetAmplitude a s.lfo }

/-- R162, `LFO.SetSampleRate(sr)`. -/
def execLfoSetSampleRate (sr : Num64) (s : State) : Answer State := .next { s with lfo := lfoSetSampleRate sr s.lfo }

/-- R163, `LFO.Reset()`. -/
def execLfoReset (s : State) : Answer State := .next { s with lfo := lfoReset s.lfo }

/-- R164, `LFO.NextSample() -> m`. -/
def execLfoNextSample (s : State) : Answer State :=
  .next (setNumResult (lfoSample Config.params s.lfo) { s with lfo := lfoAdvance s.lfo })

end Sys2Proof.Machine
end

