-- ==== Sys2Proof/WellFormed.lean ====
section
/-! DEFINITION. The checks on an instruction's operands that its encoding or its caller promises. A test provides, for
each check, a term that it refuses (`Sys2Proof/Tests/Slice0.lean`). -/

namespace Sys2Proof

/-- R228: the concurrent writes of a `RENDER` have `0 <= n_j <= frameCount`. The order R228 lists them in is no check:
each lands where its own `n_j` says (log entry 12). -/
def wellFormedWrites (frameCount : Idx) (ws : List TargetWrite) : Bool :=
  ws.all fun w => decide (w.frame.toNat ≤ frameCount.toNat)

/-- What the spec promises of an instruction's operands: a `NOTE_ON` has a velocity above 0 and a `CC_OTHER` a controller
other than 123 (R93, R94); the target writes of a `RENDER` have places that R228 admits. -/
def Instr.wellFormed : Instr → Bool
  | .noteOn _ _ vel _ => vel != 0
  | .ccOther _ controller _ _ => controller != 123
  | .render frameCount ws => wellFormedWrites frameCount ws
  | _ => true

end Sys2Proof
end

