-- ==== Sys2Proof/Decode.lean ====
section
/-! DEFINITION. Decoding of what the command port presents, total, rejecting by name; and after it the encoder. Both are
written from the encoding tables of 30_encoding.md. -/

namespace Sys2Proof

/-- Why a presented item is no instruction. `Machine/Step.lean` turns each into the fault or the refusal the spec names
for it. -/
inductive DecodeError where
  /-- R104: `cmd` not in `0x01 .. 0x06`, or `sub != 0` on a command other than `SETP`. -/
  | badCommand (hc : BitVec 16)
  /-- R104: `SETP` with `sub >= 10`. -/
  | badParameterId (id : BitVec 8)
  /-- R95: an event word with `ev[15]` or `ev[7]` set. -/
  | malformedEvent (ev : BitVec 24)
  /-- R104: a selector that is not in R103. -/
  | noSuchOperation (uop : BitVec 8)
  deriving DecidableEq, Repr

/-! ### Operand slots (log entry 3)

An operand is its own width in the low bits of its slot. No word is refused for its operands: bits above the operand and
slots behind the last operand belong to nothing, and an operand that was not presented reads as a free value. -/

/-- The slot at a position. -/
def slotAt (ops : List Slot) (k : Nat) : Slot := ops.getD k (Config.freeOperand k)

/-- The `idx` in a slot. -/
def slotIdx (v : Slot) : Idx := v.setWidth 32

/-- The event word in a slot. -/
def slotEvent (v : Slot) : BitVec 24 := v.setWidth 24

/-- The flag in a slot. -/
def slotFlag (v : Slot) : Bool := v.getLsbD 0

/-- The parameter id of a concurrent write, 0 or 1 (R228). -/
def slotTarget (v : Slot) : Smoothed := if v.getLsbD 0 then .resonance else .cutoff

/-- R228: the place of a concurrent write is at most `frameCount`; where a larger one is given, the write lands at a frame
that the model does not choose (R72; log entry 12). -/
def placeOf (frameCount n : Idx) : Idx :=
  if n.toNat ≤ frameCount.toNat then n
  else BitVec.ofNat 32 ((Config.freePlace frameCount n).toNat % (frameCount.toNat + 1))

/-- The concurrent writes of a `RENDER`, three slots each: frame, id, value. -/
def slotWrites (frameCount : Idx) : List Slot → List TargetWrite
  | frame :: id :: value :: rest =>
    { frame := placeOf frameCount (slotIdx frame), target := slotTarget id, value := value } ::
      slotWrites frameCount rest
  | _ => []

/-! ### Format EV -/

/-- R91: the fields of an event word. -/
def evStatus (w : BitVec 24) : BitVec 4 := w.extractLsb' 20 4
def evChannel (w : BitVec 24) : BitVec 4 := w.extractLsb' 16 4
def evReserved15 (w : BitVec 24) : Bool := w.getLsbD 15
def evData1 (w : BitVec 24) : Data7 := w.extractLsb' 8 7
def evReserved7 (w : BitVec 24) : Bool := w.getLsbD 7
def evData2 (w : BitVec 24) : Data7 := w.extractLsb' 0 7

/-- R93, R94: the event of an event word whose reserved bits are clear: the status nibble first, then `data2 = 0` under
`0x9` and `data1 = 123` under `0xB`. -/
def decodeEvent (w : BitVec 24) (off : Idx) : Instr :=
  let st := evStatus w
  let ch := evChannel w
  let d1 := evData1 w
  let d2 := evData2 w
  if st = 0x9 then (if d2 = 0 then .noteOnV0 ch d1 off else .noteOn ch d1 d2 off)
  else if st = 0x8 then .noteOff ch d1 d2 off
  else if st = 0xB then (if d1 = 123 then .ccAllNotesOff ch d2 off else .ccOther ch d1 d2 off)
  else if st = 0xA then .polyPressure ch d1 d2 off
  else if st = 0xC then .programChange ch d1 d2 off
  else if st = 0xD then .channelPressure ch d1 d2 off
  else if st = 0xE then .pitchBend ch d1 d2 off
  else if st = 0xF then .system ch d1 d2 off
  else .notAStatus (st.setWidth 3) ch d1 d2 off

/-- R91, R95: a presented event word, with the side-band offset in the slot after it. -/
def decodeEv (w : BitVec 24) (ops : List Slot) : Except DecodeError Instr :=
  if evReserved15 w || evReserved7 w then .error (.malformedEvent w)
  else .ok (decodeEvent w (slotIdx (slotAt ops 0)))

/-! ### Format HC -/

/-- R96: the fields of a command word. -/
def hcCmd (w : BitVec 16) : BitVec 8 := w.extractLsb' 8 8
def hcSub (w : BitVec 16) : BitVec 8 := w.extractLsb' 0 8

/-- R98: the parameter ids. -/
def setpRows : List (BitVec 8 × (Num64 → Instr)) :=
  [(0, .setpCutoff),
   (1, .setpResonance),
   (2, .setpAttack),
   (3, .setpDecay),
   (4, .setpSustain),
   (5, .setpRelease),
   (6, .setpLfoRate),
   (7, .setpLfoDepth),
   (8, .setpEnvEnable),
   (9, .setpBypass)]

def setpOf (id : BitVec 8) (value : Num64) : Option Instr := (setpRows.lookup id).map fun f => f value

/-- R96 to R98, R104: a presented host command, with its operands in the slots after it. -/
def decodeHc (w : BitVec 16) (ops : List Slot) : Except DecodeError Instr :=
  let a := slotAt ops 0
  if hcCmd w = 0x04 then
    match setpOf (hcSub w) a with
    | some i => .ok i
    | none => .error (.badParameterId (hcSub w))
  else if hcSub w ≠ 0 then .error (.badCommand w)
  else if hcCmd w = 0x01 then .ok (.setsr a)
  else if hcCmd w = 0x02 then .ok (.setbs (slotIdx a))
  else if hcCmd w = 0x03 then .ok (.enq (slotEvent a) (slotIdx (slotAt ops 1)))
  else if hcCmd w = 0x05 then .ok (.render (slotIdx a) (slotWrites (slotIdx a) (ops.drop 1)))
  else if hcCmd w = 0x06 then .ok .reset
  else .error (.badCommand w)

/-! ### Format UOP -/

/-- R103: the operations that take no operand. -/
def uopPlainRows : List (BitVec 8 × Instr) :=
  [(0x12, .oscReset),
   (0x13, .oscNextSample),
   (0x23, .lfoReset),
   (0x24, .lfoNextSample),
   (0x33, .fltReset),
   (0x34, .fltUpdateCoefficients),
   (0x41, .envAttack),
   (0x51, .voiceReset),
   (0x60, .schDrain),
   (0x61, .schGate)]

/-- R103: the operations of one `Num` operand. -/
def uopNumRows : List (BitVec 8 × (Num64 → Instr)) :=
  [(0x10, .oscSetFrequency),
   (0x11, .oscSetSampleRate),
   (0x20, .lfoSetFrequency),
   (0x21, .lfoSetAmplitude),
   (0x22, .lfoSetSampleRate),
   (0x30, .fltSetCutoffFrequency),
   (0x31, .fltSetResonance),
   (0x32, .fltSetSampleRate),
   (0x35, .fltProcess),
   (0x40, .envValue),
   (0x42, .envSetAttackTime),
   (0x43, .envSetDecayTime),
   (0x44, .envSetSustainLevel),
   (0x45, .envSetReleaseTime),
   (0x54, .voiceSetCutoff),
   (0x55, .voiceSetSampleRate)]

/-- R103: the operations of one flag. -/
def uopFlagRows : List (BitVec 8 × (Bool → Instr)) :=
  [(0x52, .voiceSetEnvelopeEnabled), (0x53, .voiceSetGlobalBypass)]

/-- R103: the operation of one `idx`. -/
def uopIdxRows : List (BitVec 8 × (Idx → Instr)) := [(0x62, .schCopyChannels)]

/-- R103: the selector of `VOICE.Process`, which takes two `idx` and a flag. -/
def uopProcess : BitVec 8 := 0x50

/-- R103, R195: the operation of a selector, with its operands in the slots after it; `none` where R103 has no such
selector. -/
def uopOf (w : BitVec 8) (ops : List Slot) : Option Instr :=
  let a := slotAt ops 0
  if w = uopProcess then some (.voiceProcess (slotIdx a) (slotIdx (slotAt ops 1)) (slotFlag (slotAt ops 2)))
  else
    (uopPlainRows.lookup w).or <|
      ((uopNumRows.lookup w).map fun f => f a).or <|
        ((uopFlagRows.lookup w).map fun f => f (slotFlag a)).or <|
          (uopIdxRows.lookup w).map fun f => f (slotIdx a)

/-- R103, R104: a presented unit operation. -/
def decodeUop (w : BitVec 8) (ops : List Slot) : Except DecodeError Instr :=
  match uopOf w ops with
  | some i => .ok i
  | none => .error (.noSuchOperation w)

/-! ### All formats -/

/-- R90: the instruction of a presented item. -/
def decode (it : PortItem) : Except DecodeError Instr :=
  match it.word with
  | .ev w => decodeEv w it.operands
  | .hc w => decodeHc w it.operands
  | .uop w => decodeUop w it.operands

/-! ### The encoder -/

/-- R91: the event word of its fields, reserved bits clear. -/
def evWord (st ch : BitVec 4) (d1 d2 : Data7) : BitVec 24 := st ++ ch ++ 0#1 ++ d1 ++ 0#1 ++ d2

/-- R96: the command word of a code and a `sub`. -/
def hcWord (cmd sub : BitVec 8) : BitVec 16 := cmd ++ sub

def idxSlot (n : Idx) : Slot := n.setWidth 64
def eventSlot (ev : BitVec 24) : Slot := ev.setWidth 64
def flagSlot (b : Bool) : Slot := if b then 1 else 0
def targetSlot : Smoothed → Slot
  | .cutoff => 0
  | .resonance => 1
def writeSlots : List TargetWrite → List Slot
  | [] => []
  | w :: ws => idxSlot w.frame :: targetSlot w.target :: w.value :: writeSlots ws

/-- The three formats of an encoded instruction, presented between `RENDER` commands. -/
def evItem (st ch : BitVec 4) (d1 d2 : Data7) (off : Idx) : PortItem :=
  { word := .ev (evWord st ch d1 d2), operands := [idxSlot off], during := false }
def hcItem (cmd sub : BitVec 8) (ops : List Slot) : PortItem :=
  { word := .hc (hcWord cmd sub), operands := ops, during := false }
def uopItem (w : BitVec 8) (ops : List Slot) : PortItem :=
  { word := .uop w, operands := ops, during := false }

/-- R93, R97, R98, R103: the words of an instruction. -/
def encode : Instr → PortItem
  | .noteOn ch note vel off => evItem 0x9 ch note vel off
  | .noteOnV0 ch note off => evItem 0x9 ch note 0 off
  | .noteOff ch note vel off => evItem 0x8 ch note vel off
  | .ccAllNotesOff ch value off => evItem 0xB ch 123 value off
  | .ccOther ch controller value off => evItem 0xB ch controller value off
  | .polyPressure ch d1 d2 off => evItem 0xA ch d1 d2 off
  | .programChange ch d1 d2 off => evItem 0xC ch d1 d2 off
  | .channelPressure ch d1 d2 off => evItem 0xD ch d1 d2 off
  | .pitchBend ch d1 d2 off => evItem 0xE ch d1 d2 off
  | .system ch d1 d2 off => evItem 0xF ch d1 d2 off
  | .notAStatus st ch d1 d2 off => evItem (st.setWidth 4) ch d1 d2 off
  | .setsr sr => hcItem 1 0 [sr]
  | .setbs frames => hcItem 2 0 [idxSlot frames]
  | .enq ev off => hcItem 3 0 [eventSlot ev, idxSlot off]
  | .setpCutoff value => hcItem 4 0 [value]
  | .setpResonance value => hcItem 4 1 [value]
  | .setpAttack value => hcItem 4 2 [value]
  | .setpDecay value => hcItem 4 3 [value]
  | .setpSustain value => hcItem 4 4 [value]
  | .setpRelease value => hcItem 4 5 [value]
  | .setpLfoRate value => hcItem 4 6 [value]
  | .setpLfoDepth value => hcItem 4 7 [value]
  | .setpEnvEnable value => hcItem 4 8 [value]
  | .setpBypass value => hcItem 4 9 [value]
  | .render frameCount ws => hcItem 5 0 (idxSlot frameCount :: writeSlots ws)
  | .reset => hcItem 6 0 []
  | .oscSetFrequency f => uopItem 0x10 [f]
  | .oscSetSampleRate sr => uopItem 0x11 [sr]
  | .oscReset => uopItem 0x12 []
  | .oscNextSample => uopItem 0x13 []
  | .lfoSetFrequency f => uopItem 0x20 [f]
  | .lfoSetAmplitude a => uopItem 0x21 [a]
  | .lfoSetSampleRate sr => uopItem 0x22 [sr]
  | .lfoReset => uopItem 0x23 []
  | .lfoNextSample => uopItem 0x24 []
  | .fltSetCutoffFrequency f => uopItem 0x30 [f]
  | .fltSetResonance q => uopItem 0x31 [q]
  | .fltSetSampleRate sr => uopItem 0x32 [sr]
  | .fltReset => uopItem 0x33 []
  | .fltUpdateCoefficients => uopItem 0x34 []
  | .fltProcess x => uopItem 0x35 [x]
  | .envValue dt => uopItem 0x40 [dt]
  | .envAttack => uopItem 0x41 []
  | .envSetAttackTime t => uopItem 0x42 [t]
  | .envSetDecayTime t => uopItem 0x43 [t]
  | .envSetSustainLevel level => uopItem 0x44 [level]
  | .envSetReleaseTime t => uopItem 0x45 [t]
  | .voiceProcess base n gate => uopItem 0x50 [idxSlot base, idxSlot n, flagSlot gate]
  | .voiceReset => uopItem 0x51 []
  | .voiceSetEnvelopeEnabled b => uopItem 0x52 [flagSlot b]
  | .voiceSetGlobalBypass b => uopItem 0x53 [flagSlot b]
  | .voiceSetCutoff f => uopItem 0x54 [f]
  | .voiceSetSampleRate sr => uopItem 0x55 [sr]
  | .schDrain => uopItem 0x60 []
  | .schGate => uopItem 0x61 []
  | .schCopyChannels frameCount => uopItem 0x62 [idxSlot frameCount]

/-! ### The rows of spec/opcode_table.json -/

/-- A row's word: its width in bits, its mask of fixed bits and their values. -/
structure Row where
  nbits : Nat
  mask : Nat
  pattern : Nat
  deriving DecidableEq, Repr

def evRow (mask pattern : Nat) : Row := { nbits := 24, mask := mask, pattern := pattern }
def hcRow (pattern : Nat) : Row := { nbits := 16, mask := 0xFFFF, pattern := pattern }
def uopRow (pattern : Nat) : Row := { nbits := 8, mask := 0xFF, pattern := pattern }

/-- R93: the eleven rows of format EV, in the table's order. -/
def eventRows : List Row :=
  [evRow 0xF08080 0x900000,
   evRow 0xF080FF 0x900000,
   evRow 0xF08080 0x800000,
   evRow 0xF0FF80 0xB07B00,
   evRow 0xF08080 0xB00000,
   evRow 0xF08080 0xA00000,
   evRow 0xF08080 0xC00000,
   evRow 0xF08080 0xD00000,
   evRow 0xF08080 0xE00000,
   evRow 0xF08080 0xF00000,
   evRow 0x808080 0x000000]

/-- R93, R97, R98, R103: the row of an instruction. -/
def rowOf : Instr → Row
  | .noteOn _ _ _ _ => evRow 0xF08080 0x900000
  | .noteOnV0 _ _ _ => evRow 0xF080FF 0x900000
  | .noteOff _ _ _ _ => evRow 0xF08080 0x800000
  | .ccAllNotesOff _ _ _ => evRow 0xF0FF80 0xB07B00
  | .ccOther _ _ _ _ => evRow 0xF08080 0xB00000
  | .polyPressure _ _ _ _ => evRow 0xF08080 0xA00000
  | .programChange _ _ _ _ => evRow 0xF08080 0xC00000
  | .channelPressure _ _ _ _ => evRow 0xF08080 0xD00000
  | .pitchBend _ _ _ _ => evRow 0xF08080 0xE00000
  | .system _ _ _ _ => evRow 0xF08080 0xF00000
  | .notAStatus _ _ _ _ _ => evRow 0x808080 0x000000
  | .setsr _ => hcRow 0x0100
  | .setbs _ => hcRow 0x0200
  | .enq _ _ => hcRow 0x0300
  | .setpCutoff _ => hcRow 0x0400
  | .setpResonance _ => hcRow 0x0401
  | .setpAttack _ => hcRow 0x0402
  | .setpDecay _ => hcRow 0x0403
  | .setpSustain _ => hcRow 0x0404
  | .setpRelease _ => hcRow 0x0405
  | .setpLfoRate _ => hcRow 0x0406
  | .setpLfoDepth _ => hcRow 0x0407
  | .setpEnvEnable _ => hcRow 0x0408
  | .setpBypass _ => hcRow 0x0409
  | .render _ _ => hcRow 0x0500
  | .reset => hcRow 0x0600
  | .oscSetFrequency _ => uopRow 0x10
  | .oscSetSampleRate _ => uopRow 0x11
  | .oscReset => uopRow 0x12
  | .oscNextSample => uopRow 0x13
  | .lfoSetFrequency _ => uopRow 0x20
  | .lfoSetAmplitude _ => uopRow 0x21
  | .lfoSetSampleRate _ => uopRow 0x22
  | .lfoReset => uopRow 0x23
  | .lfoNextSample => uopRow 0x24
  | .fltSetCutoffFrequency _ => uopRow 0x30
  | .fltSetResonance _ => uopRow 0x31
  | .fltSetSampleRate _ => uopRow 0x32
  | .fltReset => uopRow 0x33
  | .fltUpdateCoefficients => uopRow 0x34
  | .fltProcess _ => uopRow 0x35
  | .envValue _ => uopRow 0x40
  | .envAttack => uopRow 0x41
  | .envSetAttackTime _ => uopRow 0x42
  | .envSetDecayTime _ => uopRow 0x43
  | .envSetSustainLevel _ => uopRow 0x44
  | .envSetReleaseTime _ => uopRow 0x45
  | .voiceProcess _ _ _ => uopRow 0x50
  | .voiceReset => uopRow 0x51
  | .voiceSetEnvelopeEnabled _ => uopRow 0x52
  | .voiceSetGlobalBypass _ => uopRow 0x53
  | .voiceSetCutoff _ => uopRow 0x54
  | .voiceSetSampleRate _ => uopRow 0x55
  | .schDrain => uopRow 0x60
  | .schGate => uopRow 0x61
  | .schCopyChannels _ => uopRow 0x62

/-- The width and the bits of a word. -/
def CmdWord.nbits : CmdWord → Nat
  | .ev _ => 24
  | .hc _ => 16
  | .uop _ => 8
def CmdWord.bits : CmdWord → Nat
  | .ev w => w.toNat
  | .hc w => w.toNat
  | .uop w => w.toNat

/-- A word has a row's width and its fixed bits. -/
def Row.holds (r : Row) (w : CmdWord) : Prop := w.nbits = r.nbits ∧ w.bits &&& r.mask = r.pattern

/-- R94: how many bits a row fixes. -/
def Row.fixedBits (r : Row) : Nat := (List.range r.nbits).countP fun k => r.mask.testBit k

/-! ### Words as spec/opcode_table.json numbers them -/

/-- The item whose word is `w`, in the format whose rows have `nbits` bits (8: UOP, 16: HC, 24: EV), with operands of
zeros: three slots, the most that an instruction without concurrent writes has (`VOICE.Process`). -/
def tableItem (nbits w : Nat) : PortItem :=
  let word : CmdWord := match nbits with
    | 8 => .uop (BitVec.ofNat 8 w)
    | 16 => .hc (BitVec.ofNat 16 w)
    | _ => .ev (BitVec.ofNat 24 w)
  { word := word, operands := [0, 0, 0], during := false }

/-- The instruction the decoder reads from a row's word, operands zero. -/
def decodeTableWord (nbits w : Nat) : Option Instr :=
  match decode (tableItem nbits w) with
  | .ok i => some i
  | .error _ => none

end Sys2Proof
end

