-- ==== Sys2Proof/Machine/Operands.lean ====
section
/-! DEFINITION. Operand assembly (30_encoding.md, section 4): what an operand of the port becomes before it is stored. -/

namespace Sys2Proof.Machine

/-- R230: whether a `SETP` operand is a value at all: not a NaN, not an infinity. -/
def isValue (value : Num64) : Bool := isFinite value

/-- R225: a sample rate the model takes: above 0 and not `+inf`; a NaN fails the first test. -/
def isSampleRate (sr : Num64) : Bool := numLt zeroNum sr && !isInf sr

/-- R99: the decode of a `bool` operand. -/
def boolOperand (value : Num64) : Bool := numLe halfNum value

/-- R100: milliseconds to seconds. -/
def secondsOperand (value : Num64) : Num64 := fdiv value thousandNum

/-- R101: decibels to linear amplitude. -/
def amplitudeOperand (P : Params) (value : Num64) : Num64 := P.num.pow10 (fdiv value twentyNum)

/-- R95: whether an event word has a reserved bit set. -/
def isMalformed (ev : BitVec 24) : Bool := evReserved15 ev || evReserved7 ev

/-- R92: the record `ENQ` stores of an event word; the channel is dropped. -/
def recordOf (ev : BitVec 24) (off : Idx) : EventRec :=
  { status := evStatus ev, data1 := evData1 ev, data2 := evData2 ev, off := off }

/-- R98: the id of a smoothed parameter. -/
def idOf : Smoothed → BitVec 8
  | .cutoff => 0
  | .resonance => 1

/-- R122, R215: the frequency of a note number. -/
def noteFreq (P : Params) (n : Data7) : Num64 :=
  fmul a4Hz (P.num.pow2 (fdiv (toNum ((n.toNat : Int) - a4Note)) twelveNum))

end Sys2Proof.Machine
end

