-- ==== Sys2Proof/Machine/Oscillator.lean ====
section
/-! DEFINITION. The band-limited oscillator (41_oscillator.md). -/

namespace Sys2Proof.Machine

/-! ### The unit -/

/-- R150. -/
def oscSetFrequency (f : Num64) (o : Osc) : Osc := { o with freq := f, inc := fdiv f o.sr }

/-- R151. -/
def oscSetSampleRate (sr : Num64) (o : Osc) : Osc := { o with sr := sr, inc := fdiv o.freq sr }

/-- R152. -/
def oscReset (o : Osc) : Osc := { o with phase := zeroNum }

/-- R153: `BlepStart(u) = 2u - u^2 - 1`, in the order the rule writes it. -/
def blepStart (u : Num64) : Num64 := fsub (fsub (fadd u u) (fmul u u)) oneNum

/-- R153: `BlepEnd(u) = u^2 + 2u + 1`, in the order the rule writes it. -/
def blepEnd (u : Num64) : Num64 := fadd (fadd (fadd (fmul u u) u) u) oneNum

/-- R153: the corrected sawtooth at phase `p` with increment `d`, in the rule's own arithmetic. -/
def sawValue (p d : Num64) : Num64 :=
  let v := fsub (fmul twoNum p) oneNum
  if numLt p d then fsub v (blepStart (fdiv p d))
  else if numLt (fsub oneNum d) p then fsub v (blepEnd (fdiv (fsub p oneNum) d))
  else v

/-- R153, R155: the sample `v`. With a NaN or an infinity in either register it is a NaN (the last row of R155; log entry
24). -/
def sawSample (p d : Num64) : Num64 := if isFinite p && isFinite d then sawValue p d else nanOf .sub p d

/-- R153, R156: the value `OSC.NextSample` returns. -/
def oscSample (P : Params) (o : Osc) : Num64 :=
  match P.shape with
  | .saw => sawSample o.phase o.inc
  | .sine => P.num.sin (fmul twoPiNum o.phase)

/-- R153: the phase after `OSC.NextSample`. -/
def oscAdvance (o : Osc) : Osc := { o with phase := wrapNum (fadd o.phase o.inc) }

/-! ### The operations -/

/-- R150, `OSC.SetFrequency(f)`. -/
def execOscSetFrequency (f : Num64) (s : State) : Answer State := .next { s with osc := oscSetFrequency f s.osc }

/-- R151, `OSC.SetSampleRate(sr)`. -/
def execOscSetSampleRate (sr : Num64) (s : State) : Answer State := .next { s with osc := oscSetSampleRate sr s.osc }

/-- R152, `OSC.Reset()`. -/
def execOscReset (s : State) : Answer State := .next { s with osc := oscReset s.osc }

/-- R153, `OSC.NextSample() -> v`. -/
def execOscNextSample (s : State) : Answer State :=
  .next (setNumResult (oscSample Config.params s.osc) { s with osc := oscAdvance s.osc })

end Sys2Proof.Machine
end

