-- ==== Sys2Proof/Machine/Voice.lean ====
section
/-! DEFINITION. The voice (45_voice.md): the order of every unit's work within a frame, and the setters. -/

namespace Sys2Proof.Machine

/-! ### Setters -/

/-- R199: the base and the filter's target; with no filter the command is ignored (R179). -/
def voiceSetCutoff (f : Num64) (s : State) : State :=
  { s with v := { s.v with baseCut := f }, flt := fltSetCutoff f s.flt }

/-- R197: enabling with a note held restarts the contour. -/
def voiceSetEnvelopeEnabled (b : Bool) (v : Voice) : Voice :=
  let w := { v with envEnabled := b }
  if b && !v.envEnabled && noteHeld v then envAttack w else w

/-- R198. -/
def voiceSetGlobalBypass (b : Bool) (v : Voice) : Voice := { v with bypass := b }

/-- R196: oscillator phase, filter history, clock; nothing else. -/
def voiceReset (s : State) : State :=
  { s with osc := oscReset s.osc, flt := fltReset s.flt, v := { s.v with noteOnTime := zeroNum } }

/-- R200: every sample-rate copy and what is derived from it, then the reset. -/
def voiceSetSampleRate (P : Params) (sr : Num64) (s : State) : State :=
  voiceReset
    { s with
      v := { s.v with sr := sr }
      osc := oscSetSampleRate sr s.osc
      lfo := lfoSetSampleRate sr s.lfo
      flt := fltSetSampleRate P sr s.flt }

/-! ### Concurrent target writes (R72, R228) -/

/-- R231, R232: what a `SETP` of a smoothed parameter writes; ignored in a configuration without a filter (R179). -/
def writeTarget (P : Params) (t : Smoothed) (value : Num64) (s : State) : State :=
  if P.hasFilter then
    match t with
    | .cutoff => voiceSetCutoff value s
    | .resonance => { s with flt := fltSetResonance value s.flt }
  else s

/-- The writes of a list, one after another. -/
def landWrites (P : Params) (ws : List TargetWrite) (s : State) : State :=
  ws.foldl (fun s w => writeTarget P w.target w.value s) s

/-- R228: the writes that land immediately before block frame `n` is computed. -/
def landBefore (P : Params) (ws : List TargetWrite) (n : Nat) (s : State) : State :=
  landWrites P (ws.filter fun w => decide (w.frame.toNat = n)) s

/-- R228: the writes that land after the last of `n` frames. -/
def landAfter (P : Params) (ws : List TargetWrite) (n : Nat) (s : State) : State :=
  landWrites P (ws.filter fun w => decide (n ≤ w.frame.toNat)) s

/-! ### VOICE.Process (R195) -/

/-- R195: the pre-filter sample of a frame. A closed gate replaces it by `+0`, whatever it was. -/
def voiceInput (P : Params) (gate : Bool) (s : State) : Num64 :=
  let time := fdiv (toNum s.sch.i.toNat) s.v.sr
  let g := envGain P (envelopeOn P s.v) s.env (fsub time s.v.noteOnTime)
  if gate then fmul (fmul (oscSample P s.osc) g) P.headroom else zeroNum

/-- R195: the filter as it stands when the frame's sample enters it: with a modulator, its sample has been added to the
base cutoff and written through the filter's own setter. -/
def voiceFilter (P : Params) (s : State) : Flt :=
  if P.hasLfo && P.hasFilter then fltSetCutoff (fadd s.v.baseCut (lfoSample P s.lfo)) s.flt else s.flt

/-- R195, R121: `base + i`, the index of the word a frame is written to. Beyond the 32 bits of an index, where the addition
has no result in the spec, the index is a free value (log entry 25); no call the scheduler makes comes there. -/
def frameIndex (base i : Nat) : Nat := if base + i < 2 ^ 32 then base + i else (Config.freeFrame base i).toNat

/-- R195: the body of the frame loop, without the concurrent writes: the frame of index `s.sch.i` in the call. -/
def voiceFrameBody (P : Params) (base : Nat) (gate : Bool) (s : State) : State :=
  let x := voiceInput P gate s
  let t := voiceFilter P s
  { s with
    osc := oscAdvance s.osc
    lfo := if P.hasLfo then lfoAdvance s.lfo else s.lfo
    flt := fltAdvance P x t
    out := memWrite s.out .first (frameIndex base s.sch.i.toNat) (fltSample P x t)
    sch := { s.sch with i := s.sch.i + 1 } }

/-- R195, R228: one frame. -/
def voiceFrame (P : Params) (ws : List TargetWrite) (base : Nat) (gate : Bool) (s : State) : State :=
  voiceFrameBody P base gate (landBefore P ws (base + s.sch.i.toNat) s)

/-- R195: `n` frames, from the one `s.sch.i` names. -/
def voiceFrames (P : Params) (ws : List TargetWrite) (base : Nat) (gate : Bool) : Nat → State → State
  | 0, s => s
  | n + 1, s => voiceFrames P ws base gate n (voiceFrame P ws base gate s)

/-- R195: the clock falls by the duration of the call. -/
def clockAfter (n : Idx) (v : Voice) : Voice :=
  { v with noteOnTime := fsub v.noteOnTime (fdiv (toNum n.toNat) v.sr) }

/-- R195: `VOICE.Process(base, n, gate)`; `ws` are the concurrent writes of the `RENDER` it is part of. The index `i` is
not kept afterwards (R29). -/
def voiceProcess (P : Params) (ws : List TargetWrite) (base n : Idx) (gate : Bool) (s : State) : State :=
  let t := voiceFrames P ws base.toNat gate n.toNat { s with sch := { s.sch with i := 0 } }
  { t with v := clockAfter n t.v, sch := { t.sch with i := 0 } }

/-! ### The operations -/

/-- R195, `VOICE.Process(base, n, gate)`. -/
def execVoiceProcess (base n : Idx) (gate : Bool) (s : State) : Answer State :=
  .next (voiceProcess Config.params [] base n gate s)

/-- R196, `VOICE.Reset()`. -/
def execVoiceReset (s : State) : Answer State := .next (voiceReset s)

/-- R197, `VOICE.SetEnvelopeEnabled(b)`. -/
def execVoiceSetEnvelopeEnabled (b : Bool) (s : State) : Answer State :=
  .next { s with v := voiceSetEnvelopeEnabled b s.v }

/-- R198, `VOICE.SetGlobalBypass(b)`. -/
def execVoiceSetGlobalBypass (b : Bool) (s : State) : Answer State :=
  .next { s with v := voiceSetGlobalBypass b s.v }

/-- R199, `VOICE.SetCutoff(f)`. -/
def execVoiceSetCutoff (f : Num64) (s : State) : Answer State := .next (voiceSetCutoff f s)

/-- R200, `VOICE.SetSampleRate(sr)`. -/
def execVoiceSetSampleRate (sr : Num64) (s : State) : Answer State :=
  .next (voiceSetSampleRate Config.params sr s)

end Sys2Proof.Machine
end

