-- ==== Sys2Proof/Machine/Events.lean ====
section
/-! DEFINITION. The MIDI events (46_scheduler.md, section 2): what each does when it is applied. -/

namespace Sys2Proof.Machine

/-! ### What an event does -/

/-- R208: frequency, held note, clock, in this order. -/
def applyNoteOn (P : Params) (note : Data7) (s : State) : State :=
  { s with
    osc := oscSetFrequency (noteFreq P note) s.osc
    v := envAttack { s.v with heldNote := some note } }

/-- R210: the held note is cleared on a match. -/
def applyNoteOff (note : Data7) (s : State) : State :=
  if s.v.heldNote = some note then { s with v := { s.v with heldNote := none } } else s

/-- R211. -/
def applyAllNotesOff (s : State) : State := { s with v := { s.v with heldNote := none } }

/-- R213, R214: no state change. -/
def applyIgnored (s : State) : State := s

/-- R207: `SCH.Apply(e)`. -/
def applyEvent (P : Params) (e : EventRec) (s : State) : State :=
  if e.status = 0x9 then (if e.data2 = 0 then applyNoteOff e.data1 s else applyNoteOn P e.data1 s)
  else if e.status = 0x8 then applyNoteOff e.data1 s
  else if e.status = 0xB then (if e.data1 = 123 then applyAllNotesOff s else applyIgnored s)
  else applyIgnored s

/-! ### The events as instructions

The channel, the velocities and values the rules do not examine, and the side-band offset have no effect (R91, R102,
R207). -/

/-- R208, `NOTE_ON`. -/
def execNoteOn (_ch : BitVec 4) (note _vel : Data7) (_off : Idx) (s : State) : Answer State :=
  .next (applyNoteOn Config.params note s)

/-- R209, `NOTE_ON_V0`: treated as `NOTE_OFF`. -/
def execNoteOnV0 (_ch : BitVec 4) (note : Data7) (_off : Idx) (s : State) : Answer State :=
  .next (applyNoteOff note s)

/-- R210, `NOTE_OFF`. -/
def execNoteOff (_ch : BitVec 4) (note _vel : Data7) (_off : Idx) (s : State) : Answer State :=
  .next (applyNoteOff note s)

/-- R211, `CC_ALL_NOTES_OFF`. -/
def execCcAllNotesOff (_ch : BitVec 4) (_value : Data7) (_off : Idx) (s : State) : Answer State :=
  .next (applyAllNotesOff s)

/-- R213, `CC_OTHER`: ignored. -/
def execCcOther (_ch : BitVec 4) (_controller _value : Data7) (_off : Idx) (s : State) : Answer State :=
  .next (applyIgnored s)

/-- R214, `POLY_PRESSURE`: ignored. -/
def execPolyPressure (_ch : BitVec 4) (_d1 _d2 : Data7) (_off : Idx) (s : State) : Answer State :=
  .next (applyIgnored s)

/-- R214, `PROGRAM_CHANGE`: ignored. -/
def execProgramChange (_ch : BitVec 4) (_d1 _d2 : Data7) (_off : Idx) (s : State) : Answer State :=
  .next (applyIgnored s)

/-- R214, `CHANNEL_PRESSURE`: ignored. -/
def execChannelPressure (_ch : BitVec 4) (_d1 _d2 : Data7) (_off : Idx) (s : State) : Answer State :=
  .next (applyIgnored s)

/-- R214, `PITCH_BEND`: ignored. -/
def execPitchBend (_ch : BitVec 4) (_d1 _d2 : Data7) (_off : Idx) (s : State) : Answer State :=
  .next (applyIgnored s)

/-- R214, `SYSTEM`: ignored. -/
def execSystem (_ch : BitVec 4) (_d1 _d2 : Data7) (_off : Idx) (s : State) : Answer State :=
  .next (applyIgnored s)

/-- R214, `NOT_A_STATUS`: ignored. -/
def execNotAStatus (_st : BitVec 3) (_ch : BitVec 4) (_d1 _d2 : Data7) (_off : Idx) (s : State) : Answer State :=
  .next (applyIgnored s)

end Sys2Proof.Machine
end

