-- ==== Sys2Proof/Machine/Scheduler.lean ====
section
/-! DEFINITION. The event scheduler and render loop (46_scheduler.md, sections 1 and 3). -/

namespace Sys2Proof.Machine

/-! ### The loop -/

/-- R206: the records at the head whose offset is reached are popped and applied; the first that is not stays, and all
behind it. -/
def drainRecs (P : Params) (offset : Idx) : List EventRec → State → State
  | [], s => { s with q := { s.q with recs := [] } }
  | e :: rest, s =>
    if e.off.toNat ≤ offset.toNat then drainRecs P offset rest (applyEvent P e s)
    else { s with q := { s.q with recs := e :: rest } }

/-- R206: `SCH.Drain()`. -/
def schDrain (P : Params) (s : State) : State := drainRecs P s.sch.offset s.q.recs s

/-- R205: `next`, the offset of the queue's head, or `frameCount` with an empty queue. -/
def nextOffset (frameCount : Idx) (q : Queue) : Idx :=
  match q.recs with
  | e :: _ => e.off
  | [] => frameCount

/-- R205: one iteration of the loop: drain, then one call of `VOICE.Process` up to the next event. -/
def schIteration (P : Params) (ws : List TargetWrite) (frameCount : Idx) (s : State) : State :=
  let d := schDrain P s
  let next := nextOffset frameCount d.q
  let t := voiceProcess P ws d.sch.offset (next - d.sch.offset) (gateOf P d.v) d
  { t with sch := { t.sch with offset := next } }

/-- R205: the loop; it runs at most `frameCount` times, which is what `fuel` is. -/
def schLoop (P : Params) (ws : List TargetWrite) (frameCount : Idx) : Nat → State → State
  | 0, s => s
  | fuel + 1, s =>
    if s.sch.offset.toNat < frameCount.toNat then schLoop P ws frameCount fuel (schIteration P ws frameCount s)
    else s

/-- R216: the second channel is a bit-exact copy of the first; nothing with one channel. -/
def copyChannels (P : Params) (frameCount : Idx) (m : Memory) : Memory :=
  match P.nch with
  | .mono => m
  | .stereo => { m with ch1 := bufCopy frameCount.toNat m.ch0 m.ch1 }

/-- R205, R63: the state the loop starts from: position 0, and no word of the output memory written yet. -/
def renderEntry (s : State) : State := { s with sch := { s.sch with offset := 0 }, out := Memory.poisoned }

/-- R205: `SCH.Render(frameCount)`, with the concurrent writes of R228. -/
def schRender (P : Params) (ws : List TargetWrite) (frameCount : Idx) (s : State) : State :=
  let t := schLoop P ws frameCount frameCount.toNat (renderEntry s)
  landAfter P ws frameCount.toNat { t with out := copyChannels P frameCount t.out }

/-! ### The operations -/

/-- R206, `SCH.Drain()`. -/
def execSchDrain (s : State) : Answer State := .next (schDrain Config.params s)

/-- R212, `SCH.Gate() -> gate`. -/
def execSchGate (s : State) : Answer State := .next (setFlagResult (gateOf Config.params s.v) s)

/-- R216, `SCH.CopyChannels(frameCount)`. -/
def execSchCopyChannels (frameCount : Idx) (s : State) : Answer State :=
  .next { s with out := copyChannels Config.params frameCount s.out }

end Sys2Proof.Machine
end

