-- ==== Sys2Proof/Machine/HostCommands.lean ====
section
/-! DEFINITION. The host commands (47_host_commands.md). The checks of each stand in the order its rule writes them, and
the first that fails is the fault (R269). -/

namespace Sys2Proof.Machine

/-! ### Lifecycle commands -/

/-- R225, `SETSR sr`. -/
def execSetsr (sr : Num64) (s : State) : Answer State :=
  betweenRenders .setsr s <|
    if isSampleRate sr then
      .next { voiceSetSampleRate Config.params sr s with cfg := { s.cfg with srSet := true } }
    else raise (.badSampleRate sr)

/-- R226, `SETBS frames`. -/
def execSetbs (frames : Idx) (s : State) : Answer State :=
  betweenRenders .setbs s <|
    .next { s with
      sch := { s.sch with blockSize := frames }
      q := queueResize s.q frames
      cfg := { s.cfg with bsSet := true } }

/-- R227: the offset is below that of `QTail()`. -/
def breaksOrder (q : Queue) (off : Idx) : Bool :=
  match queueTailOff q with
  | some last => decide (off.toNat < last.toNat)
  | none => false

/-- R227, `ENQ ev, sampleOffset`. -/
def execEnq (ev : BitVec 24) (off : Idx) (s : State) : Answer State :=
  betweenRenders .enq s <|
    if !s.cfg.bsSet then raise (.notConfigured .enq)
    else if isMalformed ev then .refused (.malformedEvent ev)
    else if s.sch.blockSize.toNat ≤ off.toNat then raise (.eventOffsetOutOfRange off)
    else if breaksOrder s.q off then raise (.eventOrderViolation off)
    else if s.q.cap.toNat ≤ s.q.recs.length then raise (.queueOverflow s.q.recs.length)
    else .next { s with q := queuePush s.q (recordOf ev off) }

/-- R228: the first queued record the loop would not reach. -/
def recordBeyond (q : Queue) (frameCount : Idx) : Option EventRec :=
  q.recs.find? fun e => decide (frameCount.toNat ≤ e.off.toNat)

/-- R230, R228: the first concurrent write whose `SETP` faults. -/
def badWrite (ws : List TargetWrite) : Option TargetWrite := ws.find? fun w => !isValue w.value

/-- R228: what a `RENDER` does after its entry checks: a concurrent `SETP` of a non-value faults (R230); otherwise the
block is rendered and the writes land where they are placed. With `frameCount = 0` nothing is rendered or drained, and
the writes land. -/
def renderBlock (frameCount : Idx) (ws : List TargetWrite) (s : State) : Answer State :=
  match badWrite ws with
  | some w => raise (.badOperand (idOf w.target) w.value)
  | none =>
    if frameCount.toNat = 0 then .next (landAfter Config.params ws 0 s)
    else .next (schRender Config.params ws frameCount s)

/-- R228, `RENDER frameCount WITH ws`. -/
def execRender (frameCount : Idx) (ws : List TargetWrite) (s : State) : Answer State :=
  betweenRenders .render s <|
    if !s.cfg.srSet || !s.cfg.bsSet then raise (.notConfigured .render)
    else if s.sch.blockSize.toNat < frameCount.toNat then raise (.frameCountExceedsBlockSize frameCount)
    else if frameCount.toNat = 0 then renderBlock frameCount ws s
    else match recordBeyond s.q frameCount with
      | some e => raise (.eventBeyondFrameCount e.status e.data1 e.data2 e.off)
      | none => renderBlock frameCount ws s

/-- R229, `RESET`. -/
def execReset (s : State) : Answer State := betweenRenders .reset s <| .next (voiceReset s)

/-! ### The parameter port (R230) -/

/-- R230: the checks of a smoothed parameter, which may be issued while a `RENDER` is in progress. R72 leaves open where
such a `SETP` lands. DESIGN CHOICE (log entry 23): a write that lands inside a block stands in that `RENDER`'s own list
(R228); a `SETP` presented as an item of its own lands where it is presented, between two whole `RENDER` steps, whether or
not it is marked as issued during one. -/
def setSmoothed (id : BitVec 8) (value : Num64) (next : State) : Answer State :=
  if isValue value then .next next else raise (.badOperand id value)

/-- R230: the checks of the other parameters; `present` says whether the configuration has the unit the parameter
belongs to, without which the command is ignored (R165, R193). -/
def setUnsmoothed (id : BitVec 8) (value : Num64) (present : Bool) (s next : State) : Answer State :=
  if isValue value then betweenRenders (.setp id) s (.next (if present then next else s))
  else raise (.badOperand id value)

/-- R231, `SETP CUTOFF value`. -/
def execSetpCutoff (value : Num64) (s : State) : Answer State :=
  setSmoothed 0 value (writeTarget Config.params .cutoff value s)

/-- R232, `SETP RESONANCE value`. -/
def execSetpResonance (value : Num64) (s : State) : Answer State :=
  setSmoothed 1 value (writeTarget Config.params .resonance value s)

/-- R233, `SETP ATTACK value`. -/
def execSetpAttack (value : Num64) (s : State) : Answer State :=
  setUnsmoothed 2 value Config.params.hasEnv s { s with env := envSetAttackTime (secondsOperand value) s.env }

/-- R234, `SETP DECAY value`. -/
def execSetpDecay (value : Num64) (s : State) : Answer State :=
  setUnsmoothed 3 value Config.params.hasEnv s { s with env := envSetDecayTime (secondsOperand value) s.env }

/-- R235, `SETP SUSTAIN value`. -/
def execSetpSustain (value : Num64) (s : State) : Answer State :=
  setUnsmoothed 4 value Config.params.hasEnv s
    { s with env := envSetSustainLevel (amplitudeOperand Config.params value) s.env }

/-- R236, `SETP RELEASE value`. -/
def execSetpRelease (value : Num64) (s : State) : Answer State :=
  setUnsmoothed 5 value Config.params.hasEnv s { s with env := envSetReleaseTime (secondsOperand value) s.env }

/-- R237, `SETP LFO_RATE value`; before the first `SETSR` only `lfo.freq` is written. -/
def execSetpLfoRate (value : Num64) (s : State) : Answer State :=
  setUnsmoothed 6 value Config.params.hasLfo s
    { s with lfo := if s.cfg.srSet then lfoSetFrequency value s.lfo else { s.lfo with freq := value } }

/-- R238, `SETP LFO_DEPTH value`. -/
def execSetpLfoDepth (value : Num64) (s : State) : Answer State :=
  setUnsmoothed 7 value Config.params.hasLfo s { s with lfo := lfoSetAmplitude value s.lfo }

/-- R239, `SETP ENV_ENABLE value`. -/
def execSetpEnvEnable (value : Num64) (s : State) : Answer State :=
  setUnsmoothed 8 value Config.params.hasEnv s { s with v := voiceSetEnvelopeEnabled (boolOperand value) s.v }

/-- R240, `SETP BYPASS value`. -/
def execSetpBypass (value : Num64) (s : State) : Answer State :=
  setUnsmoothed 9 value true s { s with v := voiceSetGlobalBypass (boolOperand value) s.v }

end Sys2Proof.Machine
end

