-- ==== Sys2Proof/Machine/Dispatch.lean ====
section
/-! DEFINITION. One arm per instruction. -/

namespace Sys2Proof.Machine

def exec (i : Instr) (s : State) : Host.Outcome State Fault Refusal :=
  match i with
  -- the MIDI events
  | .noteOn ch note vel off => Sys2Proof.Machine.execNoteOn ch note vel off s
  | .noteOnV0 ch note off => Sys2Proof.Machine.execNoteOnV0 ch note off s
  | .noteOff ch note vel off => Sys2Proof.Machine.execNoteOff ch note vel off s
  | .ccAllNotesOff ch value off => Sys2Proof.Machine.execCcAllNotesOff ch value off s
  | .ccOther ch controller value off => Sys2Proof.Machine.execCcOther ch controller value off s
  | .polyPressure ch d1 d2 off => Sys2Proof.Machine.execPolyPressure ch d1 d2 off s
  | .programChange ch d1 d2 off => Sys2Proof.Machine.execProgramChange ch d1 d2 off s
  | .channelPressure ch d1 d2 off => Sys2Proof.Machine.execChannelPressure ch d1 d2 off s
  | .pitchBend ch d1 d2 off => Sys2Proof.Machine.execPitchBend ch d1 d2 off s
  | .system ch d1 d2 off => Sys2Proof.Machine.execSystem ch d1 d2 off s
  | .notAStatus st ch d1 d2 off => Sys2Proof.Machine.execNotAStatus st ch d1 d2 off s
  -- the host commands
  | .setsr sr => Sys2Proof.Machine.execSetsr sr s
  | .setbs frames => Sys2Proof.Machine.execSetbs frames s
  | .enq ev off => Sys2Proof.Machine.execEnq ev off s
  | .setpCutoff value => Sys2Proof.Machine.execSetpCutoff value s
  | .setpResonance value => Sys2Proof.Machine.execSetpResonance value s
  | .setpAttack value => Sys2Proof.Machine.execSetpAttack value s
  | .setpDecay value => Sys2Proof.Machine.execSetpDecay value s
  | .setpSustain value => Sys2Proof.Machine.execSetpSustain value s
  | .setpRelease value => Sys2Proof.Machine.execSetpRelease value s
  | .setpLfoRate value => Sys2Proof.Machine.execSetpLfoRate value s
  | .setpLfoDepth value => Sys2Proof.Machine.execSetpLfoDepth value s
  | .setpEnvEnable value => Sys2Proof.Machine.execSetpEnvEnable value s
  | .setpBypass value => Sys2Proof.Machine.execSetpBypass value s
  | .render frameCount ws => Sys2Proof.Machine.execRender frameCount ws s
  | .reset => Sys2Proof.Machine.execReset s
  -- the oscillator
  | .oscSetFrequency f => Sys2Proof.Machine.execOscSetFrequency f s
  | .oscSetSampleRate sr => Sys2Proof.Machine.execOscSetSampleRate sr s
  | .oscReset => Sys2Proof.Machine.execOscReset s
  | .oscNextSample => Sys2Proof.Machine.execOscNextSample s
  -- the modulator
  | .lfoSetFrequency f => Sys2Proof.Machine.execLfoSetFrequency f s
  | .lfoSetAmplitude a => Sys2Proof.Machine.execLfoSetAmplitude a s
  | .lfoSetSampleRate sr => Sys2Proof.Machine.execLfoSetSampleRate sr s
  | .lfoReset => Sys2Proof.Machine.execLfoReset s
  | .lfoNextSample => Sys2Proof.Machine.execLfoNextSample s
  -- the filter
  | .fltSetCutoffFrequency f => Sys2Proof.Machine.execFltSetCutoffFrequency f s
  | .fltSetResonance q => Sys2Proof.Machine.execFltSetResonance q s
  | .fltSetSampleRate sr => Sys2Proof.Machine.execFltSetSampleRate sr s
  | .fltReset => Sys2Proof.Machine.execFltReset s
  | .fltUpdateCoefficients => Sys2Proof.Machine.execFltUpdateCoefficients s
  | .fltProcess x => Sys2Proof.Machine.execFltProcess x s
  -- the envelope
  | .envValue dt => Sys2Proof.Machine.execEnvValue dt s
  | .envAttack => Sys2Proof.Machine.execEnvAttack s
  | .envSetAttackTime t => Sys2Proof.Machine.execEnvSetAttackTime t s
  | .envSetDecayTime t => Sys2Proof.Machine.execEnvSetDecayTime t s
  | .envSetSustainLevel level => Sys2Proof.Machine.execEnvSetSustainLevel level s
  | .envSetReleaseTime t => Sys2Proof.Machine.execEnvSetReleaseTime t s
  -- the voice
  | .voiceProcess base n gate => Sys2Proof.Machine.execVoiceProcess base n gate s
  | .voiceReset => Sys2Proof.Machine.execVoiceReset s
  | .voiceSetEnvelopeEnabled b => Sys2Proof.Machine.execVoiceSetEnvelopeEnabled b s
  | .voiceSetGlobalBypass b => Sys2Proof.Machine.execVoiceSetGlobalBypass b s
  | .voiceSetCutoff f => Sys2Proof.Machine.execVoiceSetCutoff f s
  | .voiceSetSampleRate sr => Sys2Proof.Machine.execVoiceSetSampleRate sr s
  -- the scheduler
  | .schDrain => Sys2Proof.Machine.execSchDrain s
  | .schGate => Sys2Proof.Machine.execSchGate s
  | .schCopyChannels frameCount => Sys2Proof.Machine.execSchCopyChannels frameCount s

end Sys2Proof.Machine
end

