-- ==== Sys2Proof/Machine/Fetch.lean ====
section
/-! DEFINITION. The command port: how the next input reaches the core, and what the port decoder answers to an item that
is no instruction. -/

namespace Sys2Proof.Machine

/-- What the port decoder answers to an item that is no instruction: the faults of R104 and R262, or a refusal. -/
def rejected (e : DecodeError) : Answer State :=
  match e with
  | .badCommand hc => .fault (.badCommand hc)
  | .badParameterId id => .fault (.badParameterId id)
  | .malformedEvent ev => .refused (.malformedEvent ev)
  | .noSuchOperation uop => .refused (.noSuchOperation uop)

/-- The state in which a presented item is executed: the item has left the port, and how it was presented is known. -/
def takeItem (it : PortItem) (rest : List PortItem) (s : State) : State :=
  { s with port := { pending := rest, during := it.during } }

/-- `s` with an item presented next, before anything still pending. -/
def presentItem (it : PortItem) (s : State) : State :=
  { s with port := { s.port with pending := it :: s.port.pending } }

end Sys2Proof.Machine
end

