-- ==== Sys2Proof/Machine/Step.lean ====
section
/-! DEFINITION. One step of the machine: the next input of the command port is decoded and executed. -/

namespace Sys2Proof.Machine

/-- R8, R9: one step. After a fault no command is meaningful: the recorded fault is answered again (R37, R272). With
nothing presented the core does nothing (R275). -/
def step (s : State) : Host.Outcome State Fault Refusal :=
  match s.faults with
  | f :: _ => .fault f
  | [] =>
    match s.port.pending with
    | [] => .next s
    | it :: rest =>
      match decode it with
      | .ok i => exec i (takeItem it rest s)
      | .error e => rejected e

/-- `s` with the item of a table row's word (operands zero) presented next, between `RENDER` commands. -/
def State.withFetchWord (s : State) (nbits w : Nat) : State := presentItem (tableItem nbits w) s

end Sys2Proof.Machine
end

