-- ==== Sys2Proof/Safety.lean ====
section
/-! DEFINITION. What counts as a good run (R8, R9) and the invariants the statements speak of. -/

namespace Sys2Proof.Safety

open Sys2Proof.Machine

/-- R9, R37: one step of a trace: the next state; where a rule raises a fault, the state with the fault recorded; where
the input is refused, nothing. -/
def traceStep (s : State) : Option State :=
  match step s with
  | .next t => some t
  | .fault f => some (recordFault f s)
  | .refused _ => none

/-- R9: the trace of at most `k` steps from `s`, while inputs are presented. -/
def traceEnd : Nat → State → Option State
  | 0, s => some s
  | k + 1, s => if s.port.pending.isEmpty then some s else (traceStep s).bind (traceEnd k)

/-- R9: a run ends well when every input has been taken, no fault is recorded and no refusal happened. -/
def endsWell (k : Nat) (s : State) : Bool :=
  match traceEnd k s with
  | some t => t.faults.isEmpty && t.port.pending.isEmpty
  | none => false

/-- What every step keeps: the output memory in canonical form, the queue ordered and within its capacity (R64, R227),
no call of `VOICE.Process` in progress between steps (R28). -/
structure Inv (s : State) : Prop where
  memory : s.out.wf
  queue : s.q.wf
  index : s.sch.i = 0

/-- R34: the registers derived from the sample rate agree with it and with each other. -/
structure Derived (P : Params) (s : State) : Prop where
  oscRate : s.osc.sr = s.v.sr
  lfoRate : s.lfo.sr = s.v.sr
  lfoSet : s.lfo.srSet = true
  fltRate : s.flt.sr = s.v.sr
  oscInc : s.osc.inc = fdiv s.osc.freq s.osc.sr
  lfoInc : s.lfo.inc = fdiv s.lfo.freq s.lfo.sr
  factor : s.flt.k = P.smoothK s.flt.sr
  bank : s.flt.bank = coefsOf P (cutoffAngle s.flt.cutCur s.flt.sr) s.flt.resCur

/-- R34, as a step keeps it: nothing is claimed before the first `SETSR`. -/
def DerivedInv (s : State) : Prop := s.cfg.srSet = true → Derived Config.params s

/-- R35, R276: the clock is 0 or negative, and the sample rate it is divided by is one `SETSR` takes. -/
structure ClockInv (s : State) : Prop where
  clock : numLe s.v.noteOnTime zeroNum = true
  rate : s.cfg.srSet = true → isSampleRate s.v.sr = true

/-- A word of level E or level H (R7): what a host presents. The unit operations are invoked by the core alone. -/
def fromHost : CmdWord → Bool
  | .ev _ => true
  | .hc _ => true
  | .uop _ => false

/-- R35: a phase in `[0, 1)`. -/
def phaseOk (p : Num64) : Bool := numLe zeroNum p && numLt p oneNum

/-- R154: an increment the phase invariant is claimed for: finite and not negative. -/
def incOk (d : Num64) : Bool := isFinite d && numLe zeroNum d

/-- R201: five finite coefficients. -/
def finiteBank (c : Coefs) : Bool := isFinite c.b0 && isFinite c.b1 && isFinite c.b2 && isFinite c.a1 && isFinite c.a2

/-- R201: a filter history settled to zero. -/
def zeroHistory (t : Flt) : Bool := isZero t.x1 && isZero t.x2 && isZero t.y1 && isZero t.y2

/-! ### Rounding (R125) -/

/-- R125: `z` is the exact value `exact / scale` units, rounded: infinite exactly at and above half a last place beyond
the largest finite number, otherwise at least as near as every finite `w`, and even in its last place where another is
as near. -/
def roundedFrom (exact : Int) (scale : Nat) (z : Num64) : Prop :=
  isNaN z = false ∧ (isFinite z = true ↔ |exact| < (2 ^ 54 - 1) * 2 ^ 2044 * scale) ∧
    (isFinite z = true → ∀ w, isFinite w = true →
      |valueOf z * scale - exact| ≤ |valueOf w * scale - exact| ∧
      (valueOf w ≠ valueOf z → |valueOf z * scale - exact| = |valueOf w * scale - exact| → fracField z % 2 = 0))

/-! ### The partition of a block (R217) -/

/-- R217: one sub-block run: the records at its first frame are applied in arrival order, then the frames from `a` up to
`b` are rendered with the gate as it then stands. -/
def renderRun (P : Params) (ws : List TargetWrite) (recs : List EventRec) (a b : Idx) (s : State) : State :=
  let d := (recs.filter fun e => decide (e.off = a)).foldl (fun s e => applyEvent P e s) s
  voiceProcess P ws a (b - a) (gateOf P d.v) d

/-- R217: the runs that start at `a` and at the offsets of `later`, the last one up to `frameCount`. -/
def renderRuns (P : Params) (ws : List TargetWrite) (recs : List EventRec) (frameCount : Idx) :
    Idx → List Idx → State → State
  | a, [], s => renderRun P ws recs a frameCount s
  | a, b :: later, s => renderRuns P ws recs frameCount b later (renderRun P ws recs a b s)

/-- R217: `later` is `t_1 < t_2 < .. < t_m`, the distinct offsets above 0. -/
def offsetsAbove0 (recs : List EventRec) (later : List Idx) : Prop :=
  later.Pairwise (fun x y => x.toNat < y.toNat) ∧ ∀ x, x ∈ later ↔ 0 < x.toNat ∧ ∃ e ∈ recs, e.off = x

/-- R228: what a `RENDER` needs to pass its entry checks and its concurrent writes theirs. -/
structure RenderReady (frameCount : Idx) (ws : List TargetWrite) (s : State) : Prop where
  between : s.port.during = false
  rate : s.cfg.srSet = true
  block : s.cfg.bsSet = true
  fits : frameCount.toNat ≤ s.sch.blockSize.toNat
  reached : 0 < frameCount.toNat → ∀ e ∈ s.q.recs, e.off.toNat < frameCount.toNat
  values : ∀ w ∈ ws, isValue w.value = true

end Sys2Proof.Safety
end

