-- ==== Sys2Proof/Certificates/Slice0/Obligations.lean ====
section
/-! DEFINITION. The statements about the model. `P` in a statement is a configuration; the machine runs with
`Config.params`, whose OPEN rows are opaque. -/

section Slice0Statements

open Sys2Proof Sys2Proof.Machine Sys2Proof.Safety

/-! ### Encoding and the port -/

/-- R91, R93, R96 to R98, R103: decoding the words the encoder writes gives the instruction back, with every operand
it admits. The operand slots are the model's own (log entry 3). The spec marks as its own: R91 (D35, derived, general
knowledge), R93 (D9, general knowledge), R96 (D11), R97 (D11), R98 (D11), R103 (D12). -/
def Obligations.DecodeOfEncodeIsTheInstruction : Prop :=
  ∀ i : Instr, i.wellFormed = true → decode (encode i) = .ok i

/-- R94: a word with clear reserved bits decodes to an event whose row it matches, and every other row it matches
fixes fewer bits. The clauses for statuses 0x9 and 0xB are the tests on `data2` and `data1`. The spec marks as its
own: R94 (derived). -/
def Obligations.EventWordDecodesToExactlyOneRow : Prop :=
  ∀ (w : BitVec 24) (off : Idx) (during : Bool), evReserved15 w = false → evReserved7 w = false →
    ∃ i, decode { word := .ev w, operands := [idxSlot off], during := during } = .ok i ∧
      rowOf i ∈ eventRows ∧ (rowOf i).holds (.ev w) ∧
      (∀ r ∈ eventRows, r.holds (.ev w) → r ≠ rowOf i → r.fixedBits < (rowOf i).fixedBits) ∧
      (evStatus w = 0x9 → (i = .noteOnV0 (evChannel w) (evData1 w) off ↔ evData2 w = 0) ∧
        (i = .noteOn (evChannel w) (evData1 w) (evData2 w) off ↔ evData2 w ≠ 0)) ∧
      (evStatus w = 0xB → (i = .ccAllNotesOff (evChannel w) (evData2 w) off ↔ evData1 w = 123) ∧
        (i = .ccOther (evChannel w) (evData1 w) (evData2 w) off ↔ evData1 w ≠ 123))

/-- R104, R95, R262: what the port decoder answers to the words that no row has; a word that a row has is never turned
away, whatever stands in its operand slots (log entry 3). The two refusals are log entries 15 and 21. The spec marks
as its own: R95 (D10), R104 (D10, D22, D30), R262 (D22). -/
def Obligations.WordsOutsideTheTableAreRejected : Prop :=
  ∀ (s : State) (it : PortItem) (rest : List PortItem), s.faults = [] → s.port.pending = it :: rest →
    (∀ w, it.word = .hc w →
      (¬(1 ≤ (hcCmd w).toNat ∧ (hcCmd w).toNat ≤ 6) ∨ (hcCmd w ≠ 0x04 ∧ hcSub w ≠ 0)) →
      step s = .fault (.badCommand w)) ∧
    (∀ w, it.word = .hc w → hcCmd w = 0x04 → 10 ≤ (hcSub w).toNat → step s = .fault (.badParameterId (hcSub w))) ∧
    (∀ w, it.word = .ev w → (evReserved15 w = true ∨ evReserved7 w = true) → step s = .refused (.malformedEvent w)) ∧
    (∀ w : BitVec 8, it.word = .uop w → (∀ i : Instr, rowOf i ≠ uopRow w.toNat) →
      step s = .refused (.noSuchOperation w)) ∧
    (∀ i : Instr, i.wellFormed = true → it.word = (encode i).word → ∃ j, decode it = .ok j ∧ rowOf j = rowOf i)

/-- R107 and one selector of each unit: words written out from the tables decode to the instructions they stand for.
The spec marks as its own: R107 (derived). -/
def Obligations.SampleWordsDecode : Prop :=
  decode { word := .ev 0x904564, operands := [0], during := false } = .ok (.noteOn 0 69 100 0) ∧
    decode { word := .ev 0x804500, operands := [12], during := false } = .ok (.noteOff 0 69 0 12) ∧
    decode { word := .ev 0x904500, operands := [4], during := false } = .ok (.noteOnV0 0 69 4) ∧
    decode { word := .ev 0xB37B00, operands := [8], during := false } = .ok (.ccAllNotesOff 3 0 8) ∧
    decode { word := .ev 0xE00040, operands := [3], during := false } = .ok (.pitchBend 0 0 64 3) ∧
    decode { word := .hc 0x0100, operands := [0x40E5888000000000], during := false } =
      .ok (.setsr 0x40E5888000000000) ∧
    decode { word := .hc 0x0300, operands := [0x904564, 0], during := false } = .ok (.enq 0x904564 0) ∧
    decode { word := .hc 0x0404, operands := [0xC018000000000000], during := false } =
      .ok (.setpSustain 0xC018000000000000) ∧
    decode { word := .hc 0x0500, operands := [100], during := false } = .ok (.render 100 []) ∧
    decode { word := .uop 0x13, operands := [], during := false } = .ok .oscNextSample ∧
    decode { word := .uop 0x24, operands := [], during := false } = .ok .lfoNextSample ∧
    decode { word := .uop 0x34, operands := [], during := false } = .ok .fltUpdateCoefficients ∧
    decode { word := .uop 0x41, operands := [], during := false } = .ok .envAttack ∧
    decode { word := .uop 0x50, operands := [10, 20, 1], during := false } = .ok (.voiceProcess 10 20 true) ∧
    decode { word := .uop 0x61, operands := [], during := false } = .ok .schGate

/-- R8, R275: a step decodes the next presented item and executes it in the state in which the item has left the port.
The port is the model's own (log entry 2). The spec marks as its own: R8 (D22). -/
def Obligations.StepRunsThePresentedInstruction : Prop :=
  ∀ s : State, s.faults = [] →
    (s.port.pending = [] → step s = .next s) ∧
    (∀ it rest i, s.port.pending = it :: rest → decode it = .ok i →
      step s = exec i { s with port := { pending := rest, during := it.during } }) ∧
    (∀ it rest e, s.port.pending = it :: rest → decode it = .error e → step s = rejected e)

/-- R93, R94, R228: the decoder gives only instructions whose operands keep what the spec promises of them. A place
beyond the block becomes one within it (log entry 12). The spec marks as its own: R93 (D9, general knowledge), R94
(derived), R228 (D25, D23, D24, D39). -/
def Obligations.DecodedInstructionsAreWellFormed : Prop :=
  ∀ (it : PortItem) (i : Instr), decode it = .ok i → i.wellFormed = true

/-! ### The oscillator and the modulator -/

/-- R150, R151, R152: the setters and the reset of the oscillator, and that they write nothing else. The spec marks as
its own: R152 (D18). -/
def Obligations.OscillatorSettersWrite : Prop :=
  ∀ s : State,
    (∀ f, exec (.oscSetFrequency f) s = .next { s with osc := { s.osc with freq := f, inc := fdiv f s.osc.sr } }) ∧
    (∀ r, exec (.oscSetSampleRate r) s = .next { s with osc := { s.osc with sr := r, inc := fdiv s.osc.freq r } }) ∧
    exec .oscReset s = .next { s with osc := { s.osc with phase := zeroNum } }

/-- R153, R155: the sample is the corrected sawtooth at the phase before it advances; the phase advances and wraps.
With a NaN or an infinity in either register the sample and the new phase are a NaN (log entry 24). The spec marks as
its own: R153 (D2, general knowledge), R155 (derived). -/
def Obligations.OscillatorNextSample : Prop :=
  ∀ s : State, ∃ y,
    exec .oscNextSample s =
      .next { s with
        osc := { s.osc with phase := fsub (fadd s.osc.phase s.osc.inc) (floorNum (fadd s.osc.phase s.osc.inc)) }
        res := { s.res with num := y } } ∧
    (let p := s.osc.phase
     let d := s.osc.inc
     let v := fsub (fmul twoNum p) oneNum
     (isFinite p = true → isFinite d = true →
       (numLt p d = true →
         let u := fdiv p d
         y = fsub v (fsub (fsub (fadd u u) (fmul u u)) oneNum)) ∧
       (numLt p d = false → numLt (fsub oneNum d) p = true →
         let u := fdiv (fsub p oneNum) d
         y = fsub v (fadd (fadd (fadd (fmul u u) u) u) oneNum)) ∧
       (numLt p d = false → numLt (fsub oneNum d) p = false → y = v)) ∧
     (isFinite p = false ∨ isFinite d = false →
       isNaN y = true ∧ isNaN (fsub (fadd p d) (floorNum (fadd p d))) = true))

/-- R160 to R164: the modulator's setters, its reset and its sample, which is taken from the phase before it advances.
While the modulator's rate is unset (`lfo.srSet`) a frequency is only kept (log entry 16). The spec marks as its own:
R160 (D16), R162 (D16), R163 (D18), R164 (derived). -/
def Obligations.ModulatorOperationsWrite : Prop :=
  ∀ s : State,
    (∀ f, s.lfo.srSet = true →
      exec (.lfoSetFrequency f) s = .next { s with lfo := { s.lfo with freq := f, inc := fdiv f s.lfo.sr } }) ∧
    (∀ f, s.lfo.srSet = false → exec (.lfoSetFrequency f) s = .next { s with lfo := { s.lfo with freq := f } }) ∧
    (∀ a, exec (.lfoSetAmplitude a) s = .next { s with lfo := { s.lfo with amp := a } }) ∧
    (∀ r, exec (.lfoSetSampleRate r) s =
      .next { s with lfo := { s.lfo with sr := r, srSet := true, inc := fdiv s.lfo.freq r } }) ∧
    exec .lfoReset s = .next { s with lfo := { s.lfo with phase := zeroNum } } ∧
    exec .lfoNextSample s =
      .next { s with
        lfo := { s.lfo with phase := fsub (fadd s.lfo.phase s.lfo.inc) (floorNum (fadd s.lfo.phase s.lfo.inc)) }
        res := { s.res with num := fmul s.lfo.amp (Config.sin (fmul twoPiNum s.lfo.phase)) } }

/-- R154, R35: with a phase in `[0, 1)` and a finite increment of 0 or more, the next phase is in `[0, 1)`. Binary64
is log entry 10. The spec marks as its own: R35 (derived), R154 (derived). -/
def Obligations.NextSampleKeepsThePhase : Prop :=
  ∀ s : State,
    (phaseOk s.osc.phase = true → incOk s.osc.inc = true →
      ∃ t, exec .oscNextSample s = .next t ∧ phaseOk t.osc.phase = true) ∧
    (phaseOk s.lfo.phase = true → incOk s.lfo.inc = true →
      ∃ t, exec .lfoNextSample s = .next t ∧ phaseOk t.lfo.phase = true)

/-- R35, R154: a whole block keeps both phases in `[0, 1)`, for every configuration in which a note's frequency gives
a finite increment of 0 or more. Binary64 is log entry 10. The spec marks as its own: R35 (derived), R154 (derived).
-/
def Obligations.RenderKeepsThePhases : Prop :=
  ∀ (P : Params) (ws : List TargetWrite) (frameCount : Idx) (s : State),
    (∀ note, incOk (fdiv (noteFreq P note) s.osc.sr) = true) →
    incOk s.osc.inc = true → incOk s.lfo.inc = true →
    phaseOk s.osc.phase = true → phaseOk s.lfo.phase = true →
    phaseOk (schRender P ws frameCount s).osc.phase = true ∧ phaseOk (schRender P ws frameCount s).lfo.phase = true

/-! ### The filter -/

/-- R170 to R174: the setters of the two parameters write a target only, the reset the history only; the update writes
the five coefficients, from the current values and the sample rate; a sample rate gives the smoothing factor, which is
above 0 and at most 1 (log entry 9), and a new bank. The spec marks as its own: R172 (D5, D17, general knowledge),
R174 (D4, general knowledge). -/
def Obligations.FilterSettersWrite : Prop :=
  ∀ s : State,
    (∀ f, exec (.fltSetCutoffFrequency f) s = .next { s with flt := { s.flt with cutTgt := f } }) ∧
    (∀ q, exec (.fltSetResonance q) s = .next { s with flt := { s.flt with resTgt := q } }) ∧
    exec .fltReset s =
      .next { s with flt := { s.flt with x1 := zeroNum, x2 := zeroNum, y1 := zeroNum, y2 := zeroNum } } ∧
    (let w := clampNum (fdiv (fmul twoPiNum s.flt.cutCur) s.flt.sr) zeroNum wMaxNum
     let cs := Config.cos w
     let alpha := fdiv (Config.sin w) (fmul twoNum s.flt.resCur)
     let a0 := fadd oneNum alpha
     exec .fltUpdateCoefficients s =
       .next { s with
         flt := { s.flt with
           bank := {
             b0 := fdiv (fmul (fsub oneNum cs) halfNum) a0
             b1 := fdiv (fsub oneNum cs) a0
             b2 := fdiv (fmul (fsub oneNum cs) halfNum) a0
             a1 := fdiv (fmul minusTwoNum cs) a0
             a2 := fdiv (fsub oneNum alpha) a0 } } }) ∧
    (∀ r, exec (.fltSetSampleRate r) s =
      .next { s with
        flt := { s.flt with
          sr := r
          k := Config.smoothK r
          bank := coefsOf Config.params (cutoffAngle s.flt.cutCur r) s.flt.resCur } }) ∧
    ∀ r, numLt zeroNum (Config.smoothK r) = true ∧ numLe (Config.smoothK r) oneNum = true

/-- R175, R176: one sample through the filter: a smoothing step of both parameters and an update of the bank where a
current value differs from its target, then the difference equation, then the histories. The spec marks as its own:
R176 (D4, general knowledge). -/
def Obligations.FilterProcessesOneSample : Prop :=
  ∀ (x : Num64) (s : State), ∃ (f : Flt) (y : Num64),
    exec (.fltProcess x) s =
      .next { s with
        flt := { f with x1 := x, x2 := s.flt.x1, y1 := y, y2 := s.flt.y1 }
        res := { s.res with num := y } } ∧
    y = fsub (fsub (fadd (fadd (fmul f.bank.b0 x) (fmul f.bank.b1 s.flt.x1)) (fmul f.bank.b2 s.flt.x2))
        (fmul f.bank.a1 s.flt.y1)) (fmul f.bank.a2 s.flt.y2) ∧
    (numEq s.flt.cutCur s.flt.cutTgt = true → numEq s.flt.resCur s.flt.resTgt = true → f = s.flt) ∧
    (numEq s.flt.cutCur s.flt.cutTgt = false ∨ numEq s.flt.resCur s.flt.resTgt = false →
      let c := fadd s.flt.cutCur (fmul (fsub s.flt.cutTgt s.flt.cutCur) s.flt.k)
      let q := fadd s.flt.resCur (fmul (fsub s.flt.resTgt s.flt.resCur) s.flt.k)
      f = { s.flt with cutCur := c, resCur := q, bank := coefsOf Config.params (cutoffAngle c s.flt.sr) q })

/-- R129, R174: the cutoff angle is in `[0, W_MAX]`, whatever the cutoff and the sample rate, unless their quotient is
a NaN, which passes unchanged. The spec marks as its own: R129 (D34), R174 (D4, general knowledge). -/
def Obligations.CutoffAngleIsClamped : Prop :=
  ∀ cut sr : Num64,
    let w := fdiv (fmul twoPiNum cut) sr
    (isNaN w = true → cutoffAngle cut sr = w) ∧
    (isNaN w = false → numLe zeroNum (cutoffAngle cut sr) = true ∧ numLe (cutoffAngle cut sr) wMaxNum = true)

/-- R177, "zero input, zero history": a settled filter with finite coefficients answers a zero and keeps a zero
history. The spec marks as its own: R177 (derived, general knowledge). -/
def Obligations.SilenceThroughASettledFilter : Prop :=
  ∀ (x : Num64) (s : State), isZero x = true → zeroHistory s.flt = true → finiteBank s.flt.bank = true →
    numEq s.flt.cutCur s.flt.cutTgt = true → numEq s.flt.resCur s.flt.resTgt = true →
    ∃ t, exec (.fltProcess x) s = .next t ∧ isZero t.res.num = true ∧ zeroHistory t.flt = true

/-! ### The envelope -/

/-- R185: the four stages. Nothing but the returned value is written, and the held note is not read (R192). The minus
sign reverses the sign (log entry 8). The spec marks as its own: R185 (D7, derived), R192 (D31). -/
def Obligations.EnvelopeStages : Prop :=
  ∀ (dt : Num64) (s : State), ∃ g,
    exec (.envValue dt) s = .next { s with res := { s.res with num := g } } ∧
    (s.v.envEnabled = false → g = oneNum) ∧
    (s.v.envEnabled = true → numLt dt s.env.attack = true → g = fdiv dt s.env.attack) ∧
    (s.v.envEnabled = true → numLt dt s.env.attack = false → numLt dt (fadd s.env.attack s.env.decay) = true →
      g = fsub oneNum (fdiv (fmul (fsub oneNum s.env.sustain) (fsub dt s.env.attack)) s.env.decay)) ∧
    (s.v.envEnabled = true → numLt dt s.env.attack = false → numLt dt (fadd s.env.attack s.env.decay) = false →
      g = fmul s.env.sustain
        (Config.exp (fdiv (fneg (fsub (fsub dt s.env.attack) s.env.decay)) s.env.release)))

/-- R186 to R190: the clock restarts, and each parameter is stored as given. -/
def Obligations.EnvelopeSettersWrite : Prop :=
  ∀ s : State,
    exec .envAttack s = .next { s with v := { s.v with noteOnTime := zeroNum } } ∧
    (∀ t, exec (.envSetAttackTime t) s = .next { s with env := { s.env with attack := t } }) ∧
    (∀ t, exec (.envSetDecayTime t) s = .next { s with env := { s.env with decay := t } }) ∧
    (∀ l, exec (.envSetSustainLevel l) s = .next { s with env := { s.env with sustain := l } }) ∧
    (∀ t, exec (.envSetReleaseTime t) s = .next { s with env := { s.env with release := t } })

/-- R191, "a note starts from silence": with the envelope enabled and an attack time above 0, the gain at `dt = 0` is
`+0`. The spec marks as its own: R191 (D8, derived). -/
def Obligations.NoteStartsFromSilence : Prop :=
  ∀ s : State, s.v.envEnabled = true → numLt zeroNum s.env.attack = true →
    exec (.envValue zeroNum) s = .next { s with res := { s.res with num := zeroNum } }

/-! ### The voice -/

/-- R196 to R199: the voice's reset and its setters. Enabling the envelope restarts the clock on a transition with a
note held. The spec marks as its own: R196 (D18), R199 (D15). -/
def Obligations.VoiceSettersWrite : Prop :=
  ∀ s : State,
    (∀ b, (b = true ∧ s.v.envEnabled = false ∧ s.v.heldNote ≠ none) →
      exec (.voiceSetEnvelopeEnabled b) s =
        .next { s with v := { s.v with envEnabled := b, noteOnTime := zeroNum } }) ∧
    (∀ b, ¬(b = true ∧ s.v.envEnabled = false ∧ s.v.heldNote ≠ none) →
      exec (.voiceSetEnvelopeEnabled b) s = .next { s with v := { s.v with envEnabled := b } }) ∧
    (∀ b, exec (.voiceSetGlobalBypass b) s = .next { s with v := { s.v with bypass := b } }) ∧
    (∀ f, exec (.voiceSetCutoff f) s =
      .next { s with v := { s.v with baseCut := f }, flt := { s.flt with cutTgt := f } }) ∧
    exec .voiceReset s =
      .next { s with
        osc := { s.osc with phase := zeroNum }
        flt := { s.flt with x1 := zeroNum, x2 := zeroNum, y1 := zeroNum, y2 := zeroNum }
        v := { s.v with noteOnTime := zeroNum } }

/-- R303: the state after `RESET` (presented between `RENDER` commands) is the state before it with the phase, the
filter history and the clock 0, and nothing else changed. -/
def Obligations.TransportResetWrites : Prop :=
  ∀ s : State, s.port.during = false →
    exec .reset s =
      .next { s with
        osc := { s.osc with phase := zeroNum }
        flt := { s.flt with x1 := zeroNum, x2 := zeroNum, y1 := zeroNum, y2 := zeroNum }
        v := { s.v with noteOnTime := zeroNum } }

/-- R304, R200: the state after a sample-rate change. That the rate then counts as set is `lfo.srSet` (log entry 16).
The spec marks as its own: R200 (D16, D17), R304 (derived). -/
def Obligations.SampleRateChangeWrites : Prop :=
  ∀ (r : Num64) (s : State),
    let t := { s with
      osc := { s.osc with sr := r, inc := fdiv s.osc.freq r, phase := zeroNum }
      lfo := { s.lfo with sr := r, srSet := true, inc := fdiv s.lfo.freq r }
      flt := { s.flt with
        sr := r
        k := Config.smoothK r
        bank := coefsOf Config.params (cutoffAngle s.flt.cutCur r) s.flt.resCur
        x1 := zeroNum
        x2 := zeroNum
        y1 := zeroNum
        y2 := zeroNum }
      v := { s.v with sr := r, noteOnTime := zeroNum } }
    exec (.voiceSetSampleRate r) s = .next t ∧
    (s.port.during = false → isFinite r = true → numLt zeroNum r = true →
      exec (.setsr r) s = .next { t with cfg := { s.cfg with srSet := true } })

/-- R195, R6: a call is `n` frames one after another, frame `k` with the time `k / v.sr`, and one fall of the clock.
The state between two frames is `u k`. The headroom factor is above 0 and at most 1 (log entry 9). Frame `k` is
written at `base + k`; beyond 32 bits the index is free (log entry 25). The index is 0 afterwards (log entry 15). The
spec marks as its own: R195 (D26, D1, D6, D15, derived). -/
def Obligations.VoiceProcessIsFrameByFrame : Prop :=
  (numLt zeroNum Config.headroom = true ∧ numLe Config.headroom oneNum = true) ∧
  ∀ (base n : Idx) (gate : Bool) (s : State), ∃ u : Nat → State,
    u 0 = s ∧
    (∀ k, base.toNat + k < 2 ^ 32 → frameIndex base.toNat k = base.toNat + k) ∧
    (∀ k, k < n.toNat →
      let a := u k
      let g := envGain Config.params a.v.envEnabled a.env (fsub (fdiv (toNum k) a.v.sr) a.v.noteOnTime)
      let x := if gate then fmul (fmul (sawSample a.osc.phase a.osc.inc) g) Config.headroom else zeroNum
      let m := fmul a.lfo.amp (Config.sin (fmul twoPiNum a.lfo.phase))
      let f := { a.flt with cutTgt := fadd a.v.baseCut m }
      u (k + 1) = { a with
        osc := { a.osc with phase := wrapNum (fadd a.osc.phase a.osc.inc) }
        lfo := { a.lfo with phase := wrapNum (fadd a.lfo.phase a.lfo.inc) }
        flt := fltAdvance Config.params x f
        out := memWrite a.out .first (frameIndex base.toNat k) (fltSample Config.params x f) }) ∧
    exec (.voiceProcess base n gate) s =
      .next { u n.toNat with
        v := { (u n.toNat).v with noteOnTime := fsub s.v.noteOnTime (fdiv (toNum n.toNat) s.v.sr) }
        sch := { s.sch with i := 0 } }

/-- R195, R62: the frame of `VOICE.Process`: the words of `OUT[0]` at the indexes of its frames, `base + k`, are
written and hold a value, every other word of `OUT` reads as before, and outside the two phases, the filter and the
clock nothing changes. Beyond 32 bits an index is free (log entry 25). The index is 0 afterwards (log entry 15). The
spec marks as its own: R62 (derived), R195 (D26, D1, D6, D15, derived). -/
def Obligations.VoiceProcessFrame : Prop :=
  ∀ (base n : Idx) (gate : Bool) (s : State), ∃ t,
    exec (.voiceProcess base n gate) s = .next t ∧
    (∀ k, base.toNat + k < 2 ^ 32 → frameIndex base.toNat k = base.toNat + k) ∧
    (∀ k, k < n.toNat → (memRead t.out .first (frameIndex base.toNat k)).isSome = true) ∧
    (∀ a, (∀ k, k < n.toNat → a ≠ frameIndex base.toNat k) → memRead t.out .first a = memRead s.out .first a) ∧
    (∀ k, memRead t.out .second k = memRead s.out .second k) ∧
    t = { s with
      osc := { s.osc with phase := t.osc.phase }
      lfo := { s.lfo with phase := t.lfo.phase }
      flt := { t.flt with resTgt := s.flt.resTgt, k := s.flt.k, sr := s.flt.sr }
      v := { s.v with noteOnTime := fsub s.v.noteOnTime (fdiv (toNum n.toNat) s.v.sr) }
      sch := { s.sch with i := 0 }
      out := t.out }

/-- R195, R201: with a closed gate, what a call writes to the output and to the filter does not depend on the
oscillator, the envelope, its flag, the held note, the clock or the headroom. The spec marks as its own: R195 (D26,
D1, D6, D15, derived), R201 (derived). -/
def Obligations.ClosedGateHidesTheOscillator : Prop :=
  ∀ (P : Params) (h : Num64) (ws : List TargetWrite) (base n : Idx) (s s' : State),
    s'.lfo = s.lfo → s'.flt = s.flt → s'.out = s.out → s'.v.baseCut = s.v.baseCut →
    (voiceProcess { P with headroom := h } ws base n false s').out = (voiceProcess P ws base n false s).out ∧
    (voiceProcess { P with headroom := h } ws base n false s').flt = (voiceProcess P ws base n false s).flt

/-- R201, gate silence: with a closed gate, a zero history and, at every frame, five finite coefficients, every word
the call writes is a zero and the history stays zero, whatever target writes land within it. `P` ranges over
configurations; `a` is the state in which frame `k` is computed. The target writes are log entry 11; beyond 32 bits a
frame's index is free (log entry 25). The spec marks as its own: R201 (derived). -/
def Obligations.ClosedGateIsSilent : Prop :=
  ∀ (P : Params) (ws : List TargetWrite) (base n : Idx) (s : State),
    P.hasFilter = true → zeroHistory s.flt = true →
    (∀ k, k < n.toNat →
      let a := landBefore P ws (base.toNat + k)
        (voiceFrames P ws base.toNat false k { s with sch := { s.sch with i := 0 } })
      finiteBank (fltAdopt P (voiceFilter P a)).bank = true) →
    let t := voiceProcess P ws base n false s
    zeroHistory t.flt = true ∧
    ∀ k, k < n.toNat → ∃ y, memRead t.out .first (frameIndex base.toNat k) = some y ∧ isZero y = true

/-- R201, the split of a call: the two parts end with the same oscillator and modulator as the whole; with the
envelope bypassed also with the same filter and the same output. The spec marks as its own: R201 (derived). -/
def Obligations.SplitCallsAgree : Prop :=
  ∀ (P : Params) (ws : List TargetWrite) (base k m : Idx) (gate : Bool) (s : State),
    base.toNat + k.toNat + m.toNat < 2 ^ 32 →
    let whole := voiceProcess P ws base (k + m) gate s
    let parts := voiceProcess P ws (base + k) m gate (voiceProcess P ws base k gate s)
    parts.osc = whole.osc ∧ parts.lfo = whole.lfo ∧
    (envelopeOn P s.v = false →
      parts.flt = whole.flt ∧ parts.out = whole.out ∧
      parts = { whole with v := { whole.v with noteOnTime := parts.v.noteOnTime } })

/-! ### The events -/

/-- R208, R215: `NOTE_ON` sets the frequency of its note, holds the note and restarts the clock, whatever the channel,
the velocity and the offset; it writes nothing else. The spec marks as its own: R208 (D36). -/
def Obligations.NoteOnWrites : Prop :=
  ∀ (ch : BitVec 4) (note vel : Data7) (off : Idx) (s : State),
    let f := fmul a4Hz (Config.pow2 (fdiv (toNum ((note.toNat : Int) - 69)) twelveNum))
    exec (.noteOn ch note vel off) s =
      .next { s with
        osc := { s.osc with freq := f, inc := fdiv f s.osc.sr }
        v := { s.v with heldNote := some note, noteOnTime := zeroNum } }

/-- R124, R209, R210: a note-off of either spelling compares its note with the held note as integers, `-1` for none;
it clears the held note on a match and otherwise changes nothing; with no note held no note matches. The spec marks as
its own: R124 (derived), R210 (D36). -/
def Obligations.NoteOffComparesWithTheHeldNote : Prop :=
  ∀ (ch : BitVec 4) (note vel : Data7) (off : Idx) (s : State),
    let held : Int := match s.v.heldNote with
      | some n => n.toNat
      | none => -1
    (∀ i, i = .noteOff ch note vel off ∨ i = .noteOnV0 ch note off →
      ((note.toNat : Int) = held → exec i s = .next { s with v := { s.v with heldNote := none } }) ∧
      ((note.toNat : Int) ≠ held → exec i s = .next s)) ∧
    (held = -1 → (note.toNat : Int) ≠ held)

/-- R211, R213, R214: all notes off clears the held note, unconditionally, and nothing else; the ignored events change
nothing. The spec marks as its own: R211 (general knowledge), R213 (derived). -/
def Obligations.AllNotesOffAndIgnoredEvents : Prop :=
  ∀ (st : BitVec 3) (ch : BitVec 4) (d1 d2 : Data7) (off : Idx) (s : State),
    exec (.ccAllNotesOff ch d2 off) s = .next { s with v := { s.v with heldNote := none } } ∧
    exec (.ccOther ch d1 d2 off) s = .next s ∧ exec (.polyPressure ch d1 d2 off) s = .next s ∧
    exec (.programChange ch d1 d2 off) s = .next s ∧ exec (.channelPressure ch d1 d2 off) s = .next s ∧
    exec (.pitchBend ch d1 d2 off) s = .next s ∧ exec (.system ch d1 d2 off) s = .next s ∧
    exec (.notAStatus st ch d1 d2 off) s = .next s

/-- R207: the record `ENQ` stores of an event word does, when it is drained, what the word's instruction does. The
spec marks as its own: R207 (D9, general knowledge). -/
def Obligations.DrainedRecordsActAsTheirWords : Prop :=
  ∀ (w : BitVec 24) (off : Idx) (s : State), evReserved15 w = false → evReserved7 w = false →
    exec (decodeEvent w off) s = .next (applyEvent Config.params (recordOf w off) s)

/-! ### The scheduler -/

/-- R206: the drain pops and applies, in order, the records at the head whose offset is reached, and stops at the
first that is not. The spec marks as its own: R206 (D21). -/
def Obligations.DrainTakesTheRecordsThatAreDue : Prop :=
  ∀ s : State,
    let due := fun e : EventRec => decide (e.off.toNat ≤ s.sch.offset.toNat)
    exec .schDrain s =
      .next { (s.q.recs.takeWhile due).foldl (fun s e => applyEvent Config.params e s) s with
        q := { s.q with recs := s.q.recs.dropWhile due } }

/-- R212: the gate's truth table; nothing but the returned value is written. -/
def Obligations.GateTruthTable : Prop :=
  ∀ s : State, ∃ g,
    exec .schGate s = .next { s with res := { s.res with flag := g } } ∧
    (s.v.bypass = true → g = false) ∧
    (s.v.bypass = false → s.v.heldNote ≠ none → g = true) ∧
    (s.v.bypass = false → s.v.envEnabled = true → g = true) ∧
    (s.v.bypass = false → s.v.heldNote = none → s.v.envEnabled = false → g = false)

/-- R216: with two channels the words of the second below `frameCount` become those of the first, bit for bit, and no
other word changes; with one channel nothing does. A poisoned word is copied as poisoned (log entry 13). The spec
marks as its own: R216 (D29). -/
def Obligations.CopyChannelsCopies : Prop :=
  ∀ (frameCount : Idx) (s : State), ∃ m,
    exec (.schCopyChannels frameCount) s = .next { s with out := m } ∧
    (∀ n, memRead m .first n = memRead s.out .first n) ∧
    ∀ n, memRead m .second n =
      match Config.nch with
      | .mono => memRead s.out .second n
      | .stereo => if n < frameCount.toNat then memRead s.out .first n else memRead s.out .second n

/-- R217, R205: the partition of a block. A `RENDER` of at least one frame, with a sorted queue, is exactly the runs
that start at 0 and at the distinct offsets above 0, each after the records at its start are applied; then the channel
copy and the writes placed after the last frame. The queue is left empty. What `OUT` held before is poisoned (R63, log
entry 13). The target writes are log entry 11, the index after the block log entry 15. The spec marks as its own: R63
(derived), R205 (D21, derived), R217 (derived). -/
def Obligations.RenderIsTheRunsBetweenOffsets : Prop :=
  ∀ (frameCount : Idx) (ws : List TargetWrite) (later : List Idx) (s : State),
    0 < frameCount.toNat → RenderReady frameCount ws s →
    s.q.recs.Pairwise (fun a b => a.off.toNat ≤ b.off.toNat) → offsetsAbove0 s.q.recs later →
    let r := renderRuns Config.params ws s.q.recs frameCount 0 later { s with out := Memory.poisoned }
    exec (.render frameCount ws) s =
      .next (landAfter Config.params ws frameCount.toNat
        { r with
          q := { s.q with recs := [] }
          sch := { s.sch with offset := frameCount, i := 0 }
          out := copyChannels Config.params frameCount r.out })

/-- R62, R63, R65: after a `RENDER` every frame of the block holds a value in the first channel and, with two
channels, the same bits in the second; no word at or beyond `frameCount` is written, so it holds no value (log entry
13); the queue is empty. The target writes are log entry 11. The spec marks as its own: R62 (derived), R63 (derived),
R65 (D18, D21, derived). -/
def Obligations.RenderFillsTheBlock : Prop :=
  ∀ (frameCount : Idx) (ws : List TargetWrite) (s : State),
    0 < frameCount.toNat → RenderReady frameCount ws s →
    ∃ t, exec (.render frameCount ws) s = .next t ∧
      (∀ n, n < frameCount.toNat → (memRead t.out .first n).isSome = true) ∧
      (∀ n, frameCount.toNat ≤ n → ∀ c, memRead t.out c n = none) ∧
      (∀ n, n < frameCount.toNat → memRead t.out .second n =
        match Config.nch with
        | .mono => none
        | .stereo => memRead t.out .first n) ∧
      t.q = { s.q with recs := [] }

/-- R228, R62, R266: what a `RENDER` leaves alone: the envelope parameters, the sample-rate copies, the smoothing
factor, the modulator's parameters, the two flags, the configuration bits, the block size, the capacity and the fault
record; without events the frequency and the held note; without concurrent writes the resonance target and the base
cutoff. The target writes are log entry 11, those of a `RENDER 0` log entry 12. The spec marks as its own: R62
(derived), R228 (D25, D23, D24, D39). -/
def Obligations.RenderFrame : Prop :=
  ∀ (frameCount : Idx) (ws : List TargetWrite) (s : State), RenderReady frameCount ws s →
    ∃ t, exec (.render frameCount ws) s = .next t ∧
      t.env = s.env ∧ t.cfg = s.cfg ∧ t.faults = s.faults ∧ t.res = s.res ∧ t.port = s.port ∧
      t.q.cap = s.q.cap ∧ t.sch.blockSize = s.sch.blockSize ∧
      t.osc.sr = s.osc.sr ∧ t.lfo = { s.lfo with phase := t.lfo.phase } ∧
      t.flt.k = s.flt.k ∧ t.flt.sr = s.flt.sr ∧
      t.v.envEnabled = s.v.envEnabled ∧ t.v.bypass = s.v.bypass ∧ t.v.sr = s.v.sr ∧
      (s.q.recs = [] → t.v.heldNote = s.v.heldNote ∧ t.osc.freq = s.osc.freq ∧ t.osc.inc = s.osc.inc) ∧
      (ws = [] → t.flt.resTgt = s.flt.resTgt ∧ t.v.baseCut = s.v.baseCut)

/-- R63: what `OUT` held before a `RENDER` of at least one frame reaches nothing that the `RENDER` leaves, whatever it
answers; and what it held before a call of `VOICE.Process` reaches neither a register nor a word the call writes. A
word not written is poisoned (log entry 13). The spec marks as its own: R63 (derived). -/
def Obligations.RenderDoesNotReadTheOldOutput : Prop :=
  (∀ (frameCount : Idx) (ws : List TargetWrite) (s : State) (m : Memory), 0 < frameCount.toNat →
    exec (.render frameCount ws) { s with out := m } = exec (.render frameCount ws) s) ∧
  ∀ (base n : Idx) (gate : Bool) (s : State) (m : Memory), ∃ t t',
    exec (.voiceProcess base n gate) s = .next t ∧
    exec (.voiceProcess base n gate) { s with out := m } = .next t' ∧
    t' = { t with out := t'.out } ∧
    ∀ k, k < n.toNat →
      memRead t'.out .first (frameIndex base.toNat k) = memRead t.out .first (frameIndex base.toNat k)

/-- R228, R72: a concurrent write placed before frame 0 is the same as a `SETP` presented before the `RENDER`, events
or no events at that frame. The target writes are log entry 11. The spec marks as its own: R72 (D25), R228 (D25, D23,
D24, D39). -/
def Obligations.WriteBeforeFrameZeroIsAPrecedingSetp : Prop :=
  ∀ (frameCount : Idx) (w : TargetWrite) (ws : List TargetWrite) (s : State),
    0 < frameCount.toNat → w.frame = 0 → RenderReady frameCount (w :: ws) s →
    ∃ t, exec (match w.target with
        | .cutoff => .setpCutoff w.value
        | .resonance => .setpResonance w.value) s = .next t ∧
      exec (.render frameCount (w :: ws)) s = exec (.render frameCount ws) t

/-- R228, R72: a concurrent write placed at `frameCount` is the same as a `SETP` presented after the `RENDER`. The
target writes are log entry 11, those of a `RENDER 0` log entry 12. The spec marks as its own: R72 (D25), R228 (D25,
D23, D24, D39). -/
def Obligations.WriteAfterTheLastFrameIsAFollowingSetp : Prop :=
  ∀ (frameCount : Idx) (w : TargetWrite) (ws : List TargetWrite) (s : State),
    w.frame = frameCount → RenderReady frameCount (ws ++ [w]) s →
    ∃ t, exec (.render frameCount ws) s = .next t ∧
      exec (.render frameCount (ws ++ [w])) s =
        exec (match w.target with
          | .cutoff => .setpCutoff w.value
          | .resonance => .setpResonance w.value) t

/-- R323: with the envelope enabled the held note reaches nothing a `RENDER` leaves but itself. The spec marks as its
own: R323 (derived). -/
def Obligations.HeldNoteIsInaudibleUnderTheEnvelope : Prop :=
  ∀ (frameCount : Idx) (ws : List TargetWrite) (s : State) (h : Option Data7),
    s.v.envEnabled = true → RenderReady frameCount ws s →
    ∃ t t', exec (.render frameCount ws) s = .next t ∧
      exec (.render frameCount ws) { s with v := { s.v with heldNote := h } } = .next t' ∧
      t' = { t with v := { t.v with heldNote := t'.v.heldNote } }

/-! ### The host commands -/

/-- R226: a block size is stored and the capacity grows to it, never shrinks. The spec marks as its own: R226 (D21).
-/
def Obligations.SetBlockSizeWrites : Prop :=
  ∀ (frames : Idx) (s : State), s.port.during = false → ∃ cap : Idx,
    exec (.setbs frames) s =
      .next { s with
        sch := { s.sch with blockSize := frames }
        q := { s.q with cap := cap }
        cfg := { s.cfg with bsSet := true } } ∧
    cap.toNat = max s.q.cap.toNat frames.toNat

/-- R227, R92: an event word that passes every check is pushed as a record, without its channel; each check that
fails, in the rule's order, stops the command by its name. What a full queue records is log entry 17. The spec marks
as its own: R227 (D22, D35). -/
def Obligations.EnqueuePushesOrStops : Prop :=
  ∀ (ev : BitVec 24) (off : Idx) (s : State), s.port.during = false →
    let reserved := evReserved15 ev = true ∨ evReserved7 ev = true
    let early := ∃ last, s.q.recs.getLast? = some last ∧ off.toNat < last.off.toNat
    (s.cfg.bsSet = true → ¬reserved → off.toNat < s.sch.blockSize.toNat → ¬early →
      s.q.recs.length < s.q.cap.toNat →
      exec (.enq ev off) s =
        .next { s with
          q := { s.q with
            recs := s.q.recs ++
              [{ status := evStatus ev, data1 := evData1 ev, data2 := evData2 ev, off := off }] } }) ∧
    (s.cfg.bsSet = false → exec (.enq ev off) s = .fault (.notConfigured .enq)) ∧
    (s.cfg.bsSet = true → reserved → exec (.enq ev off) s = .refused (.malformedEvent ev)) ∧
    (s.cfg.bsSet = true → ¬reserved → s.sch.blockSize.toNat ≤ off.toNat →
      exec (.enq ev off) s = .fault (.eventOffsetOutOfRange off)) ∧
    (s.cfg.bsSet = true → ¬reserved → off.toNat < s.sch.blockSize.toNat → early →
      exec (.enq ev off) s = .fault (.eventOrderViolation off)) ∧
    (s.cfg.bsSet = true → ¬reserved → off.toNat < s.sch.blockSize.toNat → ¬early →
      s.q.cap.toNat ≤ s.q.recs.length → exec (.enq ev off) s = .fault (.queueOverflow s.q.recs.length))

/-- R92: the record `ENQ` pushes of a word holds the word's bits 23 to 20, 14 to 8 and 6 to 0, unscaled, and the
offset. -/
def Obligations.QueuedRecordHasTheFieldsOfItsWord : Prop :=
  ∀ (ev : BitVec 24) (off : Idx) (s : State), s.port.during = false → s.cfg.bsSet = true →
    evReserved15 ev = false → evReserved7 ev = false → off.toNat < s.sch.blockSize.toNat →
    (∀ last, s.q.recs.getLast? = some last → last.off.toNat ≤ off.toNat) → s.q.recs.length < s.q.cap.toNat →
    ∃ r : EventRec, exec (.enq ev off) s = .next { s with q := { s.q with recs := s.q.recs ++ [r] } } ∧
      r.status.toNat = ev.toNat / 2 ^ 20 ∧ r.data1.toNat = ev.toNat / 2 ^ 8 % 2 ^ 7 ∧
      r.data2.toNat = ev.toNat % 2 ^ 7 ∧ r.off = off

/-- R228, R241, R269: a `RENDER` that breaks a contract faults by the first check that fails, and one that breaks none
completes; `RENDER 0` renders and drains nothing. A bad concurrent write is found after the entry checks (log entry
14). Which record is named is log entry 17. The spec marks as its own: R228 (D25, D23, D24, D39), R241 (D39), R269
(D22). -/
def Obligations.RenderCompletesOrFaults : Prop :=
  ∀ (frameCount : Idx) (ws : List TargetWrite) (s : State), s.port.during = false →
    let ready := s.cfg.srSet = true ∧ s.cfg.bsSet = true
    (RenderReady frameCount ws s → ∃ t, exec (.render frameCount ws) s = .next t) ∧
    (ready → exec (.render 0 []) s = .next s) ∧
    (¬ready → exec (.render frameCount ws) s = .fault (.notConfigured .render)) ∧
    (ready → s.sch.blockSize.toNat < frameCount.toNat →
      exec (.render frameCount ws) s = .fault (.frameCountExceedsBlockSize frameCount)) ∧
    (ready → frameCount.toNat ≤ s.sch.blockSize.toNat → 0 < frameCount.toNat →
      ∀ before e after, s.q.recs = before ++ e :: after → (∀ a ∈ before, a.off.toNat < frameCount.toNat) →
        frameCount.toNat ≤ e.off.toNat →
        exec (.render frameCount ws) s = .fault (.eventBeyondFrameCount e.status e.data1 e.data2 e.off)) ∧
    (ready → frameCount.toNat ≤ s.sch.blockSize.toNat →
      (0 < frameCount.toNat → ∀ e ∈ s.q.recs, e.off.toNat < frameCount.toNat) →
      ∀ before w after, ws = before ++ w :: after → (∀ a ∈ before, isValue a.value = true) →
        isValue w.value = false →
        exec (.render frameCount ws) s = .fault (.badOperand (idOf w.target) w.value))

/-- R233, R234, R236, R238: the words of these four commands, and what each stores of a finite value, presented
between `RENDER` commands: a time in milliseconds as seconds, a depth as it is. -/
def Obligations.TimesAndDepthAreStored : Prop :=
  ∀ (x : Num64) (s : State),
    (encode (.setpAttack x)).word = .hc 0x0402 ∧ (encode (.setpDecay x)).word = .hc 0x0403 ∧
    (encode (.setpRelease x)).word = .hc 0x0405 ∧ (encode (.setpLfoDepth x)).word = .hc 0x0407 ∧
    (s.port.during = false → isFinite x = true →
      exec (.setpAttack x) s = .next { s with env := { s.env with attack := fdiv x thousandNum } } ∧
      exec (.setpDecay x) s = .next { s with env := { s.env with decay := fdiv x thousandNum } } ∧
      exec (.setpRelease x) s = .next { s with env := { s.env with release := fdiv x thousandNum } } ∧
      exec (.setpLfoDepth x) s = .next { s with lfo := { s.lfo with amp := x } })

/-- R231, R232, R235, R237, R239, R240, R99, R101: what each of the other six `SETP` of a finite value writes,
presented between `RENDER` commands. `LFO_RATE` computes an increment once a `SETSR` and the modulator's own rate are
set (log entry 16). The spec marks as its own: R99 (D13), R101 (D14, general knowledge), R237 (D16), R239 (D13), R240
(D13). -/
def Obligations.SetParameterWrites : Prop :=
  ∀ (x : Num64) (s : State), s.port.during = false → isFinite x = true →
    exec (.setpCutoff x) s = .next { s with v := { s.v with baseCut := x }, flt := { s.flt with cutTgt := x } } ∧
    exec (.setpResonance x) s = .next { s with flt := { s.flt with resTgt := x } } ∧
    exec (.setpSustain x) s =
      .next { s with env := { s.env with sustain := Config.pow10 (fdiv x twentyNum) } } ∧
    (s.cfg.srSet = true → s.lfo.srSet = true →
      exec (.setpLfoRate x) s = .next { s with lfo := { s.lfo with freq := x, inc := fdiv x s.lfo.sr } }) ∧
    (s.cfg.srSet = false ∨ s.lfo.srSet = false →
      exec (.setpLfoRate x) s = .next { s with lfo := { s.lfo with freq := x } }) ∧
    exec (.setpEnvEnable x) s =
      .next { s with
        v := { s.v with
          envEnabled := numLe halfNum x
          noteOnTime :=
            if numLe halfNum x = true ∧ s.v.envEnabled = false ∧ s.v.heldNote ≠ none then zeroNum
            else s.v.noteOnTime } } ∧
    exec (.setpBypass x) s = .next { s with v := { s.v with bypass := numLe halfNum x } }

/-- R230, R225, R262: a NaN or an infinity is no parameter value, in any `SETP`, however it is presented; and a sample
rate that is not finite and above 0 is none. The spec marks as its own: R225 (D22, D17, D18), R230 (D40, D30), R262
(D22). -/
def Obligations.NonValuesFault : Prop :=
  ∀ (x : Num64) (s : State),
    (isFinite x = false →
      exec (.setpCutoff x) s = .fault (.badOperand 0 x) ∧ exec (.setpResonance x) s = .fault (.badOperand 1 x) ∧
      exec (.setpAttack x) s = .fault (.badOperand 2 x) ∧ exec (.setpDecay x) s = .fault (.badOperand 3 x) ∧
      exec (.setpSustain x) s = .fault (.badOperand 4 x) ∧ exec (.setpRelease x) s = .fault (.badOperand 5 x) ∧
      exec (.setpLfoRate x) s = .fault (.badOperand 6 x) ∧ exec (.setpLfoDepth x) s = .fault (.badOperand 7 x) ∧
      exec (.setpEnvEnable x) s = .fault (.badOperand 8 x) ∧ exec (.setpBypass x) s = .fault (.badOperand 9 x)) ∧
    (s.port.during = false → (isFinite x = false ∨ numLt zeroNum x = false) →
      exec (.setsr x) s = .fault (.badSampleRate x))

/-- R242, R73, R75: during a `RENDER` only the two smoothed parameters may be written; every other command faults. How
a command is marked as issued during a `RENDER` is log entry 2. The spec marks as its own: R73 (D25), R75 (D25), R242
(D25). -/
def Obligations.CommandsDuringARenderFault : Prop :=
  ∀ s : State, s.port.during = true →
    (∀ r, exec (.setsr r) s = .fault (.concurrentWrite .setsr)) ∧
    (∀ n, exec (.setbs n) s = .fault (.concurrentWrite .setbs)) ∧
    (∀ ev off, exec (.enq ev off) s = .fault (.concurrentWrite .enq)) ∧
    (∀ n ws, exec (.render n ws) s = .fault (.concurrentWrite .render)) ∧
    exec .reset s = .fault (.concurrentWrite .reset) ∧
    (∀ x, isFinite x = true →
      exec (.setpAttack x) s = .fault (.concurrentWrite (.setp 2)) ∧
      exec (.setpDecay x) s = .fault (.concurrentWrite (.setp 3)) ∧
      exec (.setpSustain x) s = .fault (.concurrentWrite (.setp 4)) ∧
      exec (.setpRelease x) s = .fault (.concurrentWrite (.setp 5)) ∧
      exec (.setpLfoRate x) s = .fault (.concurrentWrite (.setp 6)) ∧
      exec (.setpLfoDepth x) s = .fault (.concurrentWrite (.setp 7)) ∧
      exec (.setpEnvEnable x) s = .fault (.concurrentWrite (.setp 8)) ∧
      exec (.setpBypass x) s = .fault (.concurrentWrite (.setp 9)) ∧
      (∃ t, exec (.setpCutoff x) s = .next t) ∧ ∃ t, exec (.setpResonance x) s = .next t)

/-! ### The whole machine -/

/-- R302: the power-on state, for every `PowerOn` record: the registers with a value there, the queue, the two bits,
the output memory and the fault record. The spec marks as its own: R302 (D20). -/
def Obligations.PowerOnState : Prop :=
  ∀ p : PowerOn,
    let s := State.powerOn p
    s.osc.freq = p.oscFreq ∧ s.osc.phase = zeroNum ∧ s.lfo.phase = zeroNum ∧
    s.lfo.freq = p.lfoRate ∧ s.lfo.amp = p.lfoDepth ∧
    s.flt.cutTgt = p.cutoff ∧ s.flt.cutCur = p.cutoff ∧ s.v.baseCut = p.cutoff ∧
    s.flt.resTgt = p.resonance ∧ s.flt.resCur = p.resonance ∧
    s.flt.x1 = zeroNum ∧ s.flt.x2 = zeroNum ∧ s.flt.y1 = zeroNum ∧ s.flt.y2 = zeroNum ∧
    s.env = { attack := p.attack, decay := p.decay, sustain := p.sustain, release := p.release } ∧
    s.v.noteOnTime = zeroNum ∧ s.v.heldNote = none ∧ s.v.envEnabled = p.envEnabled ∧ s.v.bypass = p.bypass ∧
    s.q.cap = 0 ∧ s.q.recs = [] ∧ s.cfg = { srSet := false, bsSet := false } ∧
    s.lfo.srSet = false ∧
    (∀ c n, memRead s.out c n = none) ∧ s.faults = []

/-- R37: the fault record is empty at power-on; a step that raises a fault has no next state, and the trace's record
then holds that fault and every earlier one, with nothing else changed; no step that goes on changes the record; after
a fault no step goes on. The record in the trace, and that a step after a fault answers a recorded one, are log entry
18. The spec marks as its own: R37 (D22). -/
def Obligations.FaultRecordOnlyGrows : Prop :=
  (∀ p, (State.powerOn p).faults = []) ∧
  ∀ s : State,
    (∀ t, step s = .next t → t.faults = s.faults) ∧
    (∀ f, step s = .fault f →
      ∃ t, traceStep s = some t ∧ t = { s with faults := t.faults } ∧
        ∀ g, g ∈ t.faults ↔ g = f ∨ g ∈ s.faults) ∧
    (s.faults ≠ [] → ∃ f ∈ s.faults, step s = .fault f)

/-- The invariant of the model's data (R61, R64, R28) holds at power-on. The idle index is log entry 5. The spec marks
as its own: R28 (derived), R61 (D37), R64 (D21). -/
def Obligations.InvariantHoldsAtPowerOn : Prop := ∀ p : PowerOn, Inv (State.powerOn p)

/-- R64, R227, R226, R28: every step keeps the canonical form of the output memory, the order and the bound of the
queue, and an idle frame index. The idle index is log entry 15. The spec marks as its own: R28 (derived), R64 (D21),
R226 (D21), R227 (D22, D35). -/
def Obligations.InvariantIsKeptByEveryStep : Prop :=
  ∀ s t : State, Inv s → step s = .next t → Inv t

/-- R34: at power-on nothing is claimed; every step of a host's input keeps the registers derived from the sample rate
in agreement with it; and a `SETSR` that completes brings the agreement about. The spec marks as its own: R34
(derived). -/
def Obligations.DerivedRegistersAgree : Prop :=
  (∀ p, DerivedInv (State.powerOn p)) ∧
  (∀ (s t : State) (it : PortItem) (rest : List PortItem), s.port.pending = it :: rest → fromHost it.word = true →
    DerivedInv s → step s = .next t → DerivedInv t) ∧
  (∀ (r : Num64) (s t : State), exec (.setsr r) s = .next t → Derived Config.params t)

/-- R35, R276: the clock is 0 or negative at power-on, and every step of a host's input keeps it so. Binary64 is log
entry 10. The spec marks as its own: R35 (derived). -/
def Obligations.ClockIsNeverPositive : Prop :=
  (∀ p, ClockInv (State.powerOn p)) ∧
  ∀ (s t : State) (it : PortItem) (rest : List PortItem), s.port.pending = it :: rest → fromHost it.word = true →
    ClockInv s → step s = .next t → ClockInv t

/-- R33, R38, R68: only `VOICE.Process`, the channel copy and `RENDER` change a word of the output memory. The spec
marks as its own: R33 (D25), R68 (D25). -/
def Obligations.OutputHasThreeWriters : Prop :=
  ∀ (i : Instr) (s t : State), exec i s = .next t →
    (∃ b n g, i = .voiceProcess b n g) ∨ (∃ n, i = .schCopyChannels n) ∨ (∃ n ws, i = .render n ws) ∨
    ∀ c k, memRead t.out c k = memRead s.out c k

/-- R36, R305: the smoothed current values change only in `FLT.Process` and what calls it; the modulator's phase only
in its own reset and where it advances; the held note only by the four note events and what drains them. The spec
marks as its own: R305 (D18). -/
def Obligations.HiddenStateHasFewWriters : Prop :=
  ∀ (i : Instr) (s t : State), exec i s = .next t →
    let renders := (∃ b n g, i = .voiceProcess b n g) ∨ ∃ n ws, i = .render n ws
    (renders ∨ (∃ x, i = .fltProcess x) ∨ (t.flt.cutCur = s.flt.cutCur ∧ t.flt.resCur = s.flt.resCur)) ∧
    (renders ∨ i = .lfoNextSample ∨ i = .lfoReset ∨ t.lfo.phase = s.lfo.phase) ∧
    ((∃ n ws, i = .render n ws) ∨ i = .schDrain ∨ (∃ ch n v o, i = .noteOn ch n v o) ∨
      (∃ ch n o, i = .noteOnV0 ch n o) ∨ (∃ ch n v o, i = .noteOff ch n v o) ∨
      (∃ ch v o, i = .ccAllNotesOff ch v o) ∨ t.v.heldNote = s.v.heldNote)

/-- R32, R33, R226: the lifecycle registers: the block size and the capacity change only by `SETBS`, the queue only by
`ENQ`, the drain and `RENDER`; the configuration bits are set and never cleared, and the capacity never shrinks. The
spec marks as its own: R32 (D39, derived), R33 (D25), R226 (D21). -/
def Obligations.LifecycleRegistersHaveTheirWriters : Prop :=
  ∀ (i : Instr) (s t : State), exec i s = .next t →
    ((∃ n, i = .setbs n) ∨ (t.sch.blockSize = s.sch.blockSize ∧ t.q.cap = s.q.cap ∧ t.cfg.bsSet = s.cfg.bsSet)) ∧
    ((∃ ev o, i = .enq ev o) ∨ i = .schDrain ∨ (∃ n ws, i = .render n ws) ∨ t.q.recs = s.q.recs) ∧
    ((∃ r, i = .setsr r) ∨ t.cfg.srSet = s.cfg.srSet) ∧
    (s.cfg.srSet = true → t.cfg.srSet = true) ∧ (s.cfg.bsSet = true → t.cfg.bsSet = true) ∧
    s.q.cap.toNat ≤ t.q.cap.toNat

/-! ### The number format -/

/-- R125: each of the four operations on finite numbers is rounded once, to nearest, ties to even, is infinite exactly
where the exact result is beyond the format (`roundedFrom`), and has the standard's sign, that of a zero and of an
infinity too. A NaN operand gives a NaN; so do the difference of two like infinities, an infinity times a zero, the
quotient of two infinities and of two zeros. The other results with an infinity or a zero divisor are the standard's
infinities and zeros. Binary64 is log entry 10. The spec marks as its own: R125 (D1, general knowledge). -/
def Obligations.ArithmeticIsCorrectlyRounded : Prop :=
  ∀ x y : Num64,
    let unlike := signOf x != signOf y
    (isFinite x = true → isFinite y = true →
      (roundedFrom (valueOf x + valueOf y) 1 (fadd x y) ∧
        signOf (fadd x y) =
          if valueOf x + valueOf y = 0 then signOf x && signOf y else decide (valueOf x + valueOf y < 0)) ∧
      (roundedFrom (valueOf x - valueOf y) 1 (fsub x y) ∧
        signOf (fsub x y) =
          if valueOf x - valueOf y = 0 then signOf x && !signOf y else decide (valueOf x - valueOf y < 0)) ∧
      (roundedFrom (valueOf x * valueOf y) (2 ^ unitExp) (fmul x y) ∧ signOf (fmul x y) = unlike) ∧
      (isZero y = false →
        roundedFrom (valueOf x * 2 ^ unitExp * Int.sign (valueOf y)) (unitsOf y) (fdiv x y) ∧
        signOf (fdiv x y) = unlike) ∧
      (isZero y = true → isZero x = false → isInf (fdiv x y) = true ∧ signOf (fdiv x y) = unlike) ∧
      (isZero y = true → isZero x = true → isNaN (fdiv x y) = true)) ∧
    (isNaN x = true ∨ isNaN y = true →
      isNaN (fadd x y) = true ∧ isNaN (fsub x y) = true ∧ isNaN (fmul x y) = true ∧ isNaN (fdiv x y) = true) ∧
    (isInf x = true → isFinite y = true →
      fadd x y = x ∧ fsub x y = x ∧ isInf (fdiv x y) = true ∧ signOf (fdiv x y) = unlike) ∧
    (isFinite x = true → isInf y = true →
      fadd x y = y ∧ fsub x y = fneg y ∧ isZero (fdiv x y) = true ∧ signOf (fdiv x y) = unlike) ∧
    (isInf x = true → isInf y = true →
      (unlike = false → fadd x y = x ∧ isNaN (fsub x y) = true) ∧
      (unlike = true → isNaN (fadd x y) = true ∧ fsub x y = x) ∧ isNaN (fdiv x y) = true) ∧
    (isNaN x = false → isNaN y = false → isInf x = true ∨ isInf y = true →
      (isZero x = true ∨ isZero y = true → isNaN (fmul x y) = true) ∧
      (isZero x = false → isZero y = false → isInf (fmul x y) = true ∧ signOf (fmul x y) = unlike))

/-- R123, R126: the conversion of an integer below `2^32` in absolute value is exact; `floor` is the largest integer
not above a finite operand, and every other operand itself. Binary64 is log entry 10. The spec marks as its own: R123
(derived), R126 (D1). -/
def Obligations.ToNumAndFloorAreExact : Prop :=
  (∀ n : Int, |n| < 2 ^ 32 → isFinite (toNum n) = true ∧ valueOf (toNum n) = n * 2 ^ unitExp) ∧
  (∀ x : Num64, isFinite x = true →
    isFinite (floorNum x) = true ∧ (∃ n : Int, valueOf (floorNum x) = n * 2 ^ unitExp) ∧
      valueOf (floorNum x) ≤ valueOf x ∧ valueOf x < valueOf (floorNum x) + 2 ^ unitExp) ∧
  (∀ x : Num64, isFinite x = false → floorNum x = x)

/-- R127: every comparison with a NaN is false but `!=`; without a NaN they compare values, those of infinities
included, and the zeros are equal. `valueOf` of an infinity is beyond every finite value. Binary64 is log entry 10.
The spec marks as its own: R127 (derived). -/
def Obligations.ComparisonsFollowTheStandard : Prop :=
  ∀ x y : Num64,
    (isNaN x = true ∨ isNaN y = true →
      numLt x y = false ∧ numLe x y = false ∧ numEq x y = false ∧ numNe x y = true) ∧
    (isNaN x = false → isNaN y = false →
      numLt x y = decide (valueOf x < valueOf y) ∧ numLe x y = decide (valueOf x ≤ valueOf y) ∧
      numEq x y = decide (valueOf x = valueOf y) ∧ numNe x y = decide (valueOf x ≠ valueOf y)) ∧
    (isInf x = true → isFinite y = true ∨ (isInf y = true ∧ signOf y ≠ signOf x) →
      if signOf x then valueOf x < valueOf y else valueOf y < valueOf x) ∧
    (isInf x = true → isInf y = true → signOf x = signOf y → valueOf x = valueOf y)

end Slice0Statements
end

