-- ==== Sys2Proof/Laws/Encoding.lean ====
section
/-! SUPPORT. Decoding and encoding: the fields of an event word and of a command word, and the operand slots. -/

namespace Sys2Proof

/-! ### The fields of an assembled event word (R91) -/

@[simp] theorem evStatus_evWord (st ch : BitVec 4) (d1 d2 : Data7) : evStatus (evWord st ch d1 d2) = st := by
  apply BitVec.eq_of_getLsbD_eq
  intro i hi
  simp only [evStatus, evWord, BitVec.getLsbD_extractLsb', BitVec.getLsbD_append]
  interval_cases i <;> simp

@[simp] theorem evChannel_evWord (st ch : BitVec 4) (d1 d2 : Data7) : evChannel (evWord st ch d1 d2) = ch := by
  apply BitVec.eq_of_getLsbD_eq
  intro i hi
  simp only [evChannel, evWord, BitVec.getLsbD_extractLsb', BitVec.getLsbD_append]
  interval_cases i <;> simp

@[simp] theorem evData1_evWord (st ch : BitVec 4) (d1 d2 : Data7) : evData1 (evWord st ch d1 d2) = d1 := by
  apply BitVec.eq_of_getLsbD_eq
  intro i hi
  simp only [evData1, evWord, BitVec.getLsbD_extractLsb', BitVec.getLsbD_append]
  interval_cases i <;> simp

@[simp] theorem evData2_evWord (st ch : BitVec 4) (d1 d2 : Data7) : evData2 (evWord st ch d1 d2) = d2 := by
  apply BitVec.eq_of_getLsbD_eq
  intro i hi
  simp only [evData2, evWord, BitVec.getLsbD_extractLsb', BitVec.getLsbD_append]
  interval_cases i <;> simp

@[simp] theorem evReserved15_evWord (st ch : BitVec 4) (d1 d2 : Data7) :
    evReserved15 (evWord st ch d1 d2) = false := by
  simp only [evReserved15, evWord, BitVec.getLsbD_append]
  simp

@[simp] theorem evReserved7_evWord (st ch : BitVec 4) (d1 d2 : Data7) :
    evReserved7 (evWord st ch d1 d2) = false := by
  simp only [evReserved7, evWord, BitVec.getLsbD_append]
  simp

/-- A word whose reserved bits are clear is its fields put together. -/
theorem evWord_fields (w : BitVec 24) (h15 : evReserved15 w = false) (h7 : evReserved7 w = false) :
    evWord (evStatus w) (evChannel w) (evData1 w) (evData2 w) = w := by
  simp only [evReserved15, evReserved7] at h15 h7
  apply BitVec.eq_of_getLsbD_eq
  intro i hi
  simp only [evWord, evStatus, evChannel, evData1, evData2, BitVec.getLsbD_append, BitVec.getLsbD_extractLsb']
  interval_cases i <;> simp_all

/-- Event words are equal where their fields are. -/
theorem evWord_inj (st ch st' ch' : BitVec 4) (d1 d2 d1' d2' : Data7) :
    evWord st ch d1 d2 = evWord st' ch' d1' d2' ↔ st = st' ∧ ch = ch' ∧ d1 = d1' ∧ d2 = d2' := by
  refine ⟨fun h => ⟨?_, ?_, ?_, ?_⟩, by rintro ⟨rfl, rfl, rfl, rfl⟩; rfl⟩
  · simpa using congrArg evStatus h
  · simpa using congrArg evChannel h
  · simpa using congrArg evData1 h
  · simpa using congrArg evData2 h

/-! ### The fields of an assembled command word (R96) -/

@[simp] theorem hcCmd_hcWord (cmd sub : BitVec 8) : hcCmd (hcWord cmd sub) = cmd := by
  apply BitVec.eq_of_getLsbD_eq
  intro i hi
  simp only [hcCmd, hcWord, BitVec.getLsbD_extractLsb', BitVec.getLsbD_append]
  interval_cases i <;> simp

@[simp] theorem hcSub_hcWord (cmd sub : BitVec 8) : hcSub (hcWord cmd sub) = sub := by
  apply BitVec.eq_of_getLsbD_eq
  intro i hi
  simp only [hcSub, hcWord, BitVec.getLsbD_extractLsb', BitVec.getLsbD_append]
  interval_cases i <;> simp

theorem hcWord_fields (w : BitVec 16) : hcWord (hcCmd w) (hcSub w) = w := by
  apply BitVec.eq_of_getLsbD_eq
  intro i hi
  simp only [hcWord, hcCmd, hcSub, BitVec.getLsbD_append, BitVec.getLsbD_extractLsb']
  interval_cases i <;> simp

/-! ### Operand slots -/

@[simp] theorem slotAt_zero (a : Slot) (ops : List Slot) : slotAt (a :: ops) 0 = a := rfl
@[simp] theorem slotAt_one (a b : Slot) (ops : List Slot) : slotAt (a :: b :: ops) 1 = b := rfl
@[simp] theorem slotAt_two (a b c : Slot) (ops : List Slot) : slotAt (a :: b :: c :: ops) 2 = c := rfl

@[simp] theorem slotIdx_idxSlot (n : Idx) : slotIdx (idxSlot n) = n :=
  BitVec.setWidth_setWidth_of_le n (by decide) |>.trans (BitVec.setWidth_eq n)

@[simp] theorem slotEvent_eventSlot (ev : BitVec 24) : slotEvent (eventSlot ev) = ev :=
  BitVec.setWidth_setWidth_of_le ev (by decide) |>.trans (BitVec.setWidth_eq ev)

@[simp] theorem slotFlag_flagSlot (b : Bool) : slotFlag (flagSlot b) = b := by
  cases b <;> decide

@[simp] theorem slotTarget_targetSlot (t : Smoothed) : slotTarget (targetSlot t) = t := by
  cases t <;> decide

/-- R228: a place within the block is kept. -/
theorem placeOf_le {frameCount n : Idx} (h : n.toNat ≤ frameCount.toNat) : placeOf frameCount n = n := if_pos h

/-- R228: every place is within the block. -/
theorem placeOf_bound (frameCount n : Idx) : (placeOf frameCount n).toNat ≤ frameCount.toNat := by
  unfold placeOf
  split
  · assumption
  · have h := Nat.mod_lt (Config.freePlace frameCount n).toNat (Nat.succ_pos frameCount.toNat)
    rw [BitVec.toNat_ofNat]
    exact Nat.le_trans (Nat.mod_le _ _) (Nat.le_of_lt_succ h)

/-- R228: the writes a decoder reads have places within the block. -/
theorem wellFormedWrites_slotWrites (frameCount : Idx) (ops : List Slot) :
    wellFormedWrites frameCount (slotWrites frameCount ops) = true := by
  unfold slotWrites
  split
  · rename_i frame id value rest
    have ih := wellFormedWrites_slotWrites frameCount rest
    simp only [wellFormedWrites, List.all_cons, Bool.and_eq_true, decide_eq_true_eq] at ih ⊢
    exact ⟨placeOf_bound _ _, ih⟩
  · rfl

theorem slotWrites_writeSlots {frameCount : Idx} {ws : List TargetWrite} (h : wellFormedWrites frameCount ws = true) :
    slotWrites frameCount (writeSlots ws) = ws := by
  induction ws with
  | nil => rfl
  | cons w ws ih =>
    simp only [wellFormedWrites, List.all_cons, Bool.and_eq_true, decide_eq_true_eq] at h ih
    simp [writeSlots, slotWrites, ih h.2, placeOf_le h.1]

end Sys2Proof
end

