-- ==== Sys2Proof/Laws/Memory.lean ====
section
/-! SUPPORT. The output memory: read after write, read after copy, and that every operation keeps the canonical form. -/

namespace Sys2Proof.Machine

/-! ### One buffer -/

@[simp] theorem bufRead_nil (n : Nat) : bufRead [] n = none := rfl

theorem bufRead_cons (k : Nat) (w : Num64) (b : Buffer) (n : Nat) :
    bufRead ((k, w) :: b) n = if n = k then some w else bufRead b n := rfl

/-- R68: the word written is the word read. -/
theorem bufRead_bufWrite_same (b : Buffer) (n : Nat) (v : Num64) : bufRead (bufWrite b n v) n = some v := by
  induction b with
  | nil => simp [bufWrite, bufRead]
  | cons c b ih =>
    obtain ⟨k, w⟩ := c
    unfold bufWrite
    split
    · simp [bufRead]
    · split
      · simp [bufRead]
      · rw [bufRead_cons, if_neg ‹_›, ih]

/-- R68: the other words keep their value. -/
theorem bufRead_bufWrite_other (b : Buffer) (n m : Nat) (v : Num64) (h : m ≠ n) :
    bufRead (bufWrite b n v) m = bufRead b m := by
  induction b with
  | nil => simp [bufWrite, bufRead, h]
  | cons c b ih =>
    obtain ⟨k, w⟩ := c
    unfold bufWrite
    split
    · rw [bufRead_cons, if_neg h]
    · split
      · subst_vars; rw [bufRead_cons, bufRead_cons, if_neg h, if_neg h]
      · rw [bufRead_cons, bufRead_cons, ih]

theorem bufRead_bufWrite (b : Buffer) (n m : Nat) (v : Num64) :
    bufRead (bufWrite b n v) m = if m = n then some v else bufRead b m := by
  split
  · subst_vars; exact bufRead_bufWrite_same b _ v
  · exact bufRead_bufWrite_other b n m v ‹_›

/-- A buffer write adds no index but the one written. -/
theorem mem_bufWrite {b : Buffer} {n : Nat} {v : Num64} {c : Nat × Num64} (h : c ∈ bufWrite b n v) :
    c.1 = n ∨ c ∈ b := by
  induction b with
  | nil => simp_all [bufWrite]
  | cons d b ih =>
    obtain ⟨k, w⟩ := d
    unfold bufWrite at h
    split at h
    · rcases List.mem_cons.mp h with rfl | h
      · exact .inl rfl
      · exact .inr h
    · split at h
      · rcases List.mem_cons.mp h with rfl | h
        · exact .inl rfl
        · exact .inr (List.mem_cons_of_mem _ h)
      · rcases List.mem_cons.mp h with rfl | h
        · exact .inr List.mem_cons_self
        · exact (ih h).imp_right (List.mem_cons_of_mem _)

/-- A buffer write keeps the canonical form. -/
theorem bufWrite_wf {b : Buffer} (h : bufWf b) (n : Nat) (v : Num64) : bufWf (bufWrite b n v) := by
  induction b with
  | nil => simp [bufWrite, bufWf]
  | cons c b ih =>
    obtain ⟨k, w⟩ := c
    obtain ⟨hk, hb⟩ := List.pairwise_cons.mp h
    unfold bufWrite
    split
    · refine List.pairwise_cons.mpr ⟨fun d hd => ?_, h⟩
      rcases List.mem_cons.mp hd with rfl | hd
      · assumption
      · exact Nat.lt_trans ‹_› (hk d hd)
    · split
      · subst_vars; exact List.pairwise_cons.mpr ⟨hk, hb⟩
      · refine List.pairwise_cons.mpr ⟨fun d hd => ?_, ih hb⟩
        rcases mem_bufWrite hd with he | hd
        · simp only [he]; omega
        · exact hk d hd

/-- Reading among the entries that a test on the index keeps. -/
theorem bufRead_filter (p : Nat → Bool) (b : Buffer) (n : Nat) :
    bufRead (b.filter fun c => p c.1) n = if p n then bufRead b n else none := by
  induction b with
  | nil => simp
  | cons c b ih =>
    obtain ⟨k, w⟩ := c
    by_cases hk : p k
    · rw [List.filter_cons_of_pos (by exact hk), bufRead_cons, bufRead_cons, ih]
      by_cases hn : n = k
      · subst hn; simp [hk]
      · simp [hn]
    · rw [List.filter_cons_of_neg (by exact hk), ih, bufRead_cons]
      by_cases hn : n = k
      · subst hn; simp [hk]
      · simp [hn]

theorem bufRead_append (a b : Buffer) (n : Nat) :
    bufRead (a ++ b) n = (bufRead a n).or (bufRead b n) := by
  induction a with
  | nil => simp
  | cons c a ih =>
    obtain ⟨k, w⟩ := c
    rw [List.cons_append, bufRead_cons, bufRead_cons, ih]
    split <;> simp

/-- R216: below `count` the copy reads as the source, above as the destination did. -/
theorem bufRead_bufCopy (count : Nat) (src dst : Buffer) (n : Nat) :
    bufRead (bufCopy count src dst) n = if n < count then bufRead src n else bufRead dst n := by
  rw [bufCopy, bufRead_append, bufRead_filter (fun k => decide (k < count)),
    bufRead_filter (fun k => decide (count ≤ k))]
  by_cases h : n < count
  · simp [h, Nat.not_le.mpr h]
  · simp [h, Nat.le_of_not_lt h]

/-- A copy keeps the canonical form. -/
theorem bufCopy_wf {src dst : Buffer} (hs : bufWf src) (hd : bufWf dst) (count : Nat) :
    bufWf (bufCopy count src dst) := by
  refine List.pairwise_append.mpr ⟨hs.filter _, hd.filter _, fun a ha b hb => ?_⟩
  have h1 := of_decide_eq_true (List.mem_filter.mp ha).2
  have h2 := of_decide_eq_true (List.mem_filter.mp hb).2
  exact Nat.lt_of_lt_of_le h1 h2

/-! ### The output memory -/

/-- R68: a write of the first channel, read at any word. -/
theorem memRead_memWrite_first (m : Memory) (n k : Nat) (v : Num64) (c : ChannelId) :
    memRead (memWrite m .first n v) c k = if c = .first ∧ k = n then some v else memRead m c k := by
  cases c <;> simp [memRead, memWrite, bufRead_bufWrite]

/-- A write keeps the canonical form. -/
theorem memWrite_wf {m : Memory} (h : m.wf) (c : ChannelId) (n : Nat) (v : Num64) : (memWrite m c n v).wf := by
  cases c
  · exact ⟨bufWrite_wf h.1 n v, h.2⟩
  · exact ⟨h.1, bufWrite_wf h.2 n v⟩

/-- R63: no word of a poisoned memory holds a value. -/
@[simp] theorem memRead_poisoned (c : ChannelId) (n : Nat) : memRead Memory.poisoned c n = none := by cases c <;> rfl

/-- A poisoned memory is in canonical form: nothing is listed. -/
theorem poisoned_wf : Memory.poisoned.wf := ⟨.nil, .nil⟩

@[simp] theorem memWrite_first_ch1 (m : Memory) (n : Nat) (v : Num64) : (memWrite m .first n v).ch1 = m.ch1 := rfl

@[simp] theorem memWrite_first_ch0 (m : Memory) (n : Nat) (v : Num64) :
    (memWrite m .first n v).ch0 = bufWrite m.ch0 n v := rfl

/-- The memory of every power-on state is in canonical form: nothing is listed. -/
theorem powerOn_memory_wf (p : PowerOn) : (State.powerOn p).out.wf := ⟨.nil, .nil⟩

/-- The memory of the reset state is in canonical form. -/
theorem reset_memory_wf : State.reset.out.wf := powerOn_memory_wf _

/-! ### The event queue -/

/-- R227: a record pushed at or after the tail's offset, into a queue with room, keeps the queue's form. -/
theorem queuePush_wf {q : Queue} {e : EventRec} (h : q.wf)
    (hord : ∀ a ∈ q.recs, a.off.toNat ≤ e.off.toNat) (hroom : q.recs.length < q.cap.toNat) :
    (queuePush q e).wf := by
  refine ⟨List.pairwise_append.mpr ⟨h.1, List.pairwise_singleton _ _, fun a ha b hb => ?_⟩, ?_⟩
  · rw [List.mem_singleton.mp hb]; exact hord a ha
  · simp only [queuePush, List.length_append, List.length_singleton]; omega

/-- R226: the capacity is the larger of the old one and the block size. -/
theorem queueResize_cap (q : Queue) (frames : Idx) :
    (queueResize q frames).cap.toNat = max q.cap.toNat frames.toNat := by
  unfold queueResize
  split
  · change frames.toNat = _; omega
  · omega

@[simp] theorem queueResize_recs (q : Queue) (frames : Idx) : (queueResize q frames).recs = q.recs := by
  unfold queueResize
  split <;> rfl

/-- R226: `SETBS` keeps the queue's form. -/
theorem queueResize_wf {q : Queue} (h : q.wf) (frames : Idx) : (queueResize q frames).wf := by
  refine ⟨by rw [queueResize_recs]; exact h.1, ?_⟩
  rw [queueResize_recs, queueResize_cap]
  exact Nat.le_trans h.2 (Nat.le_max_left _ _)

end Sys2Proof.Machine
end

