-- ==== Sys2Proof/Laws/Numerics.lean ====
section
/-! SUPPORT. The number format: the parts of an assembled number, the value of a magnitude, and what rounding gives. -/

namespace Sys2Proof.Machine

/-! ### The parts of a number -/

/-- The 63 bits below the sign, and the sign. -/
theorem toNat_eq_magOf_add (x : Num64) : x.toNat = magOf x + if signOf x then 2 ^ 63 else 0 := by
  have h : magOf x = x.toNat % 2 ^ 63 := by simp [magOf]
  have hx := x.isLt
  have hs : signOf x = decide (2 ^ 63 ≤ x.toNat) := by
    rw [signOf, ← BitVec.msb_eq_getLsbD_last x, BitVec.msb_eq_decide]
  rw [h, hs]
  by_cases hc : 2 ^ 63 ≤ x.toNat
  · simp only [hc, decide_true, if_true]; omega
  · simp only [hc, decide_false, Bool.false_eq_true, if_false]; omega

theorem magOf_lt (x : Num64) : magOf x < 2 ^ 63 := (x.extractLsb' 0 63).isLt

theorem expField_eq (x : Num64) : expField x = magOf x / 2 ^ 52 := by
  have h : magOf x = x.toNat % 2 ^ 63 := by simp [magOf]
  have he : expField x = x.toNat / 2 ^ 52 % 2 ^ 11 := by simp [expField, Nat.shiftRight_eq_div_pow]
  omega

theorem fracField_eq (x : Num64) : fracField x = magOf x % 2 ^ 52 := by
  have h : magOf x = x.toNat % 2 ^ 63 := by simp [magOf]
  have hf : fracField x = x.toNat % 2 ^ 52 := by simp [fracField]
  omega

/-- A number is its sign and its magnitude put together. -/
theorem ofMag_magOf (x : Num64) : ofMag (signOf x) (magOf x) = x := by
  apply BitVec.eq_of_toNat_eq
  rw [ofMag, BitVec.toNat_ofNat, ← toNat_eq_magOf_add, Nat.mod_eq_of_lt x.isLt]

theorem toNat_ofMag (neg : Bool) {m : Nat} (h : m < 2 ^ 63) :
    (ofMag neg m).toNat = m + if neg then 2 ^ 63 else 0 := by
  rw [ofMag, BitVec.toNat_ofNat]
  apply Nat.mod_eq_of_lt
  cases neg <;> simp only [Bool.false_eq_true, if_true, if_false] <;> omega

@[simp] theorem magOf_ofMag (neg : Bool) {m : Nat} (h : m < 2 ^ 63) : magOf (ofMag neg m) = m := by
  have h1 := toNat_ofMag neg h
  have h2 : magOf (ofMag neg m) = (ofMag neg m).toNat % 2 ^ 63 := by simp [magOf]
  rw [h2, h1]
  cases neg <;> simp only [Bool.false_eq_true, if_true, if_false] <;> omega

@[simp] theorem signOf_ofMag (neg : Bool) {m : Nat} (h : m < 2 ^ 63) : signOf (ofMag neg m) = neg := by
  have h1 := toNat_ofMag neg h
  rw [toNat_eq_magOf_add, magOf_ofMag neg h] at h1
  have h2 := Nat.add_left_cancel h1
  cases neg <;> cases hs : signOf (ofMag _ m) <;> simp_all

/-- Two numbers of one sign and one magnitude are the same bits. -/
theorem eq_of_parts {x y : Num64} (hs : signOf x = signOf y) (hm : magOf x = magOf y) : x = y := by
  rw [← ofMag_magOf x, ← ofMag_magOf y, hs, hm]

theorem isFinite_iff (x : Num64) : isFinite x = true ↔ magOf x < infMag := by
  have h := magOf_lt x
  rw [isFinite, bne_iff_ne, expField_eq]
  unfold infMag
  omega

theorem isZero_iff (x : Num64) : isZero x = true ↔ magOf x = 0 := by rw [isZero, beq_iff_eq]

theorem isNaN_iff (x : Num64) : isNaN x = true ↔ infMag < magOf x := by
  have h := magOf_lt x
  rw [isNaN, Bool.and_eq_true, beq_iff_eq, bne_iff_ne, expField_eq, fracField_eq]
  unfold infMag
  omega

theorem isInf_iff (x : Num64) : isInf x = true ↔ magOf x = infMag := by
  have h := magOf_lt x
  rw [isInf, Bool.and_eq_true, beq_iff_eq, beq_iff_eq, expField_eq, fracField_eq]
  unfold infMag
  omega

theorem isNaN_of_isFinite {x : Num64} (h : isFinite x = true) : isNaN x = false := by
  rw [isFinite_iff] at h
  rw [← Bool.not_eq_true, isNaN_iff]
  omega

theorem isInf_of_isFinite {x : Num64} (h : isFinite x = true) : isInf x = false := by
  rw [isFinite_iff] at h
  rw [← Bool.not_eq_true, isInf_iff]
  omega

@[simp] theorem isFinite_ofMag (neg : Bool) {m : Nat} (h : m < infMag) : isFinite (ofMag neg m) = true := by
  rw [isFinite_iff, magOf_ofMag neg (by unfold infMag at h; omega)]
  exact h

/-! ### The value of a magnitude -/

/-- The absolute value, in units, of the finite numbers of a magnitude. -/
def unitsMag (m : Nat) : Nat := if m / 2 ^ 52 = 0 then m % 2 ^ 52 else (2 ^ 52 + m % 2 ^ 52) * 2 ^ (m / 2 ^ 52 - 1)

theorem unitsOf_eq (x : Num64) : unitsOf x = unitsMag (magOf x) := by
  rw [unitsOf, unitsMag, expField_eq, fracField_eq]

/-- A larger magnitude is a larger value. -/
theorem unitsMag_lt_succ (m : Nat) : unitsMag m < unitsMag (m + 1) := by
  unfold unitsMag
  by_cases h0 : m / 2 ^ 52 = 0
  · rw [if_pos h0]
    by_cases h1 : (m + 1) / 2 ^ 52 = 0
    · rw [if_pos h1]; omega
    · rw [if_neg h1, show (m + 1) / 2 ^ 52 - 1 = 0 by omega]; omega
  · rw [if_neg h0, if_neg (by omega)]
    by_cases h1 : (m + 1) / 2 ^ 52 = m / 2 ^ 52
    · rw [h1]
      exact Nat.mul_lt_mul_of_pos_right (by omega) (Nat.two_pow_pos _)
    · rw [show (m + 1) / 2 ^ 52 - 1 = (m / 2 ^ 52 - 1) + 1 by omega, show (m + 1) % 2 ^ 52 = 0 by omega,
        pow_succ 2 (m / 2 ^ 52 - 1), Nat.add_zero, Nat.mul_comm _ 2, ← Nat.mul_assoc]
      exact Nat.mul_lt_mul_of_pos_right (by omega) (Nat.two_pow_pos _)

theorem unitsMag_strictMono : StrictMono unitsMag := strictMono_nat_of_lt_succ unitsMag_lt_succ

theorem unitsMag_inj {m n : Nat} : unitsMag m = unitsMag n ↔ m = n := unitsMag_strictMono.injective.eq_iff

@[simp] theorem unitsMag_zero : unitsMag 0 = 0 := rfl

/-- The value of a significand of up to 53 bits and its place, carry included. -/
theorem unitsMag_assembled {s q : Nat} (hq : q ≤ 2 ^ 53) (h : s = 0 ∨ 2 ^ 52 ≤ q) :
    unitsMag (s * 2 ^ 52 + q) = q * 2 ^ s := by
  unfold unitsMag
  rcases Nat.lt_or_ge q (2 ^ 52) with hlt | hge
  · obtain rfl : s = 0 := by omega
    rw [if_pos (by omega), Nat.pow_zero]; omega
  · rw [if_neg (by omega)]
    rcases Nat.lt_or_ge q (2 ^ 53) with h53 | h53
    · rw [show (s * 2 ^ 52 + q) / 2 ^ 52 - 1 = s by omega, show 2 ^ 52 + (s * 2 ^ 52 + q) % 2 ^ 52 = q by omega]
    · obtain rfl : q = 2 ^ 53 := by omega
      rw [show (s * 2 ^ 52 + 2 ^ 53) / 2 ^ 52 - 1 = s + 1 by omega, show (s * 2 ^ 52 + 2 ^ 53) % 2 ^ 52 = 0 by omega,
        Nat.pow_succ]
      ring

/-! ### Rounding -/

theorem divNearest_cases (a b : Nat) :
    (2 * (a % b) < b ∧ divNearest a b = a / b) ∨ (b < 2 * (a % b) ∧ divNearest a b = a / b + 1) ∨
      (2 * (a % b) = b ∧ divNearest a b = a / b + a / b % 2) := by
  unfold divNearest
  simp only
  split
  · exact .inl ⟨‹_›, rfl⟩
  · split
    · exact .inr (.inl ⟨‹_›, rfl⟩)
    · exact .inr (.inr ⟨by omega, rfl⟩)

/-- An exact quotient is not rounded. -/
theorem divNearest_mul (q : Nat) {b : Nat} (hb : 0 < b) : divNearest (q * b) b = q := by
  rcases divNearest_cases (q * b) b with ⟨_, h⟩ | ⟨h, _⟩ | ⟨h, _⟩
  · rw [h, Nat.mul_div_cancel _ hb]
  · rw [Nat.mul_mod_left] at h; omega
  · rw [Nat.mul_mod_left] at h; omega

/-- The places dropped leave a significand of 53 bits, and of exactly 53 where any is dropped. -/
theorem placesDropped_spec (n : Nat) :
    n < 2 ^ (placesDropped n + 53) ∧ (placesDropped n = 0 ∨ 2 ^ (placesDropped n + 52) ≤ n) := by
  unfold placesDropped
  rcases Nat.eq_zero_or_pos n with rfl | hn
  · exact ⟨Nat.two_pow_pos _, .inl rfl⟩
  · refine ⟨Nat.lt_of_lt_of_le Nat.lt_log2_self (Nat.pow_le_pow_right (by decide) (by omega)), ?_⟩
    rcases Nat.lt_or_ge 52 n.log2 with h | h
    · right
      rw [show n.log2 - 52 + 52 = n.log2 by omega]
      exact Nat.log2_self_le (by omega)
    · left; omega

/-- The rounded significand and its place. -/
theorem divNearest_bounds (a b : Nat) :
    divNearest a (b * 2 ^ placesDropped (a / b)) ≤ 2 ^ 53 ∧
      (placesDropped (a / b) = 0 ∨ 2 ^ 52 ≤ divNearest a (b * 2 ^ placesDropped (a / b))) := by
  obtain ⟨h1, h2⟩ := placesDropped_spec (a / b)
  generalize placesDropped (a / b) = s at *
  have hq : a / (b * 2 ^ s) = a / b / 2 ^ s := (Nat.div_div_eq_div_mul a b (2 ^ s)).symm
  have hlt : a / b / 2 ^ s < 2 ^ 53 := by
    rw [Nat.div_lt_iff_lt_mul (Nat.two_pow_pos s), ← Nat.pow_add, Nat.add_comm]
    exact h1
  have hge : s = 0 ∨ 2 ^ 52 ≤ a / b / 2 ^ s := by
    refine h2.imp_right fun h => ?_
    rw [Nat.le_div_iff_mul_le (Nat.two_pow_pos s), ← Nat.pow_add, Nat.add_comm]
    exact h
  rcases divNearest_cases a (b * 2 ^ s) with ⟨_, h⟩ | ⟨_, h⟩ | ⟨_, h⟩ <;> rw [h, hq]
  · omega
  · omega
  · have := Nat.mod_lt (a / b / 2 ^ s) (show 2 > 0 by decide)
    omega

/-- R125: the value of a rounded result, where it is finite. -/
theorem unitsMag_roundMag {a b : Nat} (h : roundMag a b < infMag) :
    unitsMag (roundMag a b) = divNearest a (b * 2 ^ placesDropped (a / b)) * 2 ^ placesDropped (a / b) := by
  obtain ⟨h1, h2⟩ := divNearest_bounds a b
  have hr : roundMag a b = placesDropped (a / b) * 2 ^ 52 + divNearest a (b * 2 ^ placesDropped (a / b)) := by
    unfold roundMag at h ⊢
    simp only at h ⊢
    omega
  rw [hr, unitsMag_assembled h1 h2]

theorem roundMag_le (a b : Nat) : roundMag a b ≤ infMag := Nat.min_le_right _ _

theorem roundMag_lt (a b : Nat) : roundMag a b < 2 ^ 63 :=
  Nat.lt_of_le_of_lt (roundMag_le a b) (by decide +kernel)

/-- A value of the format is not rounded. -/
theorem roundMag_exact {m b : Nat} (hm : m < infMag) (hb : 0 < b) : roundMag (unitsMag m * b) b = m := by
  have key : ∀ s q, q < 2 ^ 53 → (s = 0 ∨ 2 ^ 52 ≤ q) → s * 2 ^ 52 + q ≤ infMag →
      roundMag (q * 2 ^ s * b) b = s * 2 ^ 52 + q := by
    intro s q hq h hle
    have hs : placesDropped (q * 2 ^ s * b / b) = s := by
      rw [Nat.mul_div_cancel _ hb]
      rcases h with rfl | h
      · unfold placesDropped
        rw [Nat.pow_zero, Nat.mul_one]
        rcases Nat.eq_zero_or_pos q with rfl | hq0
        · rfl
        · have := (Nat.log2_lt (by omega)).mpr hq
          omega
      · unfold placesDropped
        have h1 : (q * 2 ^ s).log2 = s + 52 := by
          rw [Nat.log2_eq_iff (by positivity)]
          constructor
          · rw [Nat.pow_add, Nat.mul_comm]; exact Nat.mul_le_mul_right _ h
          · rw [show s + 52 + 1 = s + 53 by omega, Nat.pow_add, Nat.mul_comm (2 ^ s)]
            exact Nat.mul_lt_mul_of_pos_right hq (Nat.two_pow_pos s)
        rw [h1]; omega
    unfold roundMag
    simp only [hs]
    rw [show q * 2 ^ s * b = q * (b * 2 ^ s) by ring, divNearest_mul _ (by positivity)]
    omega
  unfold unitsMag
  split
  · have := key 0 (m % 2 ^ 52) (by omega) (.inl rfl) (by omega)
    rw [Nat.pow_zero, Nat.mul_one] at this
    rw [this]; omega
  · rw [key (m / 2 ^ 52 - 1) (2 ^ 52 + m % 2 ^ 52) (by omega) (.inr (by omega)) (by omega)]
    omega

/-- Every significand of up to 53 bits at every place of the format is the value of a finite magnitude. -/
theorem exists_unitsMag {q : Nat} (hq : q < 2 ^ 53) {s : Nat} (hs : s ≤ 2045) :
    ∃ m, m < infMag ∧ unitsMag m = q * 2 ^ s := by
  induction s generalizing q with
  | zero => exact ⟨0 * 2 ^ 52 + q, by unfold infMag; omega, unitsMag_assembled (by omega) (.inl rfl)⟩
  | succ s ih =>
    rcases Nat.lt_or_ge q (2 ^ 52) with h | h
    · obtain ⟨m, hm, he⟩ := ih (q := 2 * q) (by omega) (by omega)
      exact ⟨m, hm, by rw [he, Nat.pow_succ]; ring⟩
    · exact ⟨(s + 1) * 2 ^ 52 + q, by unfold infMag; omega, unitsMag_assembled (by omega) (.inr h)⟩

/-- A finite magnitude is a significand of up to 53 bits at a place of the format. -/
theorem unitsMag_shape {m : Nat} (hm : m < infMag) : ∃ q s, q < 2 ^ 53 ∧ s ≤ 2045 ∧ unitsMag m = q * 2 ^ s := by
  unfold unitsMag
  unfold infMag at hm
  split
  · exact ⟨m % 2 ^ 52, 0, by omega, by omega, by simp⟩
  · exact ⟨2 ^ 52 + m % 2 ^ 52, m / 2 ^ 52 - 1, by omega, by omega, rfl⟩

/-- The largest finite value. -/
theorem unitsMag_le_max {m : Nat} (hm : m < infMag) : unitsMag m ≤ (2 ^ 53 - 1) * 2 ^ 2045 := by
  rw [← unitsMag_assembled (s := 2045) (q := 2 ^ 53 - 1) (by omega) (.inr (by omega))]
  exact unitsMag_strictMono.monotone (by unfold infMag at hm; omega)

/-! ### Values -/

theorem valueOf_ofMag (neg : Bool) {m : Nat} (h : m < 2 ^ 63) :
    valueOf (ofMag neg m) = if neg then -(unitsMag m : Int) else unitsMag m := by
  rw [valueOf, signOf_ofMag neg h, unitsOf_eq, magOf_ofMag neg h]

theorem natAbs_valueOf (x : Num64) : (valueOf x).natAbs = unitsOf x := by
  unfold valueOf
  split <;> simp

theorem valueOf_of_pos {x : Num64} (h : signOf x = false) : valueOf x = unitsMag (magOf x) := by
  rw [valueOf, h, unitsOf_eq]; rfl

theorem valueOf_of_neg {x : Num64} (h : signOf x = true) : valueOf x = -(unitsMag (magOf x) : Int) := by
  rw [valueOf, h, unitsOf_eq]; rfl

@[simp] theorem signOf_fneg (x : Num64) : signOf (fneg x) = !signOf x := by simp [signOf, fneg]

@[simp] theorem magOf_fneg (x : Num64) : magOf (fneg x) = magOf x := by
  unfold magOf fneg
  congr 1
  apply BitVec.eq_of_getLsbD_eq
  intro i hi
  simp only [BitVec.getLsbD_extractLsb', BitVec.getLsbD_xor, Nat.zero_add]
  interval_cases i <;> simp

theorem valueOf_fneg (x : Num64) : valueOf (fneg x) = -valueOf x := by
  rw [valueOf, valueOf, unitsOf_eq, unitsOf_eq, signOf_fneg, magOf_fneg]
  cases signOf x <;> simp

@[simp] theorem isFinite_fneg (x : Num64) : isFinite (fneg x) = isFinite x := by
  rw [Bool.eq_iff_iff, isFinite_iff, isFinite_iff, magOf_fneg]

@[simp] theorem isNaN_fneg (x : Num64) : isNaN (fneg x) = isNaN x := by
  rw [Bool.eq_iff_iff, isNaN_iff, isNaN_iff, magOf_fneg]

/-! ### The operations on finite numbers -/

theorem sumWith_finite (nan : Num64) {x y : Num64} (hx : isFinite x = true) (hy : isFinite y = true) :
    sumWith nan x y = sumFinite x y := by
  unfold sumWith
  simp [isNaN_of_isFinite hx, isNaN_of_isFinite hy, isInf_of_isFinite hx, isInf_of_isFinite hy]

theorem fadd_finite {x y : Num64} (hx : isFinite x = true) (hy : isFinite y = true) : fadd x y = sumFinite x y :=
  sumWith_finite _ hx hy

theorem fsub_finite {x y : Num64} (hx : isFinite x = true) (hy : isFinite y = true) :
    fsub x y = sumFinite x (fneg y) :=
  sumWith_finite _ hx (by rw [isFinite_fneg]; exact hy)

theorem fmul_finite {x y : Num64} (hx : isFinite x = true) (hy : isFinite y = true) :
    fmul x y = ofMag (signOf x != signOf y) (roundMag (unitsOf x * unitsOf y) (2 ^ unitExp)) := by
  unfold fmul
  simp only [isNaN_of_isFinite hx, isNaN_of_isFinite hy, isInf_of_isFinite hx, isInf_of_isFinite hy, Bool.or_false,
    Bool.false_eq_true, if_false]

theorem fdiv_finite {x y : Num64} (hx : isFinite x = true) (hy : isFinite y = true) (h0 : isZero y = false) :
    fdiv x y = ofMag (signOf x != signOf y) (roundMag (unitsOf x * 2 ^ unitExp) (unitsOf y)) := by
  unfold fdiv
  simp only [isNaN_of_isFinite hx, isNaN_of_isFinite hy, isInf_of_isFinite hx, isInf_of_isFinite hy, h0,
    Bool.or_false, Bool.false_eq_true, if_false]

/-- A sum whose exact value is one of the format is exact. -/
theorem sumFinite_exact {x y : Num64} {m : Nat} (hm : m < infMag)
    (h : (valueOf x + valueOf y).natAbs = unitsMag m) :
    isFinite (sumFinite x y) = true ∧ valueOf (sumFinite x y) = valueOf x + valueOf y := by
  have hr := roundMag_exact hm (b := 1) (by decide)
  rw [Nat.mul_one] at hr
  have hm' : m < 2 ^ 63 := by unfold infMag at hm; omega
  unfold sumFinite
  simp only [h, hr]
  refine ⟨isFinite_ofMag _ hm, ?_⟩
  rw [valueOf_ofMag _ hm']
  by_cases hz : valueOf x + valueOf y = 0
  · have h0 : unitsMag m = 0 := by rw [← h, hz]; rfl
    rw [h0, hz]
    split <;> simp
  · rw [if_neg hz, ← h]
    by_cases hn : valueOf x + valueOf y < 0
    · rw [decide_eq_true hn, if_pos rfl]; omega
    · rw [decide_eq_false hn]
      simp only [Bool.false_eq_true, if_false]
      omega

/-! ### Comparison -/

/-- The order of the bits is the order of the values. -/
theorem valueOf_lt_iff (x y : Num64) : valueOf x < valueOf y ↔ orderKey x < orderKey y := by
  have h1 : unitsMag (magOf x) < unitsMag (magOf y) ↔ magOf x < magOf y := unitsMag_strictMono.lt_iff_lt
  have h2 : unitsMag (magOf y) < unitsMag (magOf x) ↔ magOf y < magOf x := unitsMag_strictMono.lt_iff_lt
  have h3 : unitsMag 0 < unitsMag (magOf x) ↔ 0 < magOf x := unitsMag_strictMono.lt_iff_lt
  have h4 : unitsMag 0 < unitsMag (magOf y) ↔ 0 < magOf y := unitsMag_strictMono.lt_iff_lt
  rw [unitsMag_zero] at h3 h4
  unfold valueOf orderKey
  rw [unitsOf_eq, unitsOf_eq]
  cases signOf x <;> cases signOf y <;> simp only [Bool.false_eq_true, if_true, if_false] <;> omega

theorem numLt_finite {x y : Num64} (hx : isFinite x = true) (hy : isFinite y = true) :
    numLt x y = decide (valueOf x < valueOf y) := by
  simp [numLt, isNaN_of_isFinite hx, isNaN_of_isFinite hy, valueOf_lt_iff]

theorem numLe_finite {x y : Num64} (hx : isFinite x = true) (hy : isFinite y = true) :
    numLe x y = decide (valueOf x ≤ valueOf y) := by
  have h := valueOf_lt_iff y x
  rw [numLe, isNaN_of_isFinite hx, isNaN_of_isFinite hy]
  simp only [Bool.not_false, Bool.true_and]
  rw [decide_eq_decide]
  omega

/-! ### The constants as values -/

theorem valueOf_zeroNum : valueOf zeroNum = 0 := by decide

theorem valueOf_oneNum : valueOf oneNum = 2 ^ unitExp := by decide +kernel

/-! ### The smoothing and the headroom factor -/

/-- A number of `Config.unitNum` is above 0 and at most 1. -/
theorem unitNum_bounds (k : Fin 0x3FF0000000000000) :
    numLt zeroNum (Config.unitNum k) = true ∧ numLe (Config.unitNum k) oneNum = true := by
  have hk := k.isLt
  have hb : (Config.unitNum k).toNat = k.val + 1 := by
    rw [Config.unitNum, BitVec.toNat_ofNat]
    omega
  have hm := toNat_eq_magOf_add (Config.unitNum k)
  have hlt := magOf_lt (Config.unitNum k)
  have hs : signOf (Config.unitNum k) = false := by
    cases h : signOf (Config.unitNum k)
    · rfl
    · rw [h, if_pos rfl] at hm; omega
  rw [hs] at hm
  simp only [Bool.false_eq_true, if_false, Nat.add_zero] at hm
  have hn : isNaN (Config.unitNum k) = false := by
    rw [← Bool.not_eq_true, isNaN_iff]
    unfold infMag
    omega
  have h0 : orderKey zeroNum = 0 ∧ isNaN zeroNum = false := by decide
  have h1 : orderKey oneNum = 0x3FF0000000000000 ∧ isNaN oneNum = false := by decide
  have hkey : orderKey (Config.unitNum k) = (magOf (Config.unitNum k) : Int) := by rw [orderKey, hs]; rfl
  refine ⟨?_, ?_⟩
  · rw [numLt, h0.2, hn, h0.1, hkey]
    simp only [Bool.not_false, Bool.true_and, decide_eq_true_eq]
    omega
  · rw [numLe, h1.2, hn, h1.1, hkey]
    simp only [Bool.not_false, Bool.true_and, decide_eq_true_eq]
    omega

/-- Every number above 0 and at most 1 is one of `Config.unitNum`. -/
theorem exists_unitNum (x : Num64) (h0 : numLt zeroNum x = true) (h1 : numLe x oneNum = true) :
    ∃ k, Config.unitNum k = x := by
  have hz : orderKey zeroNum = 0 := by decide
  have ho : orderKey oneNum = 0x3FF0000000000000 := by decide
  simp only [numLt, hz, Bool.and_eq_true, decide_eq_true_eq] at h0
  simp only [numLe, ho, Bool.and_eq_true, decide_eq_true_eq] at h1
  have hm := toNat_eq_magOf_add x
  have hs : signOf x = false := by
    cases h : signOf x
    · rfl
    · have := h0.2; rw [orderKey, h, if_pos rfl] at this; omega
  have hkey : orderKey x = (magOf x : Int) := by rw [orderKey, hs]; rfl
  rw [hs] at hm
  simp only [Bool.false_eq_true, if_false, Nat.add_zero] at hm
  rw [hkey] at h0 h1
  refine ⟨⟨x.toNat - 1, by omega⟩, BitVec.eq_of_toNat_eq ?_⟩
  rw [Config.unitNum, BitVec.toNat_ofNat]
  have := x.isLt
  show (x.toNat - 1 + 1) % 2 ^ 64 = x.toNat
  omega
/-- R6: `0 < HEADROOM <= 1`. -/
theorem headroom_bounds : numLt zeroNum Config.headroom = true ∧ numLe Config.headroom oneNum = true :=
  unitNum_bounds Config.headroomStep

/-- R172: `0 < SmoothK(sr) <= 1`. -/
theorem smoothK_bounds (sr : Num64) :
    numLt zeroNum (Config.smoothK sr) = true ∧ numLe (Config.smoothK sr) oneNum = true :=
  unitNum_bounds (Config.smoothKStep sr)

/-! ### The NaN an operation delivers -/

/-- R125: whatever its open bits are, it is a NaN. -/
theorem isNaN_quietNaN (free : BitVec 52) : isNaN (quietNaN free) = true := by
  have he : (quietNaN free).extractLsb' 52 11 = 2047 := by
    apply BitVec.eq_of_getLsbD_eq
    intro i hi
    simp only [quietNaN, BitVec.getLsbD_extractLsb', BitVec.getLsbD_append]
    interval_cases i <;> simp
  have hf : ((quietNaN free).extractLsb' 0 52).getLsbD 51 = true := by
    simp only [quietNaN, BitVec.getLsbD_extractLsb', BitVec.getLsbD_append]
    simp
  have hn : (quietNaN free).extractLsb' 0 52 ≠ 0 := fun h => by rw [h] at hf; simp at hf
  have h0 : fracField (quietNaN free) ≠ 0 := fun h => hn (BitVec.eq_of_toNat_eq h)
  simp only [isNaN, expField, he, Bool.and_eq_true, bne_iff_ne, ne_eq, h0, not_false_eq_true, and_true]
  decide

@[simp] theorem isNaN_nanOf (op : FpOp) (x y : Num64) : isNaN (nanOf op x y) = true := isNaN_quietNaN _

/-- R125: a number that is not finite is an infinity or a NaN. -/
theorem isNaN_or_isInf {x : Num64} (h : isFinite x = false) : isNaN x = true ∨ isInf x = true := by
  rw [← Bool.not_eq_true, isFinite_iff] at h
  rw [isNaN_iff, isInf_iff]
  omega

theorem isFinite_of_isNaN {x : Num64} (h : isNaN x = true) : isFinite x = false := by
  cases hf : isFinite x
  · rfl
  · rw [isNaN_of_isFinite hf] at h; exact h.symm

theorem isFinite_of_isInf {x : Num64} (h : isInf x = true) : isFinite x = false := by
  cases hf : isFinite x
  · rfl
  · rw [isInf_of_isFinite hf] at h; exact h.symm

/-- R125: a sum with an operand that is not finite is not finite. -/
theorem isFinite_fadd {x y : Num64} (h : isFinite x = false ∨ isFinite y = false) : isFinite (fadd x y) = false := by
  unfold fadd sumWith
  split
  · exact isFinite_of_isNaN (isNaN_nanOf _ _ _)
  · rename_i hn
    simp only [Bool.or_eq_true, not_or, Bool.not_eq_true] at hn
    split
    · split
      · exact isFinite_of_isNaN (isNaN_nanOf _ _ _)
      · exact isFinite_of_isInf ‹_›
    · split
      · exact isFinite_of_isInf ‹_›
      · rcases h with h | h
        · rcases isNaN_or_isInf h with h | h <;> simp_all
        · rcases isNaN_or_isInf h with h | h <;> simp_all

/-- R128: `wrap` of an infinity or a NaN is a NaN. -/
theorem isNaN_wrapNum {t : Num64} (h : isFinite t = false) : isNaN (wrapNum t) = true := by
  have hf : floorNum t = t := by unfold floorNum; simp [h]
  rw [wrapNum, hf, fsub, sumWith]
  split
  · exact isNaN_nanOf _ _ _
  · rename_i hn
    have hi : isInf t = true := by rcases isNaN_or_isInf h with h | h <;> simp_all
    have hi' : isInf (fneg t) = true := by rw [isInf_iff, magOf_fneg]; exact (isInf_iff t).mp hi
    simp [hi, hi']

end Sys2Proof.Machine
end

