-- ==== Sys2Proof/Laws/PerInstr.lean ====
section
/-! SUPPORT. The family `EncodedRow`: the word the encoder writes for an instruction is one of its row in
spec/opcode_table.json. -/

namespace Sys2Proof.Laws.EncodedRow

/-- The encoded word of a well-formed instruction has the width, the mask and the pattern of its row. -/
def Statement (i : Instr) : Prop := i.wellFormed = true → (rowOf i).holds (encode i).word

/-- A mask and a pattern may be read on the word itself. -/
theorem holds_of_and (w : BitVec 24) (mask pattern : Nat) (hm : mask < 2 ^ 24) (hp : pattern < 2 ^ 24)
    (h : w &&& BitVec.ofNat 24 mask = BitVec.ofNat 24 pattern) : (evRow mask pattern).holds (.ev w) := by
  refine ⟨rfl, ?_⟩
  have := congrArg BitVec.toNat h
  rwa [BitVec.toNat_and, BitVec.toNat_ofNat, BitVec.toNat_ofNat, Nat.mod_eq_of_lt hm, Nat.mod_eq_of_lt hp] at this

/-- The rows that fix the status and the top bit of each data byte. -/
theorem status_row (st ch : BitVec 4) (d1 d2 : Data7) :
    evWord st ch d1 d2 &&& 0xF08080 = evWord st 0 0 0 := by
  apply BitVec.eq_of_getLsbD_eq
  intro i hi
  simp only [evWord, BitVec.getLsbD_and, BitVec.getLsbD_append]
  interval_cases i <;> simp

/-- The row that fixes the second data byte too. -/
theorem velocity_row (st ch : BitVec 4) (d1 d2 : Data7) :
    evWord st ch d1 d2 &&& 0xF080FF = evWord st 0 0 d2 := by
  apply BitVec.eq_of_getLsbD_eq
  intro i hi
  simp only [evWord, BitVec.getLsbD_and, BitVec.getLsbD_append]
  interval_cases i <;> simp

/-- The row that fixes the first data byte too. -/
theorem controller_row (st ch : BitVec 4) (d1 d2 : Data7) :
    evWord st ch d1 d2 &&& 0xF0FF80 = evWord st 0 d1 0 := by
  apply BitVec.eq_of_getLsbD_eq
  intro i hi
  simp only [evWord, BitVec.getLsbD_and, BitVec.getLsbD_append]
  interval_cases i <;> simp

/-- The row that fixes the top bit of each byte. -/
theorem top_row (st : BitVec 3) (ch : BitVec 4) (d1 d2 : Data7) :
    evWord (st.setWidth 4) ch d1 d2 &&& 0x808080 = 0 := by
  apply BitVec.eq_of_getLsbD_eq
  intro i hi
  simp only [evWord, BitVec.getLsbD_and, BitVec.getLsbD_append]
  interval_cases i <;> simp

/-- A command word is its own row. -/
theorem hc_row (cmd sub : BitVec 8) (ops : List Slot) :
    (hcRow (hcWord cmd sub).toNat).holds (hcItem cmd sub ops).word := by
  refine ⟨rfl, ?_⟩
  have h := (hcWord cmd sub).isLt
  exact (Nat.and_two_pow_sub_one_eq_mod _ 16).trans (Nat.mod_eq_of_lt h)

/-- A selector is its own row. -/
theorem uop_row (w : BitVec 8) (ops : List Slot) : (uopRow w.toNat).holds (uopItem w ops).word :=
  ⟨rfl, (Nat.and_two_pow_sub_one_eq_mod _ 8).trans (Nat.mod_eq_of_lt w.isLt)⟩

/-- An event of the status row. -/
theorem holds_status (st ch : BitVec 4) (d1 d2 : Data7) (off : Idx) (pattern : Nat) (hp : pattern < 2 ^ 24)
    (h : evWord st 0 0 0 = BitVec.ofNat 24 pattern) :
    (evRow 0xF08080 pattern).holds (evItem st ch d1 d2 off).word :=
  holds_of_and _ _ _ (by decide) hp ((status_row st ch d1 d2).trans h)

theorem noteOn (ch : BitVec 4) (note vel : Data7) (off : Idx) :
    Statement (.noteOn ch note vel off) := fun _ =>
  holds_status _ _ _ _ off _ (by decide) (by decide)
theorem noteOnV0 (ch : BitVec 4) (note : Data7) (off : Idx) : Statement (.noteOnV0 ch note off) := fun _ =>
  holds_of_and _ _ _ (by decide) (by decide) ((velocity_row _ _ _ _).trans (by decide))
theorem noteOff (ch : BitVec 4) (note vel : Data7) (off : Idx) :
    Statement (.noteOff ch note vel off) := fun _ =>
  holds_status _ _ _ _ off _ (by decide) (by decide)
theorem ccAllNotesOff (ch : BitVec 4) (value : Data7) (off : Idx) :
    Statement (.ccAllNotesOff ch value off) := fun _ =>
  holds_of_and _ _ _ (by decide) (by decide) ((controller_row _ _ _ _).trans (by decide))
theorem ccOther (ch : BitVec 4) (c value : Data7) (off : Idx) :
    Statement (.ccOther ch c value off) := fun _ =>
  holds_status _ _ _ _ off _ (by decide) (by decide)
theorem polyPressure (ch : BitVec 4) (d1 d2 : Data7) (off : Idx) :
    Statement (.polyPressure ch d1 d2 off) := fun _ =>
  holds_status _ _ _ _ off _ (by decide) (by decide)
theorem programChange (ch : BitVec 4) (d1 d2 : Data7) (off : Idx) :
    Statement (.programChange ch d1 d2 off) := fun _ =>
  holds_status _ _ _ _ off _ (by decide) (by decide)
theorem channelPressure (ch : BitVec 4) (d1 d2 : Data7) (off : Idx) :
    Statement (.channelPressure ch d1 d2 off) := fun _ =>
  holds_status _ _ _ _ off _ (by decide) (by decide)
theorem pitchBend (ch : BitVec 4) (d1 d2 : Data7) (off : Idx) :
    Statement (.pitchBend ch d1 d2 off) := fun _ =>
  holds_status _ _ _ _ off _ (by decide) (by decide)
theorem system (ch : BitVec 4) (d1 d2 : Data7) (off : Idx) :
    Statement (.system ch d1 d2 off) := fun _ =>
  holds_status _ _ _ _ off _ (by decide) (by decide)
theorem notAStatus (st : BitVec 3) (ch : BitVec 4) (d1 d2 : Data7) (off : Idx) :
    Statement (.notAStatus st ch d1 d2 off) := fun _ =>
  holds_of_and _ _ _ (by decide) (by decide) (top_row _ _ _ _)
theorem setsr (sr : Num64) : Statement (.setsr sr) := fun _ => hc_row 1 0 _
theorem setbs (n : Idx) : Statement (.setbs n) := fun _ => hc_row 2 0 _
theorem enq (ev : BitVec 24) (off : Idx) : Statement (.enq ev off) := fun _ => hc_row 3 0 _
theorem setpCutoff (x : Num64) : Statement (.setpCutoff x) := fun _ => hc_row 4 0 _
theorem setpResonance (x : Num64) : Statement (.setpResonance x) := fun _ => hc_row 4 1 _
theorem setpAttack (x : Num64) : Statement (.setpAttack x) := fun _ => hc_row 4 2 _
theorem setpDecay (x : Num64) : Statement (.setpDecay x) := fun _ => hc_row 4 3 _
theorem setpSustain (x : Num64) : Statement (.setpSustain x) := fun _ => hc_row 4 4 _
theorem setpRelease (x : Num64) : Statement (.setpRelease x) := fun _ => hc_row 4 5 _
theorem setpLfoRate (x : Num64) : Statement (.setpLfoRate x) := fun _ => hc_row 4 6 _
theorem setpLfoDepth (x : Num64) : Statement (.setpLfoDepth x) := fun _ => hc_row 4 7 _
theorem setpEnvEnable (x : Num64) : Statement (.setpEnvEnable x) := fun _ => hc_row 4 8 _
theorem setpBypass (x : Num64) : Statement (.setpBypass x) := fun _ => hc_row 4 9 _
theorem render (n : Idx) (ws : List TargetWrite) : Statement (.render n ws) := fun _ => hc_row 5 0 _
theorem reset : Statement (.reset) := fun _ => hc_row 6 0 _
theorem oscSetFrequency (x : Num64) : Statement (.oscSetFrequency x) := fun _ => uop_row _ _
theorem oscSetSampleRate (x : Num64) : Statement (.oscSetSampleRate x) := fun _ => uop_row _ _
theorem oscReset : Statement (.oscReset) := fun _ => uop_row _ _
theorem oscNextSample : Statement (.oscNextSample) := fun _ => uop_row _ _
theorem lfoSetFrequency (x : Num64) : Statement (.lfoSetFrequency x) := fun _ => uop_row _ _
theorem lfoSetAmplitude (x : Num64) : Statement (.lfoSetAmplitude x) := fun _ => uop_row _ _
theorem lfoSetSampleRate (x : Num64) : Statement (.lfoSetSampleRate x) := fun _ => uop_row _ _
theorem lfoReset : Statement (.lfoReset) := fun _ => uop_row _ _
theorem lfoNextSample : Statement (.lfoNextSample) := fun _ => uop_row _ _
theorem fltSetCutoffFrequency (x : Num64) : Statement (.fltSetCutoffFrequency x) := fun _ => uop_row _ _
theorem fltSetResonance (x : Num64) : Statement (.fltSetResonance x) := fun _ => uop_row _ _
theorem fltSetSampleRate (x : Num64) : Statement (.fltSetSampleRate x) := fun _ => uop_row _ _
theorem fltReset : Statement (.fltReset) := fun _ => uop_row _ _
theorem fltUpdateCoefficients : Statement (.fltUpdateCoefficients) := fun _ => uop_row _ _
theorem fltProcess (x : Num64) : Statement (.fltProcess x) := fun _ => uop_row _ _
theorem envValue (x : Num64) : Statement (.envValue x) := fun _ => uop_row _ _
theorem envAttack : Statement (.envAttack) := fun _ => uop_row _ _
theorem envSetAttackTime (x : Num64) : Statement (.envSetAttackTime x) := fun _ => uop_row _ _
theorem envSetDecayTime (x : Num64) : Statement (.envSetDecayTime x) := fun _ => uop_row _ _
theorem envSetSustainLevel (x : Num64) : Statement (.envSetSustainLevel x) := fun _ => uop_row _ _
theorem envSetReleaseTime (x : Num64) : Statement (.envSetReleaseTime x) := fun _ => uop_row _ _
theorem voiceProcess (base : Idx) (n : Idx) (gate : Bool) : Statement (.voiceProcess base n gate) := fun _ =>
  uop_row _ _
theorem voiceReset : Statement (.voiceReset) := fun _ => uop_row _ _
theorem voiceSetEnvelopeEnabled (b : Bool) : Statement (.voiceSetEnvelopeEnabled b) := fun _ => uop_row _ _
theorem voiceSetGlobalBypass (b : Bool) : Statement (.voiceSetGlobalBypass b) := fun _ => uop_row _ _
theorem voiceSetCutoff (x : Num64) : Statement (.voiceSetCutoff x) := fun _ => uop_row _ _
theorem voiceSetSampleRate (x : Num64) : Statement (.voiceSetSampleRate x) := fun _ => uop_row _ _
theorem schDrain : Statement (.schDrain) := fun _ => uop_row _ _
theorem schGate : Statement (.schGate) := fun _ => uop_row _ _
theorem schCopyChannels (n : Idx) : Statement (.schCopyChannels n) := fun _ => uop_row _ _

end Sys2Proof.Laws.EncodedRow
end

