-- ==== Sys2Proof/Laws/State.lean ====
section
/-! SUPPORT. What each named update of the state writes and leaves, field by field. -/

namespace Sys2Proof.Machine

/-! ### The machine's configuration (R6): the full variant -/

@[simp] theorem params_num : Config.params.num = Config.numerics := rfl
@[simp] theorem params_smoothK : Config.params.smoothK = Config.smoothK := rfl
@[simp] theorem params_headroom : Config.params.headroom = Config.headroom := rfl
@[simp] theorem params_nch : Config.params.nch = Config.nch := rfl
@[simp] theorem params_hasLfo : Config.params.hasLfo = true := rfl
@[simp] theorem params_hasEnv : Config.params.hasEnv = true := rfl
@[simp] theorem params_hasFilter : Config.params.hasFilter = true := rfl
@[simp] theorem params_shape : Config.params.shape = .saw := rfl
@[simp] theorem numerics_sin : Config.numerics.sin = Config.sin := rfl
@[simp] theorem numerics_cos : Config.numerics.cos = Config.cos := rfl
@[simp] theorem numerics_exp : Config.numerics.exp = Config.exp := rfl
@[simp] theorem numerics_pow2 : Config.numerics.pow2 = Config.pow2 := rfl
@[simp] theorem numerics_pow10 : Config.numerics.pow10 = Config.pow10 := rfl

/-! ### `setNumResult` -/

section
variable (x : Num64) (s : State)

@[simp] theorem setNumResult_osc : (setNumResult x s).osc = s.osc := rfl
@[simp] theorem setNumResult_lfo : (setNumResult x s).lfo = s.lfo := rfl
@[simp] theorem setNumResult_flt : (setNumResult x s).flt = s.flt := rfl
@[simp] theorem setNumResult_env : (setNumResult x s).env = s.env := rfl
@[simp] theorem setNumResult_v : (setNumResult x s).v = s.v := rfl
@[simp] theorem setNumResult_sch : (setNumResult x s).sch = s.sch := rfl
@[simp] theorem setNumResult_q : (setNumResult x s).q = s.q := rfl
@[simp] theorem setNumResult_cfg : (setNumResult x s).cfg = s.cfg := rfl
@[simp] theorem setNumResult_out : (setNumResult x s).out = s.out := rfl
@[simp] theorem setNumResult_faults : (setNumResult x s).faults = s.faults := rfl
@[simp] theorem setNumResult_res : (setNumResult x s).res = { s.res with num := x } := rfl
@[simp] theorem setNumResult_port : (setNumResult x s).port = s.port := rfl

end

/-! ### `setFlagResult` -/

section
variable (b : Bool) (s : State)

@[simp] theorem setFlagResult_osc : (setFlagResult b s).osc = s.osc := rfl
@[simp] theorem setFlagResult_lfo : (setFlagResult b s).lfo = s.lfo := rfl
@[simp] theorem setFlagResult_flt : (setFlagResult b s).flt = s.flt := rfl
@[simp] theorem setFlagResult_env : (setFlagResult b s).env = s.env := rfl
@[simp] theorem setFlagResult_v : (setFlagResult b s).v = s.v := rfl
@[simp] theorem setFlagResult_sch : (setFlagResult b s).sch = s.sch := rfl
@[simp] theorem setFlagResult_q : (setFlagResult b s).q = s.q := rfl
@[simp] theorem setFlagResult_cfg : (setFlagResult b s).cfg = s.cfg := rfl
@[simp] theorem setFlagResult_out : (setFlagResult b s).out = s.out := rfl
@[simp] theorem setFlagResult_faults : (setFlagResult b s).faults = s.faults := rfl
@[simp] theorem setFlagResult_res : (setFlagResult b s).res = { s.res with flag := b } := rfl
@[simp] theorem setFlagResult_port : (setFlagResult b s).port = s.port := rfl

end

/-! ### `takeItem` -/

section
variable (it : PortItem) (rest : List PortItem) (s : State)

@[simp] theorem takeItem_osc : (takeItem it rest s).osc = s.osc := rfl
@[simp] theorem takeItem_lfo : (takeItem it rest s).lfo = s.lfo := rfl
@[simp] theorem takeItem_flt : (takeItem it rest s).flt = s.flt := rfl
@[simp] theorem takeItem_env : (takeItem it rest s).env = s.env := rfl
@[simp] theorem takeItem_v : (takeItem it rest s).v = s.v := rfl
@[simp] theorem takeItem_sch : (takeItem it rest s).sch = s.sch := rfl
@[simp] theorem takeItem_q : (takeItem it rest s).q = s.q := rfl
@[simp] theorem takeItem_cfg : (takeItem it rest s).cfg = s.cfg := rfl
@[simp] theorem takeItem_out : (takeItem it rest s).out = s.out := rfl
@[simp] theorem takeItem_faults : (takeItem it rest s).faults = s.faults := rfl
@[simp] theorem takeItem_res : (takeItem it rest s).res = s.res := rfl
@[simp] theorem takeItem_port : (takeItem it rest s).port = { pending := rest, during := it.during } := rfl

end

/-! ### `presentItem` -/

section
variable (it : PortItem) (s : State)

@[simp] theorem presentItem_osc : (presentItem it s).osc = s.osc := rfl
@[simp] theorem presentItem_lfo : (presentItem it s).lfo = s.lfo := rfl
@[simp] theorem presentItem_flt : (presentItem it s).flt = s.flt := rfl
@[simp] theorem presentItem_env : (presentItem it s).env = s.env := rfl
@[simp] theorem presentItem_v : (presentItem it s).v = s.v := rfl
@[simp] theorem presentItem_sch : (presentItem it s).sch = s.sch := rfl
@[simp] theorem presentItem_q : (presentItem it s).q = s.q := rfl
@[simp] theorem presentItem_cfg : (presentItem it s).cfg = s.cfg := rfl
@[simp] theorem presentItem_out : (presentItem it s).out = s.out := rfl
@[simp] theorem presentItem_faults : (presentItem it s).faults = s.faults := rfl
@[simp] theorem presentItem_res : (presentItem it s).res = s.res := rfl
@[simp] theorem presentItem_port : (presentItem it s).port = { s.port with pending := it :: s.port.pending } := rfl

end

/-! ### `renderEntry` -/

section
variable (s : State)

@[simp] theorem renderEntry_osc : (renderEntry s).osc = s.osc := rfl
@[simp] theorem renderEntry_lfo : (renderEntry s).lfo = s.lfo := rfl
@[simp] theorem renderEntry_flt : (renderEntry s).flt = s.flt := rfl
@[simp] theorem renderEntry_env : (renderEntry s).env = s.env := rfl
@[simp] theorem renderEntry_v : (renderEntry s).v = s.v := rfl
@[simp] theorem renderEntry_q : (renderEntry s).q = s.q := rfl
@[simp] theorem renderEntry_cfg : (renderEntry s).cfg = s.cfg := rfl
@[simp] theorem renderEntry_faults : (renderEntry s).faults = s.faults := rfl
@[simp] theorem renderEntry_res : (renderEntry s).res = s.res := rfl
@[simp] theorem renderEntry_port : (renderEntry s).port = s.port := rfl
@[simp] theorem renderEntry_sch : (renderEntry s).sch = { s.sch with offset := 0 } := rfl
@[simp] theorem renderEntry_out : (renderEntry s).out = Memory.poisoned := rfl

end

/-! ### `voiceSetCutoff` -/

section
variable (f : Num64) (s : State)

@[simp] theorem voiceSetCutoff_osc : (voiceSetCutoff f s).osc = s.osc := rfl
@[simp] theorem voiceSetCutoff_lfo : (voiceSetCutoff f s).lfo = s.lfo := rfl
@[simp] theorem voiceSetCutoff_flt : (voiceSetCutoff f s).flt = fltSetCutoff f s.flt := rfl
@[simp] theorem voiceSetCutoff_env : (voiceSetCutoff f s).env = s.env := rfl
@[simp] theorem voiceSetCutoff_v : (voiceSetCutoff f s).v = { s.v with baseCut := f } := rfl
@[simp] theorem voiceSetCutoff_sch : (voiceSetCutoff f s).sch = s.sch := rfl
@[simp] theorem voiceSetCutoff_q : (voiceSetCutoff f s).q = s.q := rfl
@[simp] theorem voiceSetCutoff_cfg : (voiceSetCutoff f s).cfg = s.cfg := rfl
@[simp] theorem voiceSetCutoff_out : (voiceSetCutoff f s).out = s.out := rfl
@[simp] theorem voiceSetCutoff_faults : (voiceSetCutoff f s).faults = s.faults := rfl
@[simp] theorem voiceSetCutoff_res : (voiceSetCutoff f s).res = s.res := rfl
@[simp] theorem voiceSetCutoff_port : (voiceSetCutoff f s).port = s.port := rfl

end

/-! ### `voiceReset` -/

section
variable (s : State)

@[simp] theorem voiceReset_osc : (voiceReset s).osc = oscReset s.osc := rfl
@[simp] theorem voiceReset_lfo : (voiceReset s).lfo = s.lfo := rfl
@[simp] theorem voiceReset_flt : (voiceReset s).flt = fltReset s.flt := rfl
@[simp] theorem voiceReset_env : (voiceReset s).env = s.env := rfl
@[simp] theorem voiceReset_v : (voiceReset s).v = { s.v with noteOnTime := zeroNum } := rfl
@[simp] theorem voiceReset_sch : (voiceReset s).sch = s.sch := rfl
@[simp] theorem voiceReset_q : (voiceReset s).q = s.q := rfl
@[simp] theorem voiceReset_cfg : (voiceReset s).cfg = s.cfg := rfl
@[simp] theorem voiceReset_out : (voiceReset s).out = s.out := rfl
@[simp] theorem voiceReset_faults : (voiceReset s).faults = s.faults := rfl
@[simp] theorem voiceReset_res : (voiceReset s).res = s.res := rfl
@[simp] theorem voiceReset_port : (voiceReset s).port = s.port := rfl

end

/-! ### `voiceSetSampleRate` -/

section
variable (P : Params) (sr : Num64) (s : State)

@[simp] theorem voiceSetSampleRate_osc : (voiceSetSampleRate P sr s).osc = oscReset (oscSetSampleRate sr s.osc) := rfl
@[simp] theorem voiceSetSampleRate_lfo : (voiceSetSampleRate P sr s).lfo = lfoSetSampleRate sr s.lfo := rfl
@[simp] theorem voiceSetSampleRate_flt : (voiceSetSampleRate P sr s).flt = fltReset (fltSetSampleRate P sr s.flt) := rfl
@[simp] theorem voiceSetSampleRate_env : (voiceSetSampleRate P sr s).env = s.env := rfl
@[simp] theorem voiceSetSampleRate_v :
    (voiceSetSampleRate P sr s).v = { s.v with sr := sr, noteOnTime := zeroNum } := rfl
@[simp] theorem voiceSetSampleRate_sch : (voiceSetSampleRate P sr s).sch = s.sch := rfl
@[simp] theorem voiceSetSampleRate_q : (voiceSetSampleRate P sr s).q = s.q := rfl
@[simp] theorem voiceSetSampleRate_cfg : (voiceSetSampleRate P sr s).cfg = s.cfg := rfl
@[simp] theorem voiceSetSampleRate_out : (voiceSetSampleRate P sr s).out = s.out := rfl
@[simp] theorem voiceSetSampleRate_faults : (voiceSetSampleRate P sr s).faults = s.faults := rfl
@[simp] theorem voiceSetSampleRate_res : (voiceSetSampleRate P sr s).res = s.res := rfl
@[simp] theorem voiceSetSampleRate_port : (voiceSetSampleRate P sr s).port = s.port := rfl

end

/-! ### `applyNoteOn` -/

section
variable (P : Params) (note : Data7) (s : State)

@[simp] theorem applyNoteOn_osc : (applyNoteOn P note s).osc = oscSetFrequency (noteFreq P note) s.osc := rfl
@[simp] theorem applyNoteOn_lfo : (applyNoteOn P note s).lfo = s.lfo := rfl
@[simp] theorem applyNoteOn_flt : (applyNoteOn P note s).flt = s.flt := rfl
@[simp] theorem applyNoteOn_env : (applyNoteOn P note s).env = s.env := rfl
@[simp] theorem applyNoteOn_v : (applyNoteOn P note s).v = envAttack { s.v with heldNote := some note } := rfl
@[simp] theorem applyNoteOn_sch : (applyNoteOn P note s).sch = s.sch := rfl
@[simp] theorem applyNoteOn_q : (applyNoteOn P note s).q = s.q := rfl
@[simp] theorem applyNoteOn_cfg : (applyNoteOn P note s).cfg = s.cfg := rfl
@[simp] theorem applyNoteOn_out : (applyNoteOn P note s).out = s.out := rfl
@[simp] theorem applyNoteOn_faults : (applyNoteOn P note s).faults = s.faults := rfl
@[simp] theorem applyNoteOn_res : (applyNoteOn P note s).res = s.res := rfl
@[simp] theorem applyNoteOn_port : (applyNoteOn P note s).port = s.port := rfl

end

/-! ### `applyAllNotesOff` -/

section
variable (s : State)

@[simp] theorem applyAllNotesOff_osc : (applyAllNotesOff s).osc = s.osc := rfl
@[simp] theorem applyAllNotesOff_lfo : (applyAllNotesOff s).lfo = s.lfo := rfl
@[simp] theorem applyAllNotesOff_flt : (applyAllNotesOff s).flt = s.flt := rfl
@[simp] theorem applyAllNotesOff_env : (applyAllNotesOff s).env = s.env := rfl
@[simp] theorem applyAllNotesOff_v : (applyAllNotesOff s).v = { s.v with heldNote := none } := rfl
@[simp] theorem applyAllNotesOff_sch : (applyAllNotesOff s).sch = s.sch := rfl
@[simp] theorem applyAllNotesOff_q : (applyAllNotesOff s).q = s.q := rfl
@[simp] theorem applyAllNotesOff_cfg : (applyAllNotesOff s).cfg = s.cfg := rfl
@[simp] theorem applyAllNotesOff_out : (applyAllNotesOff s).out = s.out := rfl
@[simp] theorem applyAllNotesOff_faults : (applyAllNotesOff s).faults = s.faults := rfl
@[simp] theorem applyAllNotesOff_res : (applyAllNotesOff s).res = s.res := rfl
@[simp] theorem applyAllNotesOff_port : (applyAllNotesOff s).port = s.port := rfl

end

/-! ### `applyIgnored` -/

section
variable (s : State)

@[simp] theorem applyIgnored_eq : applyIgnored s = s := rfl

end

/-! ### `applyNoteOff` -/

section
variable (note : Data7) (s : State)

/-- R210: the held note after a `NOTE_OFF`, and the one field it may change. -/
theorem applyNoteOff_eq :
    applyNoteOff note s =
      { s with v := { s.v with heldNote := if s.v.heldNote = some note then none else s.v.heldNote } } := by
  unfold applyNoteOff
  split <;> rfl

@[simp] theorem applyNoteOff_osc : (applyNoteOff note s).osc = s.osc := by rw [applyNoteOff_eq]
@[simp] theorem applyNoteOff_lfo : (applyNoteOff note s).lfo = s.lfo := by rw [applyNoteOff_eq]
@[simp] theorem applyNoteOff_flt : (applyNoteOff note s).flt = s.flt := by rw [applyNoteOff_eq]
@[simp] theorem applyNoteOff_env : (applyNoteOff note s).env = s.env := by rw [applyNoteOff_eq]
@[simp] theorem applyNoteOff_sch : (applyNoteOff note s).sch = s.sch := by rw [applyNoteOff_eq]
@[simp] theorem applyNoteOff_q : (applyNoteOff note s).q = s.q := by rw [applyNoteOff_eq]
@[simp] theorem applyNoteOff_cfg : (applyNoteOff note s).cfg = s.cfg := by rw [applyNoteOff_eq]
@[simp] theorem applyNoteOff_out : (applyNoteOff note s).out = s.out := by rw [applyNoteOff_eq]
@[simp] theorem applyNoteOff_faults : (applyNoteOff note s).faults = s.faults := by rw [applyNoteOff_eq]
@[simp] theorem applyNoteOff_res : (applyNoteOff note s).res = s.res := by rw [applyNoteOff_eq]
@[simp] theorem applyNoteOff_port : (applyNoteOff note s).port = s.port := by rw [applyNoteOff_eq]

end

/-! ### `writeTarget` -/

section
variable (P : Params) (t : Smoothed) (x : Num64) (s : State)

@[simp] theorem writeTarget_osc : (writeTarget P t x s).osc = s.osc := by
  unfold writeTarget; cases t <;> (split <;> rfl)
@[simp] theorem writeTarget_lfo : (writeTarget P t x s).lfo = s.lfo := by
  unfold writeTarget; cases t <;> (split <;> rfl)
@[simp] theorem writeTarget_env : (writeTarget P t x s).env = s.env := by
  unfold writeTarget; cases t <;> (split <;> rfl)
@[simp] theorem writeTarget_sch : (writeTarget P t x s).sch = s.sch := by
  unfold writeTarget; cases t <;> (split <;> rfl)
@[simp] theorem writeTarget_q : (writeTarget P t x s).q = s.q := by
  unfold writeTarget; cases t <;> (split <;> rfl)
@[simp] theorem writeTarget_cfg : (writeTarget P t x s).cfg = s.cfg := by
  unfold writeTarget; cases t <;> (split <;> rfl)
@[simp] theorem writeTarget_out : (writeTarget P t x s).out = s.out := by
  unfold writeTarget; cases t <;> (split <;> rfl)
@[simp] theorem writeTarget_faults : (writeTarget P t x s).faults = s.faults := by
  unfold writeTarget; cases t <;> (split <;> rfl)
@[simp] theorem writeTarget_res : (writeTarget P t x s).res = s.res := by
  unfold writeTarget; cases t <;> (split <;> rfl)
@[simp] theorem writeTarget_port : (writeTarget P t x s).port = s.port := by
  unfold writeTarget; cases t <;> (split <;> rfl)

/-- R231, R232: a target write leaves everything of the voice but the base cutoff. -/
theorem writeTarget_v : (writeTarget P t x s).v = { s.v with baseCut := (writeTarget P t x s).v.baseCut } := by
  unfold writeTarget; cases t <;> (split <;> rfl)

/-- R231, R232: a target write leaves everything of the filter but the two targets. -/
theorem writeTarget_flt :
    (writeTarget P t x s).flt =
      { s.flt with cutTgt := (writeTarget P t x s).flt.cutTgt, resTgt := (writeTarget P t x s).flt.resTgt } := by
  unfold writeTarget; cases t <;> (split <;> rfl)

end

end Sys2Proof.Machine
end

