-- ==== Sys2Proof/Laws/Voice.lean ====
section
/-! SUPPORT. What the frame loop of the voice writes and leaves (R195). -/

namespace Sys2Proof.Machine

/-! ### The oscillator's sample -/

/-- R153: with both registers finite the sample is the rule's arithmetic. -/
theorem sawSample_finite {p d : Num64} (hp : isFinite p = true) (hd : isFinite d = true) :
    sawSample p d = sawValue p d := by
  rw [sawSample, hp, hd]; rfl

/-- R155: with a NaN or an infinity in either register the sample is a NaN. -/
theorem isNaN_sawSample {p d : Num64} (h : isFinite p = false ∨ isFinite d = false) : isNaN (sawSample p d) = true := by
  have hc : (isFinite p && isFinite d) = false := by rcases h with h | h <;> simp [h]
  rw [sawSample, hc]
  exact isNaN_nanOf _ _ _

/-! ### Concurrent target writes -/

/-- R231, R232: a list of target writes writes the two targets and the base cutoff, nothing else. -/
theorem landWrites_eq (P : Params) (ws : List TargetWrite) (s : State) :
    landWrites P ws s =
      { s with
        v := { s.v with baseCut := (landWrites P ws s).v.baseCut }
        flt := { s.flt with
          cutTgt := (landWrites P ws s).flt.cutTgt, resTgt := (landWrites P ws s).flt.resTgt } } := by
  induction ws generalizing s with
  | nil => rfl
  | cons w ws ih =>
    have h : landWrites P (w :: ws) s = landWrites P ws (writeTarget P w.target w.value s) := rfl
    rw [h, ih]
    unfold writeTarget
    split
    · cases w.target <;> rfl
    · rfl

@[simp] theorem landWrites_nil (P : Params) (s : State) : landWrites P [] s = s := rfl

@[simp] theorem landBefore_nil (P : Params) (n : Nat) (s : State) : landBefore P [] n s = s := rfl

@[simp] theorem landAfter_nil (P : Params) (n : Nat) (s : State) : landAfter P [] n s = s := rfl

section
variable (P : Params) (ws : List TargetWrite) (s : State)

@[simp] theorem landWrites_osc : (landWrites P ws s).osc = s.osc := by rw [landWrites_eq]
@[simp] theorem landWrites_lfo : (landWrites P ws s).lfo = s.lfo := by rw [landWrites_eq]
@[simp] theorem landWrites_env : (landWrites P ws s).env = s.env := by rw [landWrites_eq]
@[simp] theorem landWrites_sch : (landWrites P ws s).sch = s.sch := by rw [landWrites_eq]
@[simp] theorem landWrites_q : (landWrites P ws s).q = s.q := by rw [landWrites_eq]
@[simp] theorem landWrites_cfg : (landWrites P ws s).cfg = s.cfg := by rw [landWrites_eq]
@[simp] theorem landWrites_out : (landWrites P ws s).out = s.out := by rw [landWrites_eq]
@[simp] theorem landWrites_faults : (landWrites P ws s).faults = s.faults := by rw [landWrites_eq]
@[simp] theorem landWrites_res : (landWrites P ws s).res = s.res := by rw [landWrites_eq]
@[simp] theorem landWrites_port : (landWrites P ws s).port = s.port := by rw [landWrites_eq]
theorem landWrites_v : (landWrites P ws s).v = { s.v with baseCut := (landWrites P ws s).v.baseCut } := by
  conv_lhs => rw [landWrites_eq]
theorem landWrites_flt :
    (landWrites P ws s).flt =
      { s.flt with cutTgt := (landWrites P ws s).flt.cutTgt, resTgt := (landWrites P ws s).flt.resTgt } := by
  conv_lhs => rw [landWrites_eq]

end

/-! ### The filter's step -/

/-- R174: the coefficient bank is the whole effect of an update. -/
theorem fltUpdate_eq (P : Params) (t : Flt) :
    fltUpdate P t = { t with bank := coefsOf P (cutoffAngle t.cutCur t.sr) t.resCur } := rfl

/-- R176: the smoothing step and the update, where they happen. -/
theorem fltAdopt_eq (P : Params) (t : Flt) :
    fltAdopt P t =
      { t with
        cutCur := (fltAdopt P t).cutCur, resCur := (fltAdopt P t).resCur, bank := (fltAdopt P t).bank } := by
  unfold fltAdopt
  split <;> rfl

/-- R176: `FLT.Process` writes the current values, the bank and the history. -/
theorem fltAdvance_eq (P : Params) (x : Num64) (t : Flt) :
    fltAdvance P x t =
      { fltAdvance P x t with cutTgt := t.cutTgt, resTgt := t.resTgt, k := t.k, sr := t.sr } := by
  unfold fltAdvance
  split
  · rw [fltAdopt_eq]; rfl
  · rfl

/-! ### One frame -/

section
variable (P : Params) (ws : List TargetWrite) (base : Nat) (gate : Bool) (s : State)

@[simp] theorem voiceFrame_osc : (voiceFrame P ws base gate s).osc = oscAdvance s.osc := by
  simp [voiceFrame, voiceFrameBody, landBefore]
@[simp] theorem voiceFrame_lfo :
    (voiceFrame P ws base gate s).lfo = if P.hasLfo then lfoAdvance s.lfo else s.lfo := by
  simp [voiceFrame, voiceFrameBody, landBefore]
@[simp] theorem voiceFrame_env : (voiceFrame P ws base gate s).env = s.env := by
  simp [voiceFrame, voiceFrameBody, landBefore]
@[simp] theorem voiceFrame_sch : (voiceFrame P ws base gate s).sch = { s.sch with i := s.sch.i + 1 } := by
  simp [voiceFrame, voiceFrameBody, landBefore]
@[simp] theorem voiceFrame_q : (voiceFrame P ws base gate s).q = s.q := by
  simp [voiceFrame, voiceFrameBody, landBefore]
@[simp] theorem voiceFrame_cfg : (voiceFrame P ws base gate s).cfg = s.cfg := by
  simp [voiceFrame, voiceFrameBody, landBefore]
@[simp] theorem voiceFrame_faults : (voiceFrame P ws base gate s).faults = s.faults := by
  simp [voiceFrame, voiceFrameBody, landBefore]
@[simp] theorem voiceFrame_res : (voiceFrame P ws base gate s).res = s.res := by
  simp [voiceFrame, voiceFrameBody, landBefore]
@[simp] theorem voiceFrame_port : (voiceFrame P ws base gate s).port = s.port := by
  simp [voiceFrame, voiceFrameBody, landBefore]

/-- R195: a frame leaves everything of the voice but, with a concurrent write, the base cutoff. -/
theorem voiceFrame_v :
    (voiceFrame P ws base gate s).v = { s.v with baseCut := (voiceFrame P ws base gate s).v.baseCut } :=
  landWrites_v P _ s

/-- R195, R170: a frame leaves the filter's smoothing factor and sample rate. -/
theorem voiceFrame_flt :
    (voiceFrame P ws base gate s).flt = { (voiceFrame P ws base gate s).flt with k := s.flt.k, sr := s.flt.sr } := by
  unfold voiceFrame voiceFrameBody
  simp only
  rw [fltAdvance_eq]
  unfold voiceFilter landBefore
  rw [landWrites_flt]
  split <;> rfl

/-- R195: a frame writes one word of the first channel. -/
theorem voiceFrame_out :
    ∃ y, (voiceFrame P ws base gate s).out = memWrite s.out .first (frameIndex base s.sch.i.toNat) y := by
  simp [voiceFrame, voiceFrameBody, landBefore]

end

/-- R121: below `2^32` the addition is the sum. -/
theorem frameIndex_eq {base i : Nat} (h : base + i < 2 ^ 32) : frameIndex base i = base + i := if_pos h

/-- R121: a frame is written at an index of 32 bits, whatever the operands. -/
theorem frameIndex_lt (base i : Nat) : frameIndex base i < 2 ^ 32 := by
  unfold frameIndex
  split
  · assumption
  · exact (Config.freeFrame base i).isLt

/-! ### Several frames -/

/-- R195: one frame writes the two phases, the filter (but not its smoothing factor and sample rate), the base cutoff
(with a concurrent write), the index and the output memory. -/
theorem voiceFrame_eq (P : Params) (ws : List TargetWrite) (base : Nat) (gate : Bool) (s : State) :
    ∃ p l f b o, f.k = s.flt.k ∧ f.sr = s.flt.sr ∧
      voiceFrame P ws base gate s =
        { s with
          osc := { s.osc with phase := p }
          lfo := { s.lfo with phase := l }
          flt := f
          v := { s.v with baseCut := b }
          sch := { s.sch with i := s.sch.i + 1 }
          out := o } := by
  have hf := voiceFrame_flt P ws base gate s
  refine ⟨(voiceFrame P ws base gate s).osc.phase, (voiceFrame P ws base gate s).lfo.phase,
    (voiceFrame P ws base gate s).flt, (voiceFrame P ws base gate s).v.baseCut, (voiceFrame P ws base gate s).out,
    ?_, ?_, ?_⟩
  · rw [hf]
  · rw [hf]
  · rw [State.mk.injEq]
    refine ⟨?_, ?_, rfl, ?_, voiceFrame_v P ws base gate s, ?_, ?_, ?_, rfl, ?_, ?_, ?_⟩
    · simp [oscAdvance]
    · rw [voiceFrame_lfo]; split <;> rfl
    all_goals simp

/-- R195: `n` frames, the same. -/
theorem voiceFrames_eq (P : Params) (ws : List TargetWrite) (base : Nat) (gate : Bool) (n : Nat) (s : State) :
    ∃ p l f b o, f.k = s.flt.k ∧ f.sr = s.flt.sr ∧
      voiceFrames P ws base gate n s =
        { s with
          osc := { s.osc with phase := p }
          lfo := { s.lfo with phase := l }
          flt := f
          v := { s.v with baseCut := b }
          sch := { s.sch with i := s.sch.i + BitVec.ofNat 32 n }
          out := o } := by
  induction n generalizing s with
  | zero => exact ⟨s.osc.phase, s.lfo.phase, s.flt, s.v.baseCut, s.out, rfl, rfl, by simp [voiceFrames]⟩
  | succ n ih =>
    obtain ⟨p1, l1, f1, b1, o1, hk1, hs1, h1⟩ := voiceFrame_eq P ws base gate s
    obtain ⟨p, l, f, b, o, hk, hs, h⟩ := ih (voiceFrame P ws base gate s)
    refine ⟨p, l, f, b, o, ?_, ?_, ?_⟩
    · rw [hk, h1]; exact hk1
    · rw [hs, h1]; exact hs1
    · rw [voiceFrames, h, h1]
      simp only [State.mk.injEq, Sch.mk.injEq, true_and, and_true]
      rw [BitVec.add_assoc, BitVec.add_comm 1, BitVec.ofNat_add]
      rfl

/-- R195: the last of `n + 1` frames starts where the first `n` end. -/
theorem voiceFrames_succ_last (P : Params) (ws : List TargetWrite) (base : Nat) (gate : Bool) (n : Nat) (s : State) :
    voiceFrames P ws base gate (n + 1) s = voiceFrame P ws base gate (voiceFrames P ws base gate n s) := by
  induction n generalizing s with
  | zero => rfl
  | succ n ih => rw [voiceFrames, ih]; rfl

/-- R195: frames are done one after another. -/
theorem voiceFrames_add (P : Params) (ws : List TargetWrite) (base : Nat) (gate : Bool) (a b : Nat) (s : State) :
    voiceFrames P ws base gate (a + b) s = voiceFrames P ws base gate b (voiceFrames P ws base gate a s) := by
  induction a generalizing s with
  | zero => simp [voiceFrames]
  | succ a ih => rw [Nat.succ_add, voiceFrames, voiceFrames, ih]

theorem voiceFrames_i (P : Params) (ws : List TargetWrite) (base : Nat) (gate : Bool) (n : Nat) (s : State) :
    (voiceFrames P ws base gate n s).sch.i = s.sch.i + BitVec.ofNat 32 n := by
  obtain ⟨p, l, f, b, o, -, -, h⟩ := voiceFrames_eq P ws base gate n s
  rw [h]

theorem voiceFrames_v (P : Params) (ws : List TargetWrite) (base : Nat) (gate : Bool) (n : Nat) (s : State) :
    (voiceFrames P ws base gate n s).v = { s.v with baseCut := (voiceFrames P ws base gate n s).v.baseCut } := by
  obtain ⟨p, l, f, b, o, -, -, h⟩ := voiceFrames_eq P ws base gate n s
  rw [h]

/-- R195: without concurrent writes the base cutoff and the resonance target stay. -/
theorem voiceFrames_targets (P : Params) (base : Nat) (gate : Bool) (n : Nat) (s : State) :
    (voiceFrames P [] base gate n s).v.baseCut = s.v.baseCut ∧
      (voiceFrames P [] base gate n s).flt.resTgt = s.flt.resTgt := by
  induction n generalizing s with
  | zero => exact ⟨rfl, rfl⟩
  | succ n ih =>
    obtain ⟨h1, h2⟩ := ih (voiceFrame P [] base gate s)
    refine ⟨h1, h2.trans ?_⟩
    simp only [voiceFrame, landBefore_nil, voiceFrameBody]
    rw [fltAdvance_eq]
    simp only [voiceFilter]
    split <;> rfl

/-- R195, R62: the second channel is not written. -/
theorem voiceFrames_ch1 (P : Params) (ws : List TargetWrite) (base : Nat) (gate : Bool) (n : Nat) (s : State) :
    (voiceFrames P ws base gate n s).out.ch1 = s.out.ch1 := by
  induction n generalizing s with
  | zero => rfl
  | succ n ih =>
    obtain ⟨y, hy⟩ := voiceFrame_out P ws base gate s
    rw [voiceFrames, ih, hy, memWrite_first_ch1]

/-- R195, R62: the words of the first channel at the indexes of the frames are written, and the others keep their
value. -/
theorem voiceFrames_ch0 (P : Params) (ws : List TargetWrite) (base : Nat) (gate : Bool) (n : Nat) (s : State)
    (hi : s.sch.i.toNat + n ≤ 2 ^ 32) (k : Nat) :
    ((∃ j, j < n ∧ frameIndex base (s.sch.i.toNat + j) = k) →
      (bufRead (voiceFrames P ws base gate n s).out.ch0 k).isSome) ∧
    ((∀ j, j < n → frameIndex base (s.sch.i.toNat + j) ≠ k) →
      bufRead (voiceFrames P ws base gate n s).out.ch0 k = bufRead s.out.ch0 k) := by
  induction n with
  | zero => exact ⟨fun ⟨_, h, _⟩ => absurd h (Nat.not_lt_zero _), fun _ => rfl⟩
  | succ n ih =>
    obtain ⟨ih1, ih2⟩ := ih (by omega)
    have hni : (voiceFrames P ws base gate n s).sch.i.toNat = s.sch.i.toNat + n := by
      rw [voiceFrames_i, BitVec.toNat_add, BitVec.toNat_ofNat]
      omega
    obtain ⟨y, hy⟩ := voiceFrame_out P ws base gate (voiceFrames P ws base gate n s)
    rw [voiceFrames_succ_last, hy, memWrite_first_ch0, hni, bufRead_bufWrite]
    refine ⟨fun ⟨j, hj, hk⟩ => ?_, fun h => ?_⟩
    · split
      · rfl
      · refine ih1 ⟨j, ?_, hk⟩
        rcases Nat.lt_succ_iff_lt_or_eq.mp hj with h | rfl
        · exact h
        · exact absurd hk.symm ‹_›
    · rw [if_neg (fun e => h n (Nat.lt_succ_self n) e.symm)]
      exact ih2 fun j hj => h j (Nat.lt_succ_of_lt hj)

/-- R195: frames keep the canonical form of the output memory. -/
theorem voiceFrames_out_wf (P : Params) (ws : List TargetWrite) (base : Nat) (gate : Bool) (n : Nat) (s : State)
    (h : s.out.wf) : (voiceFrames P ws base gate n s).out.wf := by
  induction n generalizing s with
  | zero => exact h
  | succ n ih =>
    obtain ⟨y, hy⟩ := voiceFrame_out P ws base gate s
    exact ih _ (hy ▸ memWrite_wf h _ _ _)

/-! ### One call -/

/-- R195: what a call of `VOICE.Process` writes, and that it leaves the rest. -/
theorem voiceProcess_eq (P : Params) (ws : List TargetWrite) (base n : Idx) (gate : Bool) (s : State) :
    ∃ p l f b o, f.k = s.flt.k ∧ f.sr = s.flt.sr ∧
      voiceProcess P ws base n gate s =
        { s with
          osc := { s.osc with phase := p }
          lfo := { s.lfo with phase := l }
          flt := f
          v := { clockAfter n s.v with baseCut := b }
          sch := { s.sch with i := 0 }
          out := o } := by
  obtain ⟨p, l, f, b, o, hk, hs, h⟩ :=
    voiceFrames_eq P ws base.toNat gate n.toNat { s with sch := { s.sch with i := 0 } }
  refine ⟨p, l, f, b, o, hk, hs, ?_⟩
  simp only [voiceProcess, h]
  rfl

/-- R195, R62: the words a call writes, and those it leaves. -/
theorem voiceProcess_out (P : Params) (ws : List TargetWrite) (base n : Idx) (gate : Bool) (s : State) (k : Nat) :
    ((∃ j, j < n.toNat ∧ frameIndex base.toNat j = k) →
      (memRead (voiceProcess P ws base n gate s).out .first k).isSome) ∧
    ((∀ j, j < n.toNat → frameIndex base.toNat j ≠ k) →
      memRead (voiceProcess P ws base n gate s).out .first k = memRead s.out .first k) ∧
    (voiceProcess P ws base n gate s).out.ch1 = s.out.ch1 := by
  have hn := n.isLt
  have h := voiceFrames_ch0 P ws base.toNat gate n.toNat { s with sch := { s.sch with i := 0 } }
    (by change 0 + n.toNat ≤ _; omega) k
  have h0 : ({ s with sch := { s.sch with i := 0 } } : State).sch.i.toNat = 0 := rfl
  simp only [h0, Nat.zero_add] at h
  exact ⟨h.1, h.2, voiceFrames_ch1 P ws base.toNat gate n.toNat _⟩

/-- R121, R195: the same where every `base + i` is an index, as in the calls the scheduler makes. -/
theorem voiceProcess_out_of_le (P : Params) (ws : List TargetWrite) (base n : Idx) (gate : Bool) (s : State) (k : Nat)
    (hw : base.toNat + n.toNat ≤ 2 ^ 32) :
    (base.toNat ≤ k ∧ k < base.toNat + n.toNat →
      (memRead (voiceProcess P ws base n gate s).out .first k).isSome) ∧
    (¬(base.toNat ≤ k ∧ k < base.toNat + n.toNat) →
      memRead (voiceProcess P ws base n gate s).out .first k = memRead s.out .first k) := by
  obtain ⟨h1, h2, -⟩ := voiceProcess_out P ws base n gate s k
  refine ⟨fun hk => h1 ⟨k - base.toNat, by omega, ?_⟩, fun hk => h2 fun j hj => ?_⟩
  · rw [frameIndex_eq (by omega)]; omega
  · rw [frameIndex_eq (by omega)]; omega

/-- R195: without concurrent writes a call keeps the base cutoff and the resonance target. -/
theorem voiceProcess_targets (P : Params) (base n : Idx) (gate : Bool) (s : State) :
    (voiceProcess P [] base n gate s).v.baseCut = s.v.baseCut ∧
      (voiceProcess P [] base n gate s).flt.resTgt = s.flt.resTgt :=
  voiceFrames_targets P base.toNat gate n.toNat _

/-- R195: a call keeps the canonical form of the output memory. -/
theorem voiceProcess_out_wf (P : Params) (ws : List TargetWrite) (base n : Idx) (gate : Bool) (s : State)
    (h : s.out.wf) : (voiceProcess P ws base n gate s).out.wf :=
  voiceFrames_out_wf P ws base.toNat gate n.toNat _ h

end Sys2Proof.Machine
end

