-- ==== Sys2Proof/Laws/Scheduler.lean ====
section
/-! SUPPORT. Events, the drain and the render loop: what each writes, and how the loop advances (R29, R121, R205). -/

namespace Sys2Proof.Machine

/-! ### Events (R266) -/

/-- R266: an event writes at most `osc.freq`, `osc.inc`, `v.heldNote` and `v.noteOnTime`. -/
theorem applyEvent_eq (P : Params) (e : EventRec) (s : State) :
    ∃ f i c h, applyEvent P e s =
      { s with osc := { s.osc with freq := f, inc := i }, v := { s.v with noteOnTime := c, heldNote := h } } := by
  have hsame : ∃ f i c h, s =
      { s with osc := { s.osc with freq := f, inc := i }, v := { s.v with noteOnTime := c, heldNote := h } } :=
    ⟨s.osc.freq, s.osc.inc, s.v.noteOnTime, s.v.heldNote, rfl⟩
  have hoff : ∀ note, ∃ f i c h, applyNoteOff note s =
      { s with osc := { s.osc with freq := f, inc := i }, v := { s.v with noteOnTime := c, heldNote := h } } :=
    fun note => ⟨s.osc.freq, s.osc.inc, s.v.noteOnTime, _, applyNoteOff_eq note s⟩
  unfold applyEvent
  split
  · split
    · exact hoff _
    · exact ⟨_, _, _, _, rfl⟩
  · split
    · exact hoff _
    · split
      · split
        · exact ⟨s.osc.freq, s.osc.inc, s.v.noteOnTime, none, rfl⟩
        · exact hsame
      · exact hsame

/-- R206, R266: what the drain writes: the registers an event writes, and the queue, from whose head the records that are
due are gone. -/
theorem drainRecs_eq (P : Params) (offset : Idx) (recs : List EventRec) (s : State) :
    ∃ f i c h, drainRecs P offset recs s =
      { s with
        osc := { s.osc with freq := f, inc := i }
        v := { s.v with noteOnTime := c, heldNote := h }
        q := { s.q with recs := recs.dropWhile fun e => decide (e.off.toNat ≤ offset.toNat) } } := by
  induction recs generalizing s with
  | nil => exact ⟨s.osc.freq, s.osc.inc, s.v.noteOnTime, s.v.heldNote, rfl⟩
  | cons e rest ih =>
    unfold drainRecs
    by_cases hd : e.off.toNat ≤ offset.toNat
    · obtain ⟨f1, i1, c1, h1, he⟩ := applyEvent_eq P e s
      obtain ⟨f, i, c, h, hr⟩ := ih (applyEvent P e s)
      refine ⟨f, i, c, h, ?_⟩
      rw [if_pos hd, hr, he, List.dropWhile_cons_of_pos (by simpa using hd)]
    · refine ⟨s.osc.freq, s.osc.inc, s.v.noteOnTime, s.v.heldNote, ?_⟩
      rw [if_neg hd, List.dropWhile_cons_of_neg (by simpa using hd)]

/-- R121: what is left after the drain lies beyond the position. -/
theorem head_after_drain {offset : Idx} {recs rest : List EventRec} {e : EventRec}
    (h : recs.dropWhile (fun e => decide (e.off.toNat ≤ offset.toNat)) = e :: rest) :
    offset.toNat < e.off.toNat := by
  have := List.head_dropWhile_not (fun e : EventRec => decide (e.off.toNat ≤ offset.toNat))
    (l := recs) (by rw [h]; exact List.cons_ne_nil _ _)
  simp only [h, List.head_cons] at this
  exact Nat.lt_of_not_le (by simpa using this)

/-! ### One iteration and the loop -/

/-- What the loop and the calls it makes leave alone (R228, R266): everything but the oscillator's frequency, increment
and phase, the modulator's phase, the filter's parameters, bank and history, the clock, the held note, the base cutoff,
the position, the queue's records and the output memory. -/
structure RenderKeeps (s t : State) : Prop where
  osc : t.osc = { s.osc with freq := t.osc.freq, inc := t.osc.inc, phase := t.osc.phase }
  lfo : t.lfo = { s.lfo with phase := t.lfo.phase }
  factor : t.flt.k = s.flt.k
  rate : t.flt.sr = s.flt.sr
  env : t.env = s.env
  voice : t.v = { s.v with noteOnTime := t.v.noteOnTime, heldNote := t.v.heldNote, baseCut := t.v.baseCut }
  block : t.sch.blockSize = s.sch.blockSize
  cap : t.q.cap = s.q.cap
  cfg : t.cfg = s.cfg
  faults : t.faults = s.faults
  res : t.res = s.res
  port : t.port = s.port

theorem RenderKeeps.refl (s : State) : RenderKeeps s s := ⟨rfl, rfl, rfl, rfl, rfl, rfl, rfl, rfl, rfl, rfl, rfl, rfl⟩

theorem RenderKeeps.trans {s t u : State} (h : RenderKeeps s t) (g : RenderKeeps t u) : RenderKeeps s u where
  osc := by have h' := g.osc; rw [h.osc] at h'; exact h'
  lfo := by have h' := g.lfo; rw [h.lfo] at h'; exact h'
  factor := g.factor.trans h.factor
  rate := g.rate.trans h.rate
  env := g.env.trans h.env
  voice := by have h' := g.voice; rw [h.voice] at h'; exact h'
  block := g.block.trans h.block
  cap := g.cap.trans h.cap
  cfg := g.cfg.trans h.cfg
  faults := g.faults.trans h.faults
  res := g.res.trans h.res
  port := g.port.trans h.port

theorem RenderKeeps.drain (P : Params) (s : State) : RenderKeeps s (schDrain P s) := by
  obtain ⟨f, i, c, h, hd⟩ := drainRecs_eq P s.sch.offset s.q.recs s
  rw [schDrain, hd]
  exact ⟨rfl, rfl, rfl, rfl, rfl, rfl, rfl, rfl, rfl, rfl, rfl, rfl⟩

theorem RenderKeeps.process (P : Params) (ws : List TargetWrite) (base n : Idx) (gate : Bool) (s : State) :
    RenderKeeps s (voiceProcess P ws base n gate s) := by
  obtain ⟨p, l, f, b, o, hk, hs, h⟩ := voiceProcess_eq P ws base n gate s
  rw [h]
  exact ⟨rfl, rfl, hk, hs, rfl, rfl, rfl, rfl, rfl, rfl, rfl, rfl⟩

theorem RenderKeeps.land (P : Params) (ws : List TargetWrite) (s : State) : RenderKeeps s (landWrites P ws s) := by
  rw [landWrites_eq]
  exact ⟨rfl, rfl, rfl, rfl, rfl, rfl, rfl, rfl, rfl, rfl, rfl, rfl⟩

theorem RenderKeeps.iteration (P : Params) (ws : List TargetWrite) (frameCount : Idx) (s : State) :
    RenderKeeps s (schIteration P ws frameCount s) := by
  have h := (RenderKeeps.drain P s).trans (RenderKeeps.process P ws (schDrain P s).sch.offset
    (nextOffset frameCount (schDrain P s).q - (schDrain P s).sch.offset) (gateOf P (schDrain P s).v) (schDrain P s))
  exact ⟨h.osc, h.lfo, h.factor, h.rate, h.env, h.voice, h.block, h.cap, h.cfg, h.faults, h.res, h.port⟩

/-- R205: what an iteration leaves of the queue and where it leaves the position. -/
theorem schIteration_position (P : Params) (ws : List TargetWrite) (frameCount : Idx) (s : State) :
    let left := s.q.recs.dropWhile fun e => decide (e.off.toNat ≤ s.sch.offset.toNat)
    (schIteration P ws frameCount s).q.recs = left ∧
      (schIteration P ws frameCount s).sch.offset = nextOffset frameCount { s.q with recs := left } := by
  obtain ⟨f, i, c, h, hd⟩ := drainRecs_eq P s.sch.offset s.q.recs s
  simp only [schIteration, schDrain, hd]
  obtain ⟨p, l, f, b, o, -, -, hp⟩ := voiceProcess_eq P ws s.sch.offset
    (nextOffset frameCount { s.q with recs := s.q.recs.dropWhile fun e => decide (e.off.toNat ≤ s.sch.offset.toNat) } -
      s.sch.offset) _ _
  rw [hp]
  exact ⟨rfl, trivial⟩

/-- R121, R205: with every record below `frameCount`, an iteration moves the position forward, not beyond
`frameCount`, and where it leaves it at `frameCount` the queue is empty. -/
theorem schIteration_advances (P : Params) (ws : List TargetWrite) (frameCount : Idx) (s : State)
    (hq : ∀ e ∈ s.q.recs, e.off.toNat < frameCount.toNat) (hlt : s.sch.offset.toNat < frameCount.toNat) :
    let t := schIteration P ws frameCount s
    s.sch.offset.toNat < t.sch.offset.toNat ∧ t.sch.offset.toNat ≤ frameCount.toNat ∧
      (∀ e ∈ t.q.recs, e.off.toNat < frameCount.toNat) ∧
      (t.sch.offset.toNat = frameCount.toNat → t.q.recs = []) := by
  obtain ⟨hr, ho⟩ := schIteration_position P ws frameCount s
  simp only [hr, ho]
  have hmem : ∀ e ∈ s.q.recs.dropWhile (fun e => decide (e.off.toNat ≤ s.sch.offset.toNat)),
      e.off.toNat < frameCount.toNat := fun e he => hq e ((List.dropWhile_sublist _).subset he)
  cases hc : s.q.recs.dropWhile (fun e => decide (e.off.toNat ≤ s.sch.offset.toNat)) with
  | nil => exact ⟨hlt, Nat.le_refl _, by simp, fun _ => rfl⟩
  | cons e rest =>
    rw [hc] at hmem
    have h1 := hmem e List.mem_cons_self
    have h2 := head_after_drain hc
    refine ⟨h2, Nat.le_of_lt h1, hmem, fun h => ?_⟩
    simp only [nextOffset] at h
    omega

theorem RenderKeeps.loop (P : Params) (ws : List TargetWrite) (frameCount : Idx) (fuel : Nat) (s : State) :
    RenderKeeps s (schLoop P ws frameCount fuel s) := by
  induction fuel generalizing s with
  | zero => exact RenderKeeps.refl s
  | succ fuel ih =>
    unfold schLoop
    split
    · exact (RenderKeeps.iteration P ws frameCount s).trans (ih _)
    · exact RenderKeeps.refl s

/-- R205: a property that every iteration from a state it holds of brings about holds after the loop. -/
theorem schLoop_induction (P : Params) (ws : List TargetWrite) (frameCount : Idx) (I : State → Prop)
    (step : ∀ s, I s → s.sch.offset.toNat < frameCount.toNat → I (schIteration P ws frameCount s))
    (fuel : Nat) (s : State) (h : I s) : I (schLoop P ws frameCount fuel s) := by
  induction fuel generalizing s with
  | zero => exact h
  | succ fuel ih =>
    unfold schLoop
    split
    · exact ih _ (step s h ‹_›)
    · exact h

/-- R205, R65: with enough fuel the loop ends at `frameCount` with an empty queue. -/
theorem schLoop_ends (P : Params) (ws : List TargetWrite) (frameCount : Idx) (fuel : Nat) (s : State)
    (hq : ∀ e ∈ s.q.recs, e.off.toNat < frameCount.toNat) (hlt : s.sch.offset.toNat < frameCount.toNat)
    (hf : frameCount.toNat ≤ s.sch.offset.toNat + fuel) :
    (schLoop P ws frameCount fuel s).sch.offset = frameCount ∧ (schLoop P ws frameCount fuel s).q.recs = [] := by
  induction fuel generalizing s with
  | zero => omega
  | succ fuel ih =>
    obtain ⟨h1, h2, h3, h4⟩ := schIteration_advances P ws frameCount s hq hlt
    unfold schLoop
    rw [if_pos hlt]
    by_cases hend : (schIteration P ws frameCount s).sch.offset.toNat = frameCount.toNat
    · have hstop : schLoop P ws frameCount fuel (schIteration P ws frameCount s) = schIteration P ws frameCount s := by
        cases fuel with
        | zero => rfl
        | succ fuel => unfold schLoop; rw [if_neg (by omega)]
      rw [hstop]
      exact ⟨BitVec.eq_of_toNat_eq hend, h4 hend⟩
    · exact ih _ h3 (by omega) (by omega)

theorem RenderKeeps.render (P : Params) (ws : List TargetWrite) (frameCount : Idx) (s : State) :
    RenderKeeps s (schRender P ws frameCount s) := by
  have h0 : RenderKeeps s (renderEntry s) := ⟨rfl, rfl, rfl, rfl, rfl, rfl, rfl, rfl, rfl, rfl, rfl, rfl⟩
  have h1 := h0.trans (RenderKeeps.loop P ws frameCount frameCount.toNat _)
  have h2 : RenderKeeps s { schLoop P ws frameCount frameCount.toNat (renderEntry s) with
      out := copyChannels P frameCount (schLoop P ws frameCount frameCount.toNat (renderEntry s)).out } :=
    ⟨h1.osc, h1.lfo, h1.factor, h1.rate, h1.env, h1.voice, h1.block, h1.cap, h1.cfg, h1.faults, h1.res, h1.port⟩
  exact h2.trans (RenderKeeps.land P _ _)

/-! ### What a `RENDER` answers -/

/-- R228: a `RENDER` that passes its checks renders the block, or, with no frame, lands its writes. -/
theorem execRender_ready (frameCount : Idx) (ws : List TargetWrite) (s : State) (hb : s.port.during = false)
    (hr : s.cfg.srSet = true) (hs : s.cfg.bsSet = true) (hf : frameCount.toNat ≤ s.sch.blockSize.toNat)
    (hq : 0 < frameCount.toNat → ∀ e ∈ s.q.recs, e.off.toNat < frameCount.toNat)
    (hw : ∀ w ∈ ws, isValue w.value = true) :
    execRender frameCount ws s =
      .next (if frameCount.toNat = 0 then landAfter Config.params ws 0 s
        else schRender Config.params ws frameCount s) := by
  have hbad : badWrite ws = none := List.find?_eq_none.mpr fun w h => by simp [hw w h]
  have hblock : renderBlock frameCount ws s =
      .next (if frameCount.toNat = 0 then landAfter Config.params ws 0 s
        else schRender Config.params ws frameCount s) := by
    simp only [renderBlock, hbad]
    split <;> rfl
  unfold execRender betweenRenders
  rw [hb, hr, hs]
  simp only [Bool.false_eq_true, if_false, Bool.not_true, Bool.or_self]
  rw [if_neg (Nat.not_lt.mpr hf)]
  by_cases h0 : frameCount.toNat = 0
  · rw [if_pos h0, hblock]
  · have hbey : recordBeyond s.q frameCount = none :=
      List.find?_eq_none.mpr fun e he => by have := hq (Nat.pos_of_ne_zero h0) e he; simpa using this
    rw [if_neg h0, hbey]
    exact hblock

/-- R228: a `RENDER` that completes left the state one of the two ways a checked one does. -/
theorem execRender_next {frameCount : Idx} {ws : List TargetWrite} {s t : State}
    (h : execRender frameCount ws s = .next t) :
    s.cfg.srSet = true ∧ s.cfg.bsSet = true ∧ (∀ e ∈ s.q.recs, 0 < frameCount.toNat → e.off.toNat < frameCount.toNat) ∧
      t = if frameCount.toNat = 0 then landAfter Config.params ws 0 s else schRender Config.params ws frameCount s := by
  unfold execRender betweenRenders raise at h
  split at h
  · cases h
  split at h
  · cases h
  have hcfg : s.cfg.srSet = true ∧ s.cfg.bsSet = true := by simp_all
  split at h
  · cases h
  have hblock : renderBlock frameCount ws s = .next t →
      t = if frameCount.toNat = 0 then landAfter Config.params ws 0 s else schRender Config.params ws frameCount s := by
    intro h
    unfold renderBlock raise at h
    split at h
    · cases h
    · split at h <;> cases h <;> simp_all
  split at h
  · exact ⟨hcfg.1, hcfg.2, fun e _ hpos => by omega, hblock h⟩
  · split at h
    · cases h
    · rename_i hn
      refine ⟨hcfg.1, hcfg.2, fun e he _ => ?_, hblock h⟩
      have := List.find?_eq_none.mp hn e he
      simpa using this

end Sys2Proof.Machine
end

