-- ==== Sys2Proof/Tests/Slice0.lean ====
section
/-! SUPPORT. Tests against the spec's own tables and vectors, the checks of `WellFormed`, and for every statement with
hypotheses a state and operands that meet them. -/

namespace Sys2Proof.Tests

open Sys2Proof Sys2Proof.Machine Sys2Proof.Safety

set_option Elab.async false

/-! ### Helpers -/

/-- One reading of the state an answer goes on with. -/
def after {α : Type} (a : Answer State) (f : State → α) : Option α :=
  match a with
  | .next t => some (f t)
  | _ => none

/-- The fault or the refusal of an answer. -/
def faultOf : Answer State → Option Fault
  | .fault f => some f
  | _ => none
def refusalOf : Answer State → Option Refusal
  | .refused r => some r
  | _ => none

/-- The machine after `SETSR 44100` and `SETBS 4`, as far as the entry checks see it, with `recs` queued. -/
def ready (recs : List EventRec) : State :=
  { State.reset with
    sch := { State.reset.sch with blockSize := 4 }
    q := { cap := 4, recs := recs }
    cfg := { srSet := true, bsSet := true } }

/-- A presented word with its operands, between `RENDER` commands. -/
def presented (w : CmdWord) (ops : List Slot) : PortItem := { word := w, operands := ops, during := false }

/-- The reset state with one item presented. -/
def given (it : PortItem) : State := presentItem it State.reset

/-- The reset state while a `RENDER` is in progress. -/
def rendering : State := { State.reset with port := { pending := [], during := true } }

/-- A `NOTE_ON` and a `NOTE_OFF` record of note 69. -/
def recOn (off : Idx) : EventRec := { status := 0x9, data1 := 69, data2 := 100, off := off }
def recOff (off : Idx) : EventRec := { status := 0x8, data1 := 69, data2 := 0, off := off }

/-- A configuration whose elementary functions are constants: the values they have at the operands of the test that uses
it. -/
def constants (sin cos exp pow : Num64) : Params :=
  { num := { sin := fun _ => sin, cos := fun _ => cos, exp := fun _ => exp, pow2 := fun _ => pow, pow10 := fun _ => pow }
    smoothK := fun _ => 0x3F2DB7DA25BD5000
    headroom := halfNum
    nch := .stereo
    hasLfo := true
    hasEnv := true
    hasFilter := true
    shape := .saw }

/-- `sin = 0`, `cos = exp = pow2 = pow10 = 1`. -/
def plain : Params := constants zeroNum oneNum oneNum oneNum

/-! ### WellFormed: each check refuses a term -/

theorem test_wf_note_on_velocity_0 : (Instr.noteOn 0 69 0 0).wellFormed = false := by decide
theorem test_wf_note_on : (Instr.noteOn 0 69 1 0).wellFormed = true := by decide
theorem test_wf_cc_other_123 : (Instr.ccOther 0 123 0 0).wellFormed = false := by decide
theorem test_wf_cc_other : (Instr.ccOther 0 122 0 0).wellFormed = true := by decide
theorem test_wf_render_write_beyond :
    (Instr.render 4 [{ frame := 5, target := .cutoff, value := 0 }]).wellFormed = false := by decide
theorem test_wf_render :
    (Instr.render 4 [{ frame := 0, target := .cutoff, value := 0 },
      { frame := 4, target := .resonance, value := 0 }]).wellFormed = true := by decide

/-! ### Decoding: words written out from 30_encoding.md -/

/-- R91, R93: status, channel, 0, `data1`, 0, `data2`. -/
theorem test_decode_note_on :
    decode (presented (.ev (0b1001#4 ++ 0b0000#4 ++ 0b0#1 ++ 0b1000101#7 ++ 0b0#1 ++ 0b1100100#7)) [12]) =
      .ok (.noteOn 0 69 100 12) := by decide
theorem test_decode_note_on_v0 :
    decode (presented (.ev (0b1001#4 ++ 0b0101#4 ++ 0b0#1 ++ 0b1000101#7 ++ 0b0#1 ++ 0b0000000#7)) [0]) =
      .ok (.noteOnV0 5 69 0) := by decide
theorem test_decode_note_off :
    decode (presented (.ev (0b1000#4 ++ 0b1111#4 ++ 0b0#1 ++ 0b1000101#7 ++ 0b0#1 ++ 0b1000000#7)) [0]) =
      .ok (.noteOff 15 69 64 0) := by decide
theorem test_decode_cc_all_notes_off :
    decode (presented (.ev (0b1011#4 ++ 0b0011#4 ++ 0b0#1 ++ 0b1111011#7 ++ 0b0#1 ++ 0b1111111#7)) [0]) =
      .ok (.ccAllNotesOff 3 127 0) := by decide
theorem test_decode_cc_other :
    decode (presented (.ev (0b1011#4 ++ 0b0000#4 ++ 0b0#1 ++ 0b1111010#7 ++ 0b0#1 ++ 0b0000000#7)) [0]) =
      .ok (.ccOther 0 122 0 0) := by decide
theorem test_decode_ignored_events :
    decode (presented (.ev (0b1010#4 ++ 0b0001#4 ++ 0b0#1 ++ 0b0000010#7 ++ 0b0#1 ++ 0b0000011#7)) [0]) =
        .ok (.polyPressure 1 2 3 0) ∧
      decode (presented (.ev (0b1100#4 ++ 0b0001#4 ++ 0b0#1 ++ 0b0000101#7 ++ 0b0#1 ++ 0b0000000#7)) [0]) =
        .ok (.programChange 1 5 0 0) ∧
      decode (presented (.ev (0b1101#4 ++ 0b0001#4 ++ 0b0#1 ++ 0b0000101#7 ++ 0b0#1 ++ 0b0000001#7)) [0]) =
        .ok (.channelPressure 1 5 1 0) ∧
      decode (presented (.ev (0b1110#4 ++ 0b0000#4 ++ 0b0#1 ++ 0b0000000#7 ++ 0b0#1 ++ 0b1000000#7)) [3]) =
        .ok (.pitchBend 0 0 64 3) ∧
      decode (presented (.ev (0b1111#4 ++ 0b1000#4 ++ 0b0#1 ++ 0b0000000#7 ++ 0b0#1 ++ 0b0000000#7)) [0]) =
        .ok (.system 8 0 0 0) ∧
      decode (presented (.ev (0b0100#4 ++ 0b0101#4 ++ 0b0#1 ++ 0b0000000#7 ++ 0b0#1 ++ 0b0000000#7)) [0]) =
        .ok (.notAStatus 4 5 0 0 0) := by decide

/-- V-ENC1: reserved bits. -/
theorem test_decode_malformed_event :
    decode (presented (.ev 0x908064) [0]) = .error (.malformedEvent 0x908064) ∧
      decode (presented (.ev 0x904580) [0]) = .error (.malformedEvent 0x904580) := by decide

/-- R96, R97: `cmd`, `sub`, operands. -/
theorem test_decode_commands :
    decode (presented (.hc (0b00000001#8 ++ 0b00000000#8)) [0x40E5888000000000]) = .ok (.setsr 0x40E5888000000000) ∧
      decode (presented (.hc (0b00000010#8 ++ 0b00000000#8)) [100]) = .ok (.setbs 100) ∧
      decode (presented (.hc (0b00000011#8 ++ 0b00000000#8)) [0x993C64, 10]) = .ok (.enq 0x993C64 10) ∧
      decode (presented (.hc (0b00000101#8 ++ 0b00000000#8)) [100]) = .ok (.render 100 []) ∧
      decode (presented (.hc (0b00000101#8 ++ 0b00000000#8)) [8, 2, 1, 0x4000000000000000]) =
        .ok (.render 8 [{ frame := 2, target := .resonance, value := twoNum }]) ∧
      decode (presented (.hc (0b00000110#8 ++ 0b00000000#8)) []) = .ok .reset := by decide

/-- R98: the ten ids. -/
theorem test_decode_setp :
    decode (presented (.hc (0b00000100#8 ++ 0b00000000#8)) [7]) = .ok (.setpCutoff 7) ∧
      decode (presented (.hc (0b00000100#8 ++ 0b00000001#8)) [7]) = .ok (.setpResonance 7) ∧
      decode (presented (.hc (0b00000100#8 ++ 0b00000010#8)) [7]) = .ok (.setpAttack 7) ∧
      decode (presented (.hc (0b00000100#8 ++ 0b00000011#8)) [7]) = .ok (.setpDecay 7) ∧
      decode (presented (.hc (0b00000100#8 ++ 0b00000100#8)) [7]) = .ok (.setpSustain 7) ∧
      decode (presented (.hc (0b00000100#8 ++ 0b00000101#8)) [7]) = .ok (.setpRelease 7) ∧
      decode (presented (.hc (0b00000100#8 ++ 0b00000110#8)) [7]) = .ok (.setpLfoRate 7) ∧
      decode (presented (.hc (0b00000100#8 ++ 0b00000111#8)) [7]) = .ok (.setpLfoDepth 7) ∧
      decode (presented (.hc (0b00000100#8 ++ 0b00001000#8)) [7]) = .ok (.setpEnvEnable 7) ∧
      decode (presented (.hc (0b00000100#8 ++ 0b00001001#8)) [7]) = .ok (.setpBypass 7) := by decide

/-- Log entries 3 and 12: bits above an operand, slots behind the last operand and target writes in any order refuse
nothing; a place beyond the block becomes one within it. -/
theorem test_decode_slots :
    decode (presented (.uop 0x52) [0xFFFFFFFFFFFFFFFE, 7]) = .ok (.voiceSetEnvelopeEnabled false) ∧
      decode (presented (.hc 0x0200) [0xFFFFFFFF00000064]) = .ok (.setbs 100) ∧
      decode (presented (.uop 0x50) [0xFFFFFFFF, 2, 1]) = .ok (.voiceProcess 0xFFFFFFFF 2 true) ∧
      decode (presented (.hc 0x0500) [4, 2, 0, 0, 1, 1, 0]) =
        .ok (.render 4 [{ frame := 2, target := .cutoff, value := 0 }, { frame := 1, target := .resonance, value := 0 }]) := by
  decide
theorem test_place_beyond_the_block : (placeOf 4 5).toNat ≤ 4 := placeOf_bound 4 5

/-- V-ENC3: the words that are none. -/
theorem test_decode_rejects :
    decode (presented (.hc 0x0000) []) = .error (.badCommand 0x0000) ∧
      decode (presented (.hc 0x0700) []) = .error (.badCommand 0x0700) ∧
      decode (presented (.hc 0x0101) [0]) = .error (.badCommand 0x0101) ∧
      decode (presented (.hc 0x0501) [0]) = .error (.badCommand 0x0501) ∧
      decode (presented (.hc 0x040A) [0]) = .error (.badParameterId 0x0A) ∧
      decode (presented (.hc 0x04FF) [0]) = .error (.badParameterId 0xFF) ∧
      decode (presented (.uop 0x46) [0]) = .error (.noSuchOperation 0x46) := by decide

/-- R103: the high four bits are the unit, the low four the operation. -/
theorem test_decode_osc_lfo :
    decode (presented (.uop (0b0001#4 ++ 0b0000#4)) [7]) = .ok (.oscSetFrequency 7) ∧
      decode (presented (.uop (0b0001#4 ++ 0b0001#4)) [7]) = .ok (.oscSetSampleRate 7) ∧
      decode (presented (.uop (0b0001#4 ++ 0b0010#4)) []) = .ok .oscReset ∧
      decode (presented (.uop (0b0001#4 ++ 0b0011#4)) []) = .ok .oscNextSample ∧
      decode (presented (.uop (0b0010#4 ++ 0b0000#4)) [7]) = .ok (.lfoSetFrequency 7) ∧
      decode (presented (.uop (0b0010#4 ++ 0b0001#4)) [7]) = .ok (.lfoSetAmplitude 7) ∧
      decode (presented (.uop (0b0010#4 ++ 0b0010#4)) [7]) = .ok (.lfoSetSampleRate 7) ∧
      decode (presented (.uop (0b0010#4 ++ 0b0011#4)) []) = .ok .lfoReset ∧
      decode (presented (.uop (0b0010#4 ++ 0b0100#4)) []) = .ok .lfoNextSample := by decide
theorem test_decode_flt :
    decode (presented (.uop (0b0011#4 ++ 0b0000#4)) [7]) = .ok (.fltSetCutoffFrequency 7) ∧
      decode (presented (.uop (0b0011#4 ++ 0b0001#4)) [7]) = .ok (.fltSetResonance 7) ∧
      decode (presented (.uop (0b0011#4 ++ 0b0010#4)) [7]) = .ok (.fltSetSampleRate 7) ∧
      decode (presented (.uop (0b0011#4 ++ 0b0011#4)) []) = .ok .fltReset ∧
      decode (presented (.uop (0b0011#4 ++ 0b0100#4)) []) = .ok .fltUpdateCoefficients ∧
      decode (presented (.uop (0b0011#4 ++ 0b0101#4)) [7]) = .ok (.fltProcess 7) := by decide
theorem test_decode_env :
    decode (presented (.uop (0b0100#4 ++ 0b0000#4)) [7]) = .ok (.envValue 7) ∧
      decode (presented (.uop (0b0100#4 ++ 0b0001#4)) []) = .ok .envAttack ∧
      decode (presented (.uop (0b0100#4 ++ 0b0010#4)) [7]) = .ok (.envSetAttackTime 7) ∧
      decode (presented (.uop (0b0100#4 ++ 0b0011#4)) [7]) = .ok (.envSetDecayTime 7) ∧
      decode (presented (.uop (0b0100#4 ++ 0b0100#4)) [7]) = .ok (.envSetSustainLevel 7) ∧
      decode (presented (.uop (0b0100#4 ++ 0b0101#4)) [7]) = .ok (.envSetReleaseTime 7) := by decide
theorem test_decode_voice_sch :
    decode (presented (.uop (0b0101#4 ++ 0b0000#4)) [10, 20, 1]) = .ok (.voiceProcess 10 20 true) ∧
      decode (presented (.uop (0b0101#4 ++ 0b0001#4)) []) = .ok .voiceReset ∧
      decode (presented (.uop (0b0101#4 ++ 0b0010#4)) [1]) = .ok (.voiceSetEnvelopeEnabled true) ∧
      decode (presented (.uop (0b0101#4 ++ 0b0011#4)) [0]) = .ok (.voiceSetGlobalBypass false) ∧
      decode (presented (.uop (0b0101#4 ++ 0b0100#4)) [7]) = .ok (.voiceSetCutoff 7) ∧
      decode (presented (.uop (0b0101#4 ++ 0b0101#4)) [7]) = .ok (.voiceSetSampleRate 7) ∧
      decode (presented (.uop (0b0110#4 ++ 0b0000#4)) []) = .ok .schDrain ∧
      decode (presented (.uop (0b0110#4 ++ 0b0001#4)) []) = .ok .schGate ∧
      decode (presented (.uop (0b0110#4 ++ 0b0010#4)) [9]) = .ok (.schCopyChannels 9) := by decide

/-! ### A table row's word, as the first instruction after power-on -/

theorem test_fetch_note_on_v0 :
    decodeTableWord 24 0x900000 = some (.noteOnV0 0 0 0) ∧
      after (step (State.reset.withFetchWord 24 0x900000)) id = some State.reset := by decide +kernel
theorem test_fetch_setbs :
    decodeTableWord 16 0x0200 = some (.setbs 0) ∧
      after (step (State.reset.withFetchWord 16 0x0200)) (fun t => t.cfg.bsSet) = some true := by decide +kernel
theorem test_fetch_osc_reset :
    decodeTableWord 8 0x12 = some .oscReset ∧
      after (step (State.reset.withFetchWord 8 0x12)) id = some State.reset := by decide +kernel
theorem test_fetch_bad_command :
    decodeTableWord 16 0x0700 = none ∧
      faultOf (step (State.reset.withFetchWord 16 0x0700)) = some (.badCommand 0x0700) := by decide +kernel

/-! ### The number format (R125 to R129): hand calculations -/

/-- `0.1 + 0.2` is `0.30000000000000004`; the largest finite number doubles to an infinity; a tie goes to the even one. -/
theorem test_add :
    fadd 0x3FB999999999999A 0x3FC999999999999A = 0x3FD3333333333334 ∧
      fadd 0x7FEFFFFFFFFFFFFF 0x7FEFFFFFFFFFFFFF = 0x7FF0000000000000 ∧
      fadd 0x4340000000000000 0x3FF0000000000000 = 0x4340000000000000 := by decide +kernel
/-- Subnormals are kept: the smallest normal number less the smallest subnormal. -/
theorem test_sub : fsub 0x0010000000000000 0x0000000000000001 = 0x000FFFFFFFFFFFFF := by decide +kernel
/-- The sign of a zero product; half the smallest subnormal is a tie that goes to zero. -/
theorem test_mul :
    fmul 0xBFBEB851EB851EB8 0x0000000000000000 = 0x8000000000000000 ∧ fmul 0x0000000000000001 halfNum = 0x0000000000000000 := by decide +kernel
/-- R125: `x/0` is an infinity; `440/44100` of V-OSC2. -/
theorem test_div :
    fdiv oneNum 0x8000000000000000 = 0xFFF0000000000000 ∧ fdiv 0x407B800000000000 0x40E5888000000000 = 0x3F846EFDCB4A6B82 := by decide +kernel
theorem test_div_nan : isNaN (fdiv zeroNum zeroNum) = true ∧ isNaN (fsub 0x7FF0000000000000 0x7FF0000000000000) = true := by
  have h0 : isNaN zeroNum = false ∧ isInf zeroNum = false ∧ isZero zeroNum = true := by decide
  refine ⟨?_, ?_⟩
  · simp [fdiv, h0, nanOf, isNaN_quietNaN]
  · simp [fsub, sumWith, nanOf, isNaN_quietNaN, fneg, isInf, signOf, expField, fracField]
theorem test_floor_wrap :
    floorNum 0xBFF8000000000000 = 0xC000000000000000 ∧ floorNum 0x4006000000000000 = 0x4000000000000000 ∧ wrapNum 0x3FF2000000000000 = 0x3FC0000000000000 := by decide +kernel

/-! ### The oscillator: V-OSC1, V-OSC2, V-OSC4 -/

/-- A frequency and a sample rate, and the phase. -/
def oscAt (freq sr inc phase : Num64) : State :=
  { State.reset with osc := { freq := freq, sr := sr, inc := inc, phase := phase } }

theorem test_osc_set_frequency :
    after (exec (.oscSetFrequency 0x4008000000000000) (oscAt 0 0x4020000000000000 0 0x3FE0000000000000)) (fun t => (t.osc.inc, t.osc.phase)) =
      some (0x3FD8000000000000, 0x3FE0000000000000) := by decide +kernel
theorem test_osc_set_sample_rate :
    after (exec (.oscSetSampleRate 0x40BF400000000000) State.reset) (fun t => t.osc.inc) = some 0x3FAC28F5C28F5C29 := by decide +kernel
theorem test_osc_reset :
    after (exec .oscReset (oscAt 0x4008000000000000 0x4020000000000000 0x3FD8000000000000 0x3FE0000000000000)) (fun t => (t.osc.phase, t.osc.inc)) =
      some (0, 0x3FD8000000000000) := by decide +kernel
/-- Calls 0 to 3: leading, none (twice a strict test fails), trailing, leading. -/
theorem test_osc_next_sample_first :
    after (exec .oscNextSample (oscAt 0x4008000000000000 0x4020000000000000 0x3FD8000000000000 0x0000000000000000)) (fun t => (t.res.num, t.osc.phase)) =
        some (0x0000000000000000, 0x3FD8000000000000) ∧
      after (exec .oscNextSample (oscAt 0x4008000000000000 0x4020000000000000 0x3FD8000000000000 0x3FD8000000000000)) (fun t => (t.res.num, t.osc.phase)) =
        some (0xBFD0000000000000, 0x3FE8000000000000) ∧
      after (exec .oscNextSample (oscAt 0x4008000000000000 0x4020000000000000 0x3FD8000000000000 0x3FE8000000000000)) (fun t => (t.res.num, t.osc.phase)) =
        some (0x3FD8E38E38E38E38, 0x3FC0000000000000) ∧
      after (exec .oscNextSample (oscAt 0x4008000000000000 0x4020000000000000 0x3FD8000000000000 0x3FC0000000000000)) (fun t => (t.res.num, t.osc.phase)) =
        some (0xBFD38E38E38E38E4, 0x3FE0000000000000) := by decide +kernel
/-- Calls 4 to 7. -/
theorem test_osc_next_sample_second :
    after (exec .oscNextSample (oscAt 0x4008000000000000 0x4020000000000000 0x3FD8000000000000 0x3FE0000000000000)) (fun t => (t.res.num, t.osc.phase)) =
        some (0x0000000000000000, 0x3FEC000000000000) ∧
      after (exec .oscNextSample (oscAt 0x4008000000000000 0x4020000000000000 0x3FD8000000000000 0x3FEC000000000000)) (fun t => (t.res.num, t.osc.phase)) =
        some (0x3FD38E38E38E38E4, 0x3FD0000000000000) ∧
      after (exec .oscNextSample (oscAt 0x4008000000000000 0x4020000000000000 0x3FD8000000000000 0x3FD0000000000000)) (fun t => (t.res.num, t.osc.phase)) =
        some (0xBFD8E38E38E38E38, 0x3FE4000000000000) ∧
      after (exec .oscNextSample (oscAt 0x4008000000000000 0x4020000000000000 0x3FD8000000000000 0x3FE4000000000000)) (fun t => (t.res.num, t.osc.phase)) =
        some (0x3FD0000000000000, 0x0000000000000000) := by decide +kernel

/-! ### The modulator: V-LFO1, V-LFO2 -/

theorem test_lfo_set_frequency :
    after (exec (.lfoSetFrequency 0x4014000000000000) { State.reset with lfo := { State.reset.lfo with sr := 0x40E5888000000000, srSet := true } })
        (fun t => t.lfo.inc) = some 0x3F1DB8B6F9266DD5 ∧
      after (exec (.lfoSetFrequency 0x4014000000000000) State.reset) (fun t => (t.lfo.freq, t.lfo.inc)) = some (0x4014000000000000, 0) := by
  decide +kernel
theorem test_lfo_setters :
    after (exec (.lfoSetAmplitude 0x4000000000000000) State.reset) (fun t => t.lfo.amp) = some 0x4000000000000000 ∧
      after (exec (.lfoSetSampleRate 0x4020000000000000) { State.reset with lfo := { State.reset.lfo with freq := 0x3FF0000000000000 } })
        (fun t => t.lfo.inc) = some 0x3FC0000000000000 ∧
      after (exec .lfoReset { State.reset with lfo := { State.reset.lfo with phase := 0x3FD0000000000000 } })
        (fun t => t.lfo.phase) = some 0 := by decide +kernel
/-- V-LFO1 from power-on: a rate set by the modulator's own operation, before any `SETSR`. -/
theorem test_lfo_rate_before_setsr :
    (after (exec (.lfoSetSampleRate 0x4020000000000000) State.reset) id).bind
      (fun s => after (exec (.lfoSetFrequency 0x3FF0000000000000) s) (fun t => (t.cfg.srSet, t.lfo.inc))) =
      some (false, 0x3FC0000000000000) := by decide +kernel
/-- The sample is taken from the phase before it advances: with `sin = 1` and `amp = 2` it is 2. -/
theorem test_lfo_next_sample :
    let l : Lfo := { freq := 0x3FF0000000000000, amp := 0x4000000000000000, sr := 0x4020000000000000, srSet := true, inc := 0x3FC0000000000000, phase := 0x3FD0000000000000 }
    lfoSample (constants oneNum 0 0 0) l = 0x4000000000000000 ∧ (lfoAdvance l).phase = 0x3FD8000000000000 := by decide +kernel

/-! ### The filter: the tables of R174 and R176, V-FLT1, V-FLT2, V-FLT5 -/

/-- R174, first row, with the binary64 values of `sin` and `cos` at its angle. -/
theorem test_flt_coefficients :
    cutoffAngle 0x408F400000000000 0x40E5888000000000 = 0x3FC23CA61DCC76A2 ∧
      coefsOf (constants 0x3FC22CDEABEC443D 0x3FEFACFE8CDED93F 0 0) 0x3FC23CA61DCC76A2 oneNum =
        { b0 := 0x3F736033C15BF6FA, b1 := 0x3F836033C15BF6FA, b2 := 0x3F736033C15BF6FA,
          a1 := 0xBFFD93718098CA99, a2 := 0x3FEBC1E49F3C74E9 } := by decide +kernel
/-- R174, the two clamps; the lower one's bank, with `sin 0 = 0` and `cos 0 = 1`. -/
theorem test_flt_clamps :
    cutoffAngle 0x40DD4C0000000000 0x40E5888000000000 = 0x4008A14D57B373DF ∧ cutoffAngle 0xC014000000000000 0x40E5888000000000 = 0 ∧
      coefsOf plain 0 oneNum = { b0 := 0, b1 := 0, b2 := 0, a1 := 0xC000000000000000, a2 := 0x3FF0000000000000 } := by decide +kernel

/-- A filter with the first row's bank, settled. -/
def fltAt (x1 x2 y1 y2 : Num64) : Flt :=
  { State.reset.flt with
    bank := {
      b0 := 0x3F736033C15BF6FA
      b1 := 0x3F836033C15BF6FA
      b2 := 0x3F736033C15BF6FA
      a1 := 0xBFFD93718098CA99
      a2 := 0x3FEBC1E49F3C74E9 }
    x1 := x1
    x2 := x2
    y1 := y1
    y2 := y2 }

/-- R176: the second and the third output of the impulse response. -/
theorem test_flt_process :
    fltSample plain 0 (fltAt oneNum 0 0x3F736033C15BF6FA 0) = 0x3F92A454A7F5D15C ∧
      fltSample plain 0 (fltAt 0 oneNum 0x3F92A454A7F5D15C 0x3F736033C15BF6FA) = 0x3FA18D05EA563707 ∧
      fltAdvance plain 7 (fltAt 1 2 3 4) =
        { fltAt 7 1 (fltSample plain 7 (fltAt 1 2 3 4)) 3 with k := State.reset.flt.k } := by decide +kernel
/-- V-FLT2: one smoothing step of both parameters. -/
theorem test_flt_smoothing :
    let t := fltSmooth { State.reset.flt with
      cutCur := 0x408F400000000000
      cutTgt := 0x409F400000000000
      resTgt := 0x4000000000000000
      k := 0x3F2DB7DA25BD5000 }
    t.cutCur = 0x408F41D058B08DAE ∧ t.resCur = 0x3FF000EDBED12DEA := by decide +kernel
theorem test_flt_setters :
    after (exec (.fltSetCutoffFrequency 0x409F400000000000) State.reset) (fun t => (t.flt.cutTgt, t.flt.cutCur)) =
        some (0x409F400000000000, 0x40B3880000000000) ∧
      after (exec (.fltSetResonance 0x4000000000000000) State.reset) (fun t => (t.flt.resTgt, t.flt.resCur)) =
        some (0x4000000000000000, 0x3FF0000000000000) := by decide +kernel
theorem test_flt_reset :
    after (exec .fltReset { State.reset with flt := fltAt 0x3FD1EB851EB851EC 0x3FC999999999999A 0x3FCEB851EB851EB8 0x3FC5C28F5C28F5C3 }) (fun t => t.flt) =
      some (fltAt 0 0 0 0) := by decide +kernel
theorem test_flt_set_sample_rate :
    let t := fltSetSampleRate plain 0x40E5888000000000 State.reset.flt
    t.sr = 0x40E5888000000000 ∧ t.k = 0x3F2DB7DA25BD5000 ∧ t.bank = coefsOf plain 0x3FE6CBCFA53F944B oneNum := by
  decide +kernel

/-! ### The envelope: the table of R185, V-ENV2 to V-ENV4 -/

/-- `ENV.Value` with the power-on parameters. -/
def gainAt (dt : Num64) : Option Num64 := after (exec (.envValue dt) State.reset) fun t => t.res.num

theorem test_env_attack_and_decay :
    gainAt 0x0000000000000000 = some 0 ∧ gainAt 0x3F747AE147AE147B = some 0x3FE0000000000000 ∧ gainAt 0x3F847AE147AE147B = some 0x3FF0000000000000 ∧
      gainAt 0x3F947AE147AE147B = some 0x3FE8000000000000 := by decide +kernel
/-- With the binary64 value of `exp(-1)`: the row `dt = 0.06`. -/
theorem test_env_release :
    envGain (constants 0 0 0x3FD78B56362CEF39 0) true State.reset.env 0x3FAEB851EB851EB8 =
      0x3FC78B56362CEF39 := by decide +kernel
theorem test_env_bypassed :
    envGain plain false State.reset.env 0x7FF8000000000000 = oneNum := by decide +kernel
theorem test_env_attack :
    after (exec .envAttack { State.reset with v := { State.reset.v with noteOnTime := 0xBF6293725BB804A5 } })
      (fun t => t.v.noteOnTime) = some 0 := by decide +kernel
theorem test_env_setters :
    after (exec (.envSetAttackTime 1) State.reset) (fun t => t.env) = some { State.reset.env with attack := 1 } ∧
      after (exec (.envSetDecayTime 1) State.reset) (fun t => t.env) = some { State.reset.env with decay := 1 } ∧
      after (exec (.envSetSustainLevel 1) State.reset) (fun t => t.env) = some { State.reset.env with sustain := 1 } ∧
      after (exec (.envSetReleaseTime 1) State.reset) (fun t => t.env) = some { State.reset.env with release := 1 } := by
  decide +kernel

/-! ### The voice: V-VOICE1, V-VOICE2, V-VOICE4, V-RT1 -/

/-- V-VOICE1: frame 1 of program P1 as a call of one frame with the index 1: `s = (o * g) * HEADROOM`. -/
theorem test_voice_input :
    let s : State := { State.reset with
      osc := { freq := 0x407B800000000000, sr := 0x40E5888000000000, inc := 0x3F846EFDCB4A6B82, phase := 0x3F846EFDCB4A6B82 }
      v := { State.reset.v with sr := 0x40E5888000000000 }
      sch := { State.reset.sch with i := 1 } }
    voiceInput plain true s = 0xBF52348DAE867C99 ∧ voiceInput plain false s = 0 := by decide +kernel
/-- V-VOICE2: the clock after a call of 100 frames. -/
theorem test_voice_clock :
    (clockAfter 100 { State.reset.v with sr := 0x40E5888000000000 }).noteOnTime = 0xBF6293725BB804A5 := by decide +kernel
/-- R195: a call of no frame; a call of two frames writes two words, behind a closed gate zeros. -/
theorem test_voice_process :
    after (exec (.voiceProcess 3 0 true) { ready [] with v := { State.reset.v with sr := 0x40E5888000000000 } }) (fun t => t.out) =
        some { ch0 := [], ch1 := [] } ∧
      (voiceProcess plain [] 3 2 false (ready [])).out = { ch0 := [(3, 0), (4, 0)], ch1 := [] } := by decide +kernel
theorem test_voice_reset :
    after (exec .voiceReset { oscAt 0x407B800000000000 0 0 0x3FDC28F5C28F5C29 with
        flt := fltAt 1 2 3 4
        v := { State.reset.v with noteOnTime := 0xBF50624DD2F1A9FC, heldNote := some 69 } })
      (fun t => (t.osc.phase, t.flt, t.v.noteOnTime, t.v.heldNote)) = some (0, fltAt 0 0 0 0, 0, some 69) := by decide +kernel
theorem test_voice_set_envelope_enabled :
    let s : State := { State.reset with
      v := { State.reset.v with envEnabled := false, heldNote := some 69, noteOnTime := 0xBF50624DD2F1A9FC } }
    after (exec (.voiceSetEnvelopeEnabled true) s) (fun t => (t.v.envEnabled, t.v.noteOnTime)) = some (true, 0) ∧
      after (exec (.voiceSetEnvelopeEnabled true) { s with v := { s.v with heldNote := none } })
        (fun t => (t.v.envEnabled, t.v.noteOnTime)) = some (true, 0xBF50624DD2F1A9FC) := by decide +kernel
theorem test_voice_setters :
    after (exec (.voiceSetGlobalBypass true) State.reset) (fun t => t.v.bypass) = some true ∧
      after (exec (.voiceSetCutoff 0x408F400000000000) State.reset) (fun t => (t.v.baseCut, t.flt.cutTgt, t.flt.cutCur)) =
        some (0x408F400000000000, 0x408F400000000000, 0x40B3880000000000) := by decide +kernel
/-- V-SR1: the registers a sample-rate change writes and `lfo.phase`, which it does not. -/
theorem test_voice_set_sample_rate :
    after (exec (.voiceSetSampleRate 0x40BF400000000000) { State.reset with lfo := { State.reset.lfo with phase := 0x3FD0000000000000 } })
      (fun t => (t.v.sr, t.osc.sr, t.lfo.sr, t.flt.sr, t.osc.inc, t.lfo.phase)) =
      some (0x40BF400000000000, 0x40BF400000000000, 0x40BF400000000000, 0x40BF400000000000, 0x3FAC28F5C28F5C29, 0x3FD0000000000000) := by decide +kernel

/-! ### The events: V-SCH3, V-SCH4 -/

/-- The state of V-SCH4. -/
def holding : State :=
  { State.reset with
    osc := { freq := 0x407B800000000000, sr := 0x40E5888000000000, inc := 0x3F846EFDCB4A6B82, phase := 0 }
    v := { State.reset.v with heldNote := some 69, noteOnTime := 0xBF50624DD2F1A9FC, sr := 0x40E5888000000000 } }

/-- Note 72, with the value of `2^(3/12)`. -/
theorem test_note_on :
    let t := applyNoteOn (constants 0 0 0 0x3FF306FE0A31B715) 72 holding
    t.v.heldNote = some 72 ∧ t.osc.freq = 0x40805A0250C2B956 ∧ t.osc.inc = 0x3F884CBB6F967329 ∧
      t.v.noteOnTime = 0 := by decide +kernel
theorem test_note_on_v0 :
    after (exec (.noteOnV0 0 69 0) holding) (fun t => (t.v.heldNote, t.v.noteOnTime)) = some (none, 0xBF50624DD2F1A9FC) ∧
      after (exec (.noteOnV0 0 60 0) holding) id = some holding := by decide +kernel
theorem test_note_off :
    after (exec (.noteOff 0 69 64 0) holding) (fun t => (t.v.heldNote, t.osc.freq)) = some (none, 0x407B800000000000) ∧
      after (exec (.noteOff 0 60 0 0) holding) id = some holding := by decide +kernel
theorem test_all_notes_off :
    after (exec (.ccAllNotesOff 0 127 0) holding) (fun t => (t.v.heldNote, t.v.noteOnTime)) =
      some (none, 0xBF50624DD2F1A9FC) := by decide +kernel
theorem test_ignored_events :
    after (exec (.ccOther 0 64 127 0) holding) id = some holding ∧ after (exec (.pitchBend 0 0 64 0) holding) id = some holding ∧
      after (exec (.programChange 0 5 0 0) holding) id = some holding ∧ after (exec (.polyPressure 0 69 1 0) holding) id = some holding ∧
      after (exec (.channelPressure 0 69 1 0) holding) id = some holding ∧ after (exec (.system 8 0 0 0) holding) id = some holding ∧
      after (exec (.notAStatus 4 5 0 0 0) holding) id = some holding := by decide +kernel

/-! ### The scheduler: V-SCH1, V-SCH2, V-SCH5 -/

/-- Two records due at 0, one at 2: the drain applies the first two. -/
theorem test_drain :
    let s : State := { ready [recOff 0, recOn 0, recOn 2] with v := holding.v }
    (schDrain plain s).q.recs = [recOn 2] ∧ (schDrain plain s).v.heldNote = some 69 ∧
      (schDrain plain s).v.noteOnTime = 0 := by decide +kernel
theorem test_gate :
    let v := State.reset.v
    gateOf plain { v with envEnabled := false } = false ∧ gateOf plain v = true ∧
      gateOf plain { v with envEnabled := false, heldNote := some 0 } = true ∧
      gateOf plain { v with bypass := true, heldNote := some 0 } = false := by decide +kernel
theorem test_copy_channels :
    copyChannels plain 2 { ch0 := [(0, 5), (2, 6)], ch1 := [(1, 7), (2, 8)] } =
      { ch0 := [(0, 5), (2, 6)], ch1 := [(0, 5), (2, 8)] } := by decide +kernel

/-! ### The host commands: V-SETP1, V-FAULT1 -/

/-- V-FAULT1, code 4. -/
theorem test_setsr_bad :
    faultOf (exec (.setsr 0) State.reset) = some (.badSampleRate 0) ∧
      faultOf (exec (.setsr 0x7FF0000000000000) State.reset) = some (.badSampleRate 0x7FF0000000000000) ∧
      faultOf (exec (.setsr 0x7FF8000000000000) State.reset) = some (.badSampleRate 0x7FF8000000000000) := by decide +kernel
theorem test_setsr :
    after (exec (.setsr 0x40E5888000000000) State.reset) (fun t => (t.cfg.srSet, t.osc.inc)) =
      some (true, 0x3F846EFDCB4A6B82) := by decide +kernel
theorem test_setbs :
    after (exec (.setbs 2) (ready [recOn 3])) (fun t => (t.sch.blockSize, t.q.cap, t.q.recs)) =
      some (2, 4, [recOn 3]) := by decide +kernel
theorem test_enq :
    after (exec (.enq 0x993C64 1) (ready [recOn 1])) (fun t => t.q.recs) =
      some [recOn 1, { status := 0x9, data1 := 60, data2 := 100, off := 1 }] := by decide +kernel
/-- V-FAULT1, codes 7, 8, 9, and the refusal. -/
theorem test_enq_stops :
    faultOf (exec (.enq 0x903C01 4) (ready [])) = some (.eventOffsetOutOfRange 4) ∧
      faultOf (exec (.enq 0x803C00 0) (ready [recOn 1])) = some (.eventOrderViolation 0) ∧
      faultOf (exec (.enq 0x903D01 1) (ready [recOn 1, recOn 1, recOn 1, recOn 1])) = some (.queueOverflow 4) ∧
      refusalOf (exec (.enq 0x908064 0) (ready [])) = some (.malformedEvent 0x908064) := by decide +kernel
/-- V-FAULT1, codes 5, 10, 11; `RENDER 0` keeps the queue. -/
theorem test_render_stops :
    faultOf (exec (.render 4 []) State.reset) = some (.notConfigured .render) ∧
      faultOf (exec (.render 5 []) (ready [])) = some (.frameCountExceedsBlockSize 5) ∧
      faultOf (exec (.render 1 []) (ready [recOn 1])) = some (.eventBeyondFrameCount 0x9 69 100 1) ∧
      after (exec (.render 0 []) (ready [recOn 1])) id = some (ready [recOn 1]) := by decide +kernel
/-- R63: a word that an earlier block left is no value after a block that does not write it. -/
theorem test_render_poisons :
    let s : State := { ready [] with
      v := { State.reset.v with bypass := true }
      out := { ch0 := [(0, 7), (3, 5)], ch1 := [(3, 5)] } }
    (schRender plain [] 1 s).out =
      { ch0 := [(0, 0)], ch1 := [(0, 0)] } := by decide +kernel
/-- P1, its first two frames: `0.0` and `-0.00010183193361339027`, in both channels. -/
theorem test_render :
    let w : Num64 := 0x3FE6CBCFA53F944B
    let P := constants 0x3FE4EA96A42CC218 0x3FE837C727A17037 oneNum oneNum
    let Q : Params := { P with num := { P.num with sin := fun x => if x = w then 0x3FE4EA96A42CC218 else 0 } }
    let s := voiceSetSampleRate Q 0x40E5888000000000 (ready [recOn 0])
    (schRender Q [] 2 s).out =
      { ch0 := [(0, 0), (1, 0xBF1AB1D34C58EB9E)], ch1 := [(0, 0), (1, 0xBF1AB1D34C58EB9E)] } := by
  decide +kernel
theorem test_reset_command :
    after (exec .reset (oscAt 0x407B800000000000 0 0 0x3FDC28F5C28F5C29)) (fun t => (t.osc.phase, t.osc.freq)) = some (0, 0x407B800000000000) := by
  decide +kernel
theorem test_setp_smoothed :
    after (exec (.setpCutoff 0x408F400000000000) State.reset) (fun t => (t.v.baseCut, t.flt.cutTgt, t.flt.cutCur)) =
        some (0x408F400000000000, 0x408F400000000000, 0x40B3880000000000) ∧
      after (exec (.setpResonance 0x3FE6A09E667F3BCD) State.reset) (fun t => (t.flt.resTgt, t.flt.resCur)) =
        some (0x3FE6A09E667F3BCD, 0x3FF0000000000000) := by decide +kernel
theorem test_setp_times :
    after (exec (.setpAttack 0x3FE0000000000000) State.reset) (fun t => t.env.attack) = some 0x3F40624DD2F1A9FC ∧
      after (exec (.setpDecay 0x4034000000000000) State.reset) (fun t => t.env.decay) = some 0x3F947AE147AE147B ∧
      after (exec (.setpRelease 0x403E000000000000) State.reset) (fun t => t.env.release) = some 0x3F9EB851EB851EB8 := by decide +kernel
/-- `-6` dB, with the value of `10^(-0.3)`. -/
theorem test_sustain_conversion :
    fdiv 0xC018000000000000 twentyNum = 0xBFD3333333333333 ∧
      amplitudeOperand (constants 0 0 0 0x3FE009B9CF334252) 0xC018000000000000 = 0x3FE009B9CF334252 := by decide +kernel
theorem test_setp_lfo :
    after (exec (.setpLfoRate 0x4014000000000000) { ready [] with lfo := { State.reset.lfo with sr := 0x40E5888000000000, srSet := true } })
        (fun t => (t.lfo.freq, t.lfo.inc)) = some (0x4014000000000000, 0x3F1DB8B6F9266DD5) ∧
      after (exec (.setpLfoDepth 0x4069000000000000) State.reset) (fun t => t.lfo.amp) = some 0x4069000000000000 := by decide +kernel
theorem test_setp_flags :
    after (exec (.setpEnvEnable 0x3FE0000000000000) State.reset) (fun t => t.v.envEnabled) = some true ∧
      after (exec (.setpEnvEnable 0x3FDF5C28F5C28F5C) State.reset) (fun t => t.v.envEnabled) = some false ∧
      after (exec (.setpBypass 0xBFF0000000000000) State.reset) (fun t => t.v.bypass) = some false ∧
      after (exec (.setpBypass 0x405FC00000000000) State.reset) (fun t => t.v.bypass) = some true := by decide +kernel
/-- V-FAULT1, codes 3 and 6. -/
theorem test_setp_stops :
    faultOf (exec (.setpCutoff 0x7FF8000000000000) State.reset) = some (.badOperand 0 0x7FF8000000000000) ∧
      faultOf (exec (.setpAttack 0x7FF0000000000000) State.reset) = some (.badOperand 2 0x7FF0000000000000) ∧
      faultOf (exec (.setpAttack 0x4014000000000000) rendering) = some (.concurrentWrite (.setp 2)) := by decide +kernel


/-! ### Witnesses: for each statement with hypotheses, states and operands that meet them, at the ends of each range -/

theorem witness_DecodeOfEncodeIsTheInstruction :
    (Instr.noteOn 15 127 1 0xFFFFFFFF).wellFormed = true ∧ (Instr.noteOn 0 0 127 0).wellFormed = true ∧
      (Instr.ccOther 0 122 0 0).wellFormed = true ∧ (Instr.ccOther 0 124 0 0).wellFormed = true ∧
      (Instr.render 4 [{ frame := 0, target := .cutoff, value := 0 },
        { frame := 4, target := .resonance, value := 0 }, { frame := 2, target := .cutoff, value := 0 }]).wellFormed = true ∧
      (Instr.voiceProcess 0xFFFFFFFF 0xFFFFFFFF true).wellFormed = true := by decide

theorem witness_EventWordDecodesToExactlyOneRow :
    [0x000000#24, 0x7F7F7F#24, 0x904500#24, 0x904501#24, 0xB07B00#24, 0xB07A00#24, 0xFF7F7F#24].all
      (fun w => !evReserved15 w && !evReserved7 w) = true := by decide

theorem witness_EventWord_statuses :
    evStatus 0x904500 = 0x9 ∧ evData2 0x904500 = 0 ∧ evStatus 0x904501 = 0x9 ∧ evData2 0x904501 ≠ 0 ∧
      evStatus 0xB07B00 = 0xB ∧ evData1 0xB07B00 = 123 ∧ evStatus 0xB07A00 = 0xB ∧ evData1 0xB07A00 ≠ 123 := by decide

theorem witness_WordsOutsideTheTableAreRejected :
    (∀ it, (given it).faults = [] ∧ (given it).port.pending = [it]) ∧
      ([0x0000#16, 0x0700#16, 0x0101#16, 0x06FF#16].all fun w =>
        !decide (1 ≤ (hcCmd w).toNat ∧ (hcCmd w).toNat ≤ 6) || decide (hcCmd w ≠ 0x04 ∧ hcSub w ≠ 0)) = true ∧
      (hcCmd 0x040A = 0x04 ∧ 10 ≤ (hcSub 0x040A).toNat) ∧ (hcCmd 0x04FF = 0x04 ∧ 10 ≤ (hcSub 0x04FF).toNat) ∧
      evReserved15 0x908064 = true ∧ evReserved7 0x904580 = true ∧
      ((Instr.voiceProcess 0 0 false).wellFormed = true ∧
        (presented (.uop 0x50) []).word = (encode (.voiceProcess 0 0 false)).word) ∧
      (∀ i : Instr, rowOf i ≠ uopRow (0x46#8).toNat) := by
  refine ⟨fun _ => ⟨rfl, rfl⟩, by decide, by decide, by decide, by decide, by decide, ⟨rfl, rfl⟩, fun i => ?_⟩
  cases i <;> simp [rowOf, evRow, hcRow, uopRow]

theorem witness_StepRunsThePresentedInstruction :
    (State.reset.faults = [] ∧ State.reset.port.pending = []) ∧
      (∃ (s : State) (it : PortItem) (rest : List PortItem) (i : Instr), s.faults = [] ∧
        s.port.pending = it :: rest ∧ decode it = .ok i) ∧
      ∃ (s : State) (it : PortItem) (rest : List PortItem) (e : DecodeError), s.faults = [] ∧
        s.port.pending = it :: rest ∧ decode it = .error e :=
  ⟨⟨rfl, rfl⟩,
    ⟨given (presented (.hc 0x0600) []), presented (.hc 0x0600) [], [], .reset, rfl, rfl, rfl⟩,
    ⟨given (presented (.hc 0x0700) []), presented (.hc 0x0700) [], [], .badCommand 0x0700, rfl, rfl, rfl⟩⟩

theorem witness_DecodedInstructionsAreWellFormed :
    decode (presented (.hc 0x0500) [4, 4, 1, 0]) = .ok (.render 4 [{ frame := 4, target := .resonance, value := 0 }]) ∧
      decode (presented (.ev 0x904501) [0]) = .ok (.noteOn 0 69 1 0) ∧
      decode (presented (.uop 0x50) [0xFFFFFFFE, 1, 0]) = .ok (.voiceProcess 0xFFFFFFFE 1 false) := by decide

/-- The three finite cases, and a NaN and an infinity. -/
theorem witness_OscillatorNextSample :
    (isFinite (0 : Num64) = true ∧ isFinite halfNum = true ∧ isFinite oneNum = true ∧ isFinite twoNum = true) ∧
      isFinite (0x7FF8000000000000 : Num64) = false ∧ isFinite (0xFFF0000000000000 : Num64) = false ∧ numLt (0 : Num64) twoNum = true ∧
      (numLt oneNum halfNum = false ∧ numLt (fsub oneNum halfNum) oneNum = true) ∧
      numLt halfNum halfNum = false ∧ numLt (fsub oneNum halfNum) halfNum = false := by decide +kernel

theorem witness_ModulatorOperationsWrite :
    { State.reset.lfo with srSet := true }.srSet = true ∧ State.reset.lfo.srSet = false := by decide

/-- The phases 0 and the largest below 1; the increments 0 and the largest finite one. -/
theorem witness_NextSampleKeepsThePhase :
    (phaseOk (oscAt 0 0 0 0).osc.phase = true ∧ incOk (oscAt 0 0 0 0).osc.inc = true) ∧
      (phaseOk (oscAt 0 0 0x7FEFFFFFFFFFFFFF 0x3FEFFFFFFFFFFFFF).osc.phase = true ∧
        incOk (oscAt 0 0 0x7FEFFFFFFFFFFFFF 0x3FEFFFFFFFFFFFFF).osc.inc = true) ∧
      phaseOk State.reset.lfo.phase = true ∧ incOk State.reset.lfo.inc = true := by decide +kernel

theorem witness_RenderKeepsThePhases :
    (∀ note, incOk (fdiv (noteFreq plain note) holding.osc.sr) = true) ∧ incOk holding.osc.inc = true ∧
      incOk holding.lfo.inc = true ∧ phaseOk holding.osc.phase = true ∧ phaseOk holding.lfo.phase = true := by
  refine ⟨fun _ => ?_, by decide +kernel, by decide +kernel, by decide +kernel, by decide +kernel⟩
  have h : incOk (fdiv (fmul a4Hz oneNum) holding.osc.sr) = true := by decide +kernel
  exact h

theorem witness_FilterProcessesOneSample :
    (numEq State.reset.flt.cutCur State.reset.flt.cutTgt = true ∧ numEq State.reset.flt.resCur State.reset.flt.resTgt = true) ∧
      numEq { State.reset.flt with cutTgt := 0 }.cutCur { State.reset.flt with cutTgt := 0 }.cutTgt = false ∧
      numEq { State.reset.flt with resTgt := 0 }.resCur { State.reset.flt with resTgt := 0 }.resTgt = false := by
  decide +kernel

/-- A quotient `0/0`, and one beyond the clamp. -/
theorem witness_CutoffAngleIsClamped :
    isNaN (fdiv (fmul twoPiNum zeroNum) zeroNum) = true ∧ isNaN (fdiv (fmul twoPiNum thousandNum) oneNum) = false := by
  refine ⟨?_, by decide +kernel⟩
  have h : fmul twoPiNum zeroNum = zeroNum := by decide +kernel
  have h0 : isNaN zeroNum = false ∧ isInf zeroNum = false ∧ isZero zeroNum = true := by decide
  rw [h]
  simp [fdiv, h0, nanOf, isNaN_quietNaN]

theorem witness_SilenceThroughASettledFilter :
    isZero (0x8000000000000000 : Num64) = true ∧ zeroHistory State.reset.flt = true ∧
      finiteBank State.reset.flt.bank = true ∧ numEq State.reset.flt.cutCur State.reset.flt.cutTgt = true ∧
      numEq State.reset.flt.resCur State.reset.flt.resTgt = true := by decide +kernel

/-- `dt` of 0, of the attack time, and of the end of the decay. -/
theorem witness_EnvelopeStages :
    { State.reset.v with envEnabled := false }.envEnabled = false ∧ State.reset.v.envEnabled = true ∧
      numLt 0 State.reset.env.attack = true ∧
      (numLt State.reset.env.attack State.reset.env.attack = false ∧
        numLt State.reset.env.attack (fadd State.reset.env.attack State.reset.env.decay) = true) ∧
      numLt oneNum State.reset.env.attack = false ∧
      numLt oneNum (fadd State.reset.env.attack State.reset.env.decay) = false := by decide +kernel

theorem witness_NoteStartsFromSilence :
    State.reset.v.envEnabled = true ∧ numLt zeroNum State.reset.env.attack = true ∧
      numLt zeroNum { State.reset.env with attack := 1 }.attack = true := by decide +kernel

theorem witness_VoiceSettersWrite :
    (let v := { holding.v with envEnabled := false }
     (true = true ∧ v.envEnabled = false ∧ v.heldNote ≠ none)) ∧
      ¬(true = true ∧ holding.v.envEnabled = false ∧ holding.v.heldNote ≠ none) ∧
      ¬(false = true ∧ holding.v.envEnabled = false ∧ holding.v.heldNote ≠ none) := by decide

theorem witness_TransportResetWrites : holding.port.during = false := rfl

theorem witness_SampleRateChangeWrites :
    State.reset.port.during = false ∧ (isFinite 0x0000000000000001 = true ∧ numLt zeroNum 0x0000000000000001 = true) ∧
      isFinite 0x7FEFFFFFFFFFFFFF = true ∧ numLt zeroNum 0x7FEFFFFFFFFFFFFF = true := by decide +kernel

theorem witness_VoiceProcessIsFrameByFrame : 0 < (2 : Idx).toNat ∧ 1 < (2 : Idx).toNat := by decide

/-- The first and the last frame of a call of two frames at 3, the words beside them, and a call that ends at the last
index there is. -/
theorem witness_VoiceProcessFrame :
    (0 < (2 : Idx).toNat ∧ 1 < (2 : Idx).toNat) ∧ (0xFFFFFFFE : Idx).toNat + 1 < 2 ^ 32 ∧
      (∀ k, k < (2 : Idx).toNat → 2 ≠ frameIndex (3 : Idx).toNat k) ∧
      (∀ k, k < (2 : Idx).toNat → 5 ≠ frameIndex (3 : Idx).toNat k) := by decide

theorem witness_ClosedGateHidesTheOscillator :
    let t : State := { holding with osc := { holding.osc with phase := halfNum }, v := { holding.v with heldNote := none } }
    t ≠ holding ∧ t.lfo = holding.lfo ∧ t.flt = holding.flt ∧ t.out = holding.out ∧ t.v.baseCut = holding.v.baseCut := by
  decide +kernel

theorem witness_ClosedGateIsSilent :
    plain.hasFilter = true ∧ zeroHistory State.reset.flt = true ∧
      ∀ k, k < (2 : Idx).toNat →
        let ws : List TargetWrite := [{ frame := 1, target := .resonance, value := twoNum }]
        let a := landBefore plain ws ((0 : Idx).toNat + k) (voiceFrames plain ws (0 : Idx).toNat false k
          { State.reset with sch := { State.reset.sch with i := 0 } })
        finiteBank (fltAdopt plain (voiceFilter plain a)).bank = true := by
  refine ⟨rfl, by decide, fun k hk => ?_⟩
  have h : ∀ k : Fin 2,
      let ws : List TargetWrite := [{ frame := 1, target := .resonance, value := twoNum }]
      finiteBank (fltAdopt plain (voiceFilter plain (landBefore plain ws ((0 : Idx).toNat + k.val)
        (voiceFrames plain ws (0 : Idx).toNat false k.val
          { State.reset with sch := { State.reset.sch with i := 0 } })))).bank = true := by decide +kernel
  exact h ⟨k, hk⟩

theorem witness_SplitCallsAgree :
    (0xFFFFFFFD : Idx).toNat + (1 : Idx).toNat + (1 : Idx).toNat < 2 ^ 32 ∧
      envelopeOn plain { State.reset.v with envEnabled := false } = false := by decide

theorem witness_NoteOffComparesWithTheHeldNote :
    holding.v.heldNote = some 69 ∧ ((69 : Data7).toNat : Int) = 69 ∧ ((127 : Data7).toNat : Int) ≠ 69 ∧
      State.reset.v.heldNote = none := by decide

theorem witness_DrainedRecordsActAsTheirWords :
    evReserved15 0x904501 = false ∧ evReserved7 0x904501 = false ∧ evReserved15 0xB07B00 = false ∧
      evReserved7 0xB07B00 = false := by decide

theorem witness_GateTruthTable :
    { holding.v with bypass := true }.bypass = true ∧ (holding.v.bypass = false ∧ holding.v.heldNote ≠ none) ∧
      (State.reset.v.bypass = false ∧ State.reset.v.envEnabled = true) ∧
      ({ State.reset.v with envEnabled := false }.bypass = false ∧
        { State.reset.v with envEnabled := false }.heldNote = none ∧
        { State.reset.v with envEnabled := false }.envEnabled = false) := by decide

/-- Three records in a block of four frames, and a write before the first frame and one after the last. -/
def writes : List TargetWrite :=
  [{ frame := 0, target := .cutoff, value := thousandNum }, { frame := 4, target := .resonance, value := twoNum }]

theorem ready_writes : RenderReady 4 writes (ready [recOn 0, recOn 1, recOff 3]) :=
  ⟨rfl, rfl, rfl, by decide, by decide, by decide +kernel⟩

theorem witness_RenderIsTheRunsBetweenOffsets :
    0 < (4 : Idx).toNat ∧ RenderReady 4 writes (ready [recOn 0, recOn 1, recOff 3]) ∧
      (ready [recOn 0, recOn 1, recOff 3]).q.recs.Pairwise (fun a b => a.off.toNat ≤ b.off.toNat) ∧
      offsetsAbove0 [recOn 0, recOn 1, recOff 3] [1, 3] := by
  refine ⟨by decide, ready_writes, by decide, by decide, fun x => ⟨fun h => ?_, ?_⟩⟩
  · simp only [List.mem_cons, List.not_mem_nil, or_false] at h
    rcases h with rfl | rfl
    · exact ⟨by decide, recOn 1, by simp, rfl⟩
    · exact ⟨by decide, recOff 3, by simp, rfl⟩
  · rintro ⟨h0, e, he, rfl⟩
    simp only [List.mem_cons, List.not_mem_nil, or_false] at he
    rcases he with rfl | rfl | rfl
    · exact absurd h0 (by decide)
    · decide
    · decide

theorem witness_RenderFillsTheBlock :
    0 < (4 : Idx).toNat ∧ RenderReady 4 writes (ready [recOn 0, recOn 1, recOff 3]) ∧ 3 < (4 : Idx).toNat ∧
      (4 : Idx).toNat ≤ 4 := ⟨by decide, ready_writes, by decide, by decide⟩

theorem witness_RenderFrame :
    RenderReady 4 writes (ready [recOn 0, recOn 1, recOff 3]) ∧ RenderReady 4 [] (ready []) ∧ (ready []).q.recs = [] ∧
      RenderReady 0 [] (ready [recOn 3]) :=
  ⟨ready_writes, ⟨rfl, rfl, rfl, by decide, by decide, by decide⟩, rfl, ⟨rfl, rfl, rfl, by decide, by decide, by decide⟩⟩

theorem witness_RenderDoesNotReadTheOldOutput :
    0 < (4 : Idx).toNat ∧ RenderReady 4 writes (ready [recOn 0, recOn 1, recOff 3]) ∧ 1 < (2 : Idx).toNat :=
  ⟨by decide, ready_writes, by decide⟩

theorem witness_WriteBeforeFrameZeroIsAPrecedingSetp :
    ∃ w ws, writes = w :: ws ∧ 0 < (4 : Idx).toNat ∧ w.frame = 0 ∧
      RenderReady 4 (w :: ws) (ready [recOn 0, recOn 1, recOff 3]) :=
  ⟨_, _, rfl, by decide, rfl, ready_writes⟩

theorem witness_WriteAfterTheLastFrameIsAFollowingSetp :
    ∃ w ws, writes = ws ++ [w] ∧ w.frame = 4 ∧ RenderReady 4 (ws ++ [w]) (ready [recOn 0, recOn 1, recOff 3]) :=
  ⟨{ frame := 4, target := .resonance, value := twoNum }, [{ frame := 0, target := .cutoff, value := thousandNum }],
    rfl, rfl, ready_writes⟩

theorem witness_HeldNoteIsInaudibleUnderTheEnvelope :
    (ready [recOn 0, recOn 1, recOff 3]).v.envEnabled = true ∧
      RenderReady 4 writes (ready [recOn 0, recOn 1, recOff 3]) := ⟨rfl, ready_writes⟩

theorem witness_SetBlockSizeWrites : (ready []).port.during = false := rfl

/-- The clauses in their order: the last offset, the tail's own offset and the last free place pass; then each check
fails just beyond. -/
theorem witness_EnqueuePushesOrStops :
    (let s := ready [recOn 3, recOn 3, recOn 3]
     s.port.during = false ∧ s.cfg.bsSet = true ∧ ¬(evReserved15 0x904564 = true ∨ evReserved7 0x904564 = true) ∧
       (3 : Idx).toNat < s.sch.blockSize.toNat ∧
       (¬∃ last, s.q.recs.getLast? = some last ∧ (3 : Idx).toNat < last.off.toNat) ∧
       s.q.recs.length < s.q.cap.toNat ∧
       (∃ last, s.q.recs.getLast? = some last ∧ (2 : Idx).toNat < last.off.toNat)) ∧
      State.reset.cfg.bsSet = false ∧ (evReserved15 0x908064 = true ∨ evReserved7 0x908064 = true) ∧
      (ready []).sch.blockSize.toNat ≤ (4 : Idx).toNat ∧
      (let s := ready [recOn 3, recOn 3, recOn 3, recOn 3]
       s.q.cap.toNat ≤ s.q.recs.length ∧ ¬∃ last, s.q.recs.getLast? = some last ∧ (3 : Idx).toNat < last.off.toNat) := by
  refine ⟨⟨rfl, rfl, by decide, by decide, ?_, by decide, ⟨recOn 3, rfl, by decide⟩⟩, rfl, by decide, by decide,
    by decide, ?_⟩
  · rintro ⟨last, h, hlt⟩; cases h; exact absurd hlt (by decide)
  · rintro ⟨last, h, hlt⟩; cases h; exact absurd hlt (by decide)

theorem witness_QueuedRecordHasTheFieldsOfItsWord :
    let s := ready [recOn 3, recOn 3, recOn 3]
    s.port.during = false ∧ s.cfg.bsSet = true ∧ evReserved15 0xFF7F7F = false ∧ evReserved7 0xFF7F7F = false ∧
      (3 : Idx).toNat < s.sch.blockSize.toNat ∧
      (∀ last, s.q.recs.getLast? = some last → last.off.toNat ≤ (3 : Idx).toNat) ∧
      s.q.recs.length < s.q.cap.toNat := by
  refine ⟨rfl, rfl, by decide, by decide, by decide, fun last h => ?_, by decide⟩
  cases h
  decide

theorem witness_RenderCompletesOrFaults :
    (ready []).port.during = false ∧ RenderReady 4 writes (ready [recOn 0, recOn 1, recOff 3]) ∧
      ((ready []).cfg.srSet = true ∧ (ready []).cfg.bsSet = true) ∧
      ¬(State.reset.cfg.srSet = true ∧ State.reset.cfg.bsSet = true) ∧
      (ready []).sch.blockSize.toNat < (5 : Idx).toNat ∧
      ((ready [recOn 1, recOn 2]).q.recs = [recOn 1] ++ recOn 2 :: [] ∧
        (∀ a ∈ [recOn 1], a.off.toNat < (2 : Idx).toNat) ∧ (2 : Idx).toNat ≤ (recOn 2).off.toNat) ∧
      ∃ w : TargetWrite, isValue w.value = false :=
  ⟨rfl, ready_writes, ⟨rfl, rfl⟩, by decide, by decide, ⟨rfl, by decide, by decide⟩,
    ⟨{ frame := 0, target := .cutoff, value := 0x7FF0000000000000 }, by decide⟩⟩

/-- The largest finite number and the smallest subnormal, negative. -/
theorem witness_SetParameterWrites :
    State.reset.port.during = false ∧ isFinite 0x7FEFFFFFFFFFFFFF = true ∧ isFinite 0x8000000000000001 = true ∧
      ((ready []).cfg.srSet = true ∧ { (ready []).lfo with srSet := true }.srSet = true) ∧
      State.reset.cfg.srSet = false ∧ (ready []).lfo.srSet = false := by decide

theorem witness_TimesAndDepthAreStored :
    State.reset.port.during = false ∧ isFinite 0xFFEFFFFFFFFFFFFF = true ∧ isFinite 0x0000000000000000 = true := by decide

theorem witness_NonValuesFault :
    isFinite 0x7FF0000000000000 = false ∧ isFinite 0x7FF0000000000001 = false ∧ State.reset.port.during = false ∧
      numLt zeroNum 0x8000000000000000 = false ∧ numLt zeroNum 0x7FF8000000000000 = false := by decide +kernel

theorem witness_CommandsDuringARenderFault : rendering.port.during = true ∧ isFinite zeroNum = true := by decide

theorem witness_FaultRecordOnlyGrows :
    (∃ t, step State.reset = .next t) ∧ (∃ f, step (given (presented (.hc 0x0700) [])) = .fault f) ∧
      { State.reset with faults := [.badCommand 0] }.faults ≠ [] :=
  ⟨⟨_, rfl⟩, ⟨_, rfl⟩, by decide⟩

/-- A `RENDER` of two frames, presented to a state with the invariant. -/
def renderPresented : State := presentItem (presented (.hc 0x0500) [2]) (ready [recOn 1])

theorem renderPresented_steps : ∃ t, step renderPresented = .next t := by
  have h := execRender_ready 2 [] (takeItem (presented (.hc 0x0500) [2]) [] renderPresented) rfl rfl rfl (by decide)
    (by decide) (by decide)
  exact ⟨_, h⟩

theorem witness_InvariantIsKeptByEveryStep : Inv renderPresented ∧ ∃ t, step renderPresented = .next t :=
  ⟨⟨reset_memory_wf, by decide, rfl⟩, renderPresented_steps⟩

/-- Before the first `SETSR` nothing is claimed, and one that completes brings the agreement about; the state it leaves
meets the premise with the agreement in it. -/
theorem witness_DerivedRegistersAgree :
    DerivedInv (given (presented (.hc 0x0100) [oneNum])) ∧ fromHost (.hc 0x0100) = true ∧
      (∃ t, step (given (presented (.hc 0x0100) [oneNum])) = .next t) ∧
      ∃ r s t, exec (.setsr r) s = .next t ∧ t.cfg.srSet = true ∧ Derived Config.params t := by
  have hs : isSampleRate oneNum = true := by decide
  have hset : ∀ s : State, s.port.during = false → exec (.setsr oneNum) s =
      .next { voiceSetSampleRate Config.params oneNum s with cfg := { s.cfg with srSet := true } } := by
    intro s h
    simp only [exec, execSetsr, betweenRenders, h, hs, Bool.false_eq_true, if_false, if_true]
  refine ⟨fun h => (by cases h), rfl, ⟨_, hset _ rfl⟩, oneNum, State.reset, _, hset _ rfl, rfl, ?_⟩
  constructor <;> simp [oscSetSampleRate, oscReset, lfoSetSampleRate, fltSetSampleRate, fltUpdate, fltReset]

theorem witness_ClockIsNeverPositive :
    ClockInv (given (presented (.hc 0x0100) [oneNum])) ∧ fromHost (.hc 0x0100) = true ∧
      (∃ t, step (given (presented (.hc 0x0100) [oneNum])) = .next t) ∧
      ClockInv { ready [] with v := { holding.v with sr := oneNum } } :=
  ⟨⟨by decide +kernel, fun h => (by cases h)⟩, rfl, ⟨_, rfl⟩, ⟨by decide +kernel, fun _ => by decide +kernel⟩⟩

theorem witness_OutputHasThreeWriters :
    (∃ t, exec (.noteOff 0 69 0 0) holding = .next t) ∧ (∃ t, exec (.voiceProcess 0 2 true) holding = .next t) ∧
      ∃ t, exec (.schCopyChannels 2) holding = .next t :=
  ⟨⟨_, rfl⟩, ⟨_, rfl⟩, ⟨_, rfl⟩⟩

theorem witness_HiddenStateHasFewWriters :
    (∃ t, exec (.fltProcess oneNum) holding = .next t) ∧ (∃ t, exec .lfoNextSample holding = .next t) ∧
      ∃ t, exec .schDrain holding = .next t :=
  ⟨⟨_, rfl⟩, ⟨_, rfl⟩, ⟨_, rfl⟩⟩

theorem witness_LifecycleRegistersHaveTheirWriters :
    (∃ t, exec (.setbs 2) (ready []) = .next t) ∧ (∃ t, exec (.enq 0x904564 0) (ready []) = .next t) ∧
      (∃ t, exec (.setsr oneNum) (ready []) = .next t) ∧ (ready []).cfg.srSet = true ∧ (ready []).cfg.bsSet = true :=
  ⟨⟨_, rfl⟩, ⟨_, rfl⟩, ⟨_, rfl⟩, rfl, rfl⟩

/-- The largest finite number, the smallest subnormal and the negative zero. -/
theorem witness_ArithmeticIsCorrectlyRounded :
    isFinite 0x7FEFFFFFFFFFFFFF = true ∧ isFinite 0x0000000000000001 = true ∧ isFinite 0x8000000000000000 = true ∧
      isZero 0x0000000000000001 = false ∧ isZero 0x7FEFFFFFFFFFFFFF = false := by decide

/-- The other clauses: a zero divisor, a NaN, infinities alike and unlike, beside a zero and beside another number. -/
theorem witness_Arithmetic_exceptional :
    (isZero (0x8000000000000000 : Num64) = true ∧ isFinite (0x8000000000000000 : Num64) = true ∧
        isZero (oneNum : Num64) = false ∧ isFinite oneNum = true) ∧
      isNaN (0x7FF0000000000001 : Num64) = true ∧
      (isInf (0x7FF0000000000000 : Num64) = true ∧ isInf (0xFFF0000000000000 : Num64) = true) ∧
      (isNaN (0x7FF0000000000000 : Num64) = false ∧ isNaN (0x8000000000000000 : Num64) = false) ∧
      (signOf (0x7FF0000000000000 : Num64) != signOf (0xFFF0000000000000 : Num64)) = true ∧
      (signOf (0x7FF0000000000000 : Num64) != signOf (0x7FF0000000000000 : Num64)) = false := by decide

theorem witness_ToNumAndFloorAreExact :
    |(2 ^ 32 - 1 : Int)| < 2 ^ 32 ∧ |(-(2 ^ 32 - 1) : Int)| < 2 ^ 32 ∧ isFinite 0xBFF0000000000001 = true ∧
      isFinite 0x7FF0000000000000 = false := by
  refine ⟨by norm_num, by norm_num, by decide, by decide⟩

theorem witness_ComparisonsFollowTheStandard :
    isNaN (0x7FF8000000000000 : Num64) = true ∧ isNaN (0x8000000000000000 : Num64) = false ∧
      isNaN (0x7FF0000000000000 : Num64) = false ∧ isInf (0xFFF0000000000000 : Num64) = true ∧
      isInf (0x7FF0000000000000 : Num64) = true ∧ isFinite (0x7FEFFFFFFFFFFFFF : Num64) = true ∧
      signOf (0x7FF0000000000000 : Num64) ≠ signOf (0xFFF0000000000000 : Num64) := by decide


end Sys2Proof.Tests
end

section
/-! SUPPORT. What one step answers, case by case: the fault record, then the port, then the decoder. -/

namespace Sys2Proof.Machine

variable {s : State}

/-- R37, R272: a recorded fault is answered again. -/
theorem step_of_fault {f : Fault} {fs : List Fault} (hf : s.faults = f :: fs) : step s = .fault f := by
  simp [step, hf]

/-- R275: with nothing presented the core does nothing. -/
theorem step_of_nothing_pending (hf : s.faults = []) (hp : s.port.pending = []) : step s = .next s := by
  simp [step, hf, hp]

variable {it : PortItem} {rest : List PortItem}

/-- R8, R9: an item that decodes is executed in the state in which it has left the port. -/
theorem step_of_decode_ok {i : Instr} (hf : s.faults = []) (hp : s.port.pending = it :: rest)
    (hd : decode it = .ok i) : step s = exec i (takeItem it rest s) := by
  simp [step, hf, hp, hd]

/-- An item that is no instruction gets the port decoder's answer. -/
theorem step_of_decode_error {e : DecodeError} (hf : s.faults = []) (hp : s.port.pending = it :: rest)
    (hd : decode it = .error e) : step s = rejected e := by
  simp [step, hf, hp, hd]

/-- Settles O5: the three cases of a step without a recorded fault; `takeItem` is the state in which the item has left
the port. -/
theorem stepRunsThePresentedInstruction : Obligations.StepRunsThePresentedInstruction := by
  intro s hf
  refine ⟨step_of_nothing_pending hf, ?_, ?_⟩
  · intro it rest i hp hd
    exact step_of_decode_ok hf hp hd
  · intro it rest e hp hd
    exact step_of_decode_error hf hp hd

end Sys2Proof.Machine
end

section
/-! SUPPORT. What an instruction that goes on has done: the inversion of the commands that can stop, then of every
instruction, and of a host's input. -/

namespace Sys2Proof.Machine

variable {s t : State}

/-! ### The two setters that ask for the state -/

/-- R160: a new frequency writes the frequency and, once the rate is set, the increment. -/
theorem lfoSetFrequency_eq (f : Num64) (l : Lfo) :
    lfoSetFrequency f l = { l with freq := f, inc := if l.srSet then fdiv f l.sr else l.inc } := by
  unfold lfoSetFrequency
  split <;> rfl

/-- R197: the enable flag, and the clock where the contour restarts. -/
theorem voiceSetEnvelopeEnabled_eq (b : Bool) (v : Voice) :
    voiceSetEnvelopeEnabled b v =
      { v with
        envEnabled := b, noteOnTime := if b && !v.envEnabled && noteHeld v then zeroNum else v.noteOnTime } := by
  unfold voiceSetEnvelopeEnabled envAttack
  simp only
  split <;> rfl

/-! ### The commands that can stop (R225 to R240) -/

theorem betweenRenders_next {c : Command} {a : Answer State} (h : betweenRenders c s a = .next t) : a = .next t := by
  unfold betweenRenders raise at h
  split at h
  · cases h
  · exact h

/-- R230: a smoothed parameter that is taken has been written. -/
theorem setSmoothed_next {id : BitVec 8} {x : Num64} {u : State} (h : setSmoothed id x u = .next t) : t = u := by
  unfold setSmoothed raise at h
  split at h
  · cases h; rfl
  · cases h

/-- R230: so has any other, in a configuration with its unit. -/
theorem setUnsmoothed_next {id : BitVec 8} {x : Num64} {u : State} (h : setUnsmoothed id x true s u = .next t) :
    t = u := by
  unfold setUnsmoothed raise at h
  split at h
  · cases betweenRenders_next h; rfl
  · cases h

theorem execSetsr_next {r : Num64} (h : execSetsr r s = .next t) :
    isSampleRate r = true ∧
      t = { voiceSetSampleRate Config.params r s with cfg := { s.cfg with srSet := true } } := by
  have h' := betweenRenders_next h
  unfold raise at h'
  split at h'
  · cases h'; exact ⟨‹_›, rfl⟩
  · cases h'

theorem execSetbs_next {n : Idx} (h : execSetbs n s = .next t) :
    t = { s with
      sch := { s.sch with blockSize := n }, q := queueResize s.q n, cfg := { s.cfg with bsSet := true } } := by
  cases betweenRenders_next h; rfl

theorem execEnq_next {ev : BitVec 24} {off : Idx} (h : execEnq ev off s = .next t) :
    t = { s with q := queuePush s.q (recordOf ev off) } := by
  have h' := betweenRenders_next h
  unfold raise at h'
  repeat' split at h'
  all_goals cases h'
  rfl

theorem execReset_next (h : execReset s = .next t) : t = voiceReset s := by
  cases betweenRenders_next h; rfl

/-! ### Every instruction -/

/-- What every instruction leaves alone but the few that `Effect` names: the hidden state of R36 and R305, the registers
of R32, the queue, the fault record. -/
structure Keeps (s t : State) : Prop where
  cutoff : t.flt.cutCur = s.flt.cutCur
  resonance : t.flt.resCur = s.flt.resCur
  phase : t.lfo.phase = s.lfo.phase
  held : t.v.heldNote = s.v.heldNote
  block : t.sch.blockSize = s.sch.blockSize
  queue : t.q = s.q
  cfg : t.cfg = s.cfg
  faults : t.faults = s.faults

/-- What an instruction that goes on has done, for the writers of what `Keeps` lists. -/
inductive Effect (s : State) : Instr → State → Prop where
  | noteOn (ch note vel off) : Effect s (.noteOn ch note vel off) (applyNoteOn Config.params note s)
  | noteOnV0 (ch note off) : Effect s (.noteOnV0 ch note off) (applyNoteOff note s)
  | noteOff (ch note vel off) : Effect s (.noteOff ch note vel off) (applyNoteOff note s)
  | allNotesOff (ch value off) : Effect s (.ccAllNotesOff ch value off) (applyAllNotesOff s)
  | setsr (r) :
      Effect s (.setsr r) { voiceSetSampleRate Config.params r s with cfg := { s.cfg with srSet := true } }
  | setbs (n) :
      Effect s (.setbs n)
        { s with
          sch := { s.sch with blockSize := n }, q := queueResize s.q n, cfg := { s.cfg with bsSet := true } }
  | enq (ev off) : Effect s (.enq ev off) { s with q := queuePush s.q (recordOf ev off) }
  | render (n ws) :
      Effect s (.render n ws) (if n.toNat = 0 then landAfter Config.params ws 0 s else schRender Config.params ws n s)
  | modulate :
      Effect s .lfoNextSample (setNumResult (lfoSample Config.params s.lfo) { s with lfo := lfoAdvance s.lfo })
  | lfoReset : Effect s .lfoReset { s with lfo := lfoReset s.lfo }
  | filter (x) :
      Effect s (.fltProcess x)
        (setNumResult (fltSample Config.params x s.flt) { s with flt := fltAdvance Config.params x s.flt })
  | process (base n gate) :
      Effect s (.voiceProcess base n gate) (voiceProcess Config.params [] base n gate s)
  | drain : Effect s .schDrain (schDrain Config.params s)
  | keeps (i) {t} (h : Keeps s t) : Effect s i t

/-- A target write is no writer of what `Keeps` lists. -/
theorem Keeps.target (P : Params) (w : Smoothed) (x : Num64) (s : State) : Keeps s (writeTarget P w x s) := by
  refine ⟨?_, ?_, ?_, ?_, ?_, ?_, ?_, ?_⟩
  · rw [writeTarget_flt]
  · rw [writeTarget_flt]
  · rw [writeTarget_lfo]
  · rw [writeTarget_v]
  · rw [writeTarget_sch]
  · rw [writeTarget_q]
  · rw [writeTarget_cfg]
  · rw [writeTarget_faults]

theorem exec_effect {i : Instr} (h : exec i s = .next t) : Effect s i t := by
  cases i with
  | noteOn => cases h; exact .noteOn ..
  | noteOnV0 => cases h; exact .noteOnV0 ..
  | noteOff => cases h; exact .noteOff ..
  | ccAllNotesOff => cases h; exact .allNotesOff ..
  | setsr r => obtain ⟨-, rfl⟩ := execSetsr_next h; exact .setsr r
  | setbs => cases execSetbs_next h; exact .setbs _
  | enq => cases execEnq_next h; exact .enq ..
  | render => obtain ⟨-, -, -, rfl⟩ := execRender_next h; exact .render ..
  | lfoNextSample => cases h; exact .modulate
  | lfoReset => cases h; exact .lfoReset
  | fltProcess => cases h; exact .filter _
  | voiceProcess => cases h; exact .process ..
  | schDrain => cases h; exact .drain
  | setpCutoff => cases setSmoothed_next h; exact .keeps _ (.target ..)
  | setpResonance => cases setSmoothed_next h; exact .keeps _ (.target ..)
  | setpAttack | setpDecay | setpSustain | setpRelease | setpLfoDepth | setpBypass =>
    cases setUnsmoothed_next h; exact .keeps _ ⟨rfl, rfl, rfl, rfl, rfl, rfl, rfl, rfl⟩
  | setpLfoRate =>
    cases setUnsmoothed_next h
    refine .keeps _ ⟨rfl, rfl, ?_, rfl, rfl, rfl, rfl, rfl⟩
    simp only [lfoSetFrequency_eq]
    split <;> rfl
  | setpEnvEnable =>
    cases setUnsmoothed_next h
    exact .keeps _ ⟨rfl, rfl, rfl, by rw [voiceSetEnvelopeEnabled_eq], rfl, rfl, rfl, rfl⟩
  | reset => cases execReset_next h; exact .keeps _ ⟨rfl, rfl, rfl, rfl, rfl, rfl, rfl, rfl⟩
  | lfoSetFrequency =>
    cases h
    exact .keeps _ ⟨rfl, rfl, by rw [lfoSetFrequency_eq], rfl, rfl, rfl, rfl, rfl⟩
  | voiceSetEnvelopeEnabled =>
    cases h
    exact .keeps _ ⟨rfl, rfl, rfl, by rw [voiceSetEnvelopeEnabled_eq], rfl, rfl, rfl, rfl⟩
  | _ => cases h; exact .keeps _ ⟨rfl, rfl, rfl, rfl, rfl, rfl, rfl, rfl⟩

/-! ### A host's input (R7) -/

/-- What an input of level E or H that goes on has done. -/
inductive HostEffect (s : State) : State → Prop where
  | event (e) : HostEffect s (applyEvent Config.params e s)
  | setsr (r) (hr : isSampleRate r = true) :
      HostEffect s { voiceSetSampleRate Config.params r s with cfg := { s.cfg with srSet := true } }
  | setbs (n) :
      HostEffect s
        { s with
          sch := { s.sch with blockSize := n }, q := queueResize s.q n, cfg := { s.cfg with bsSet := true } }
  | enq (e) : HostEffect s { s with q := queuePush s.q e }
  | target (w x) : HostEffect s (writeTarget Config.params w x s)
  | env (e) : HostEffect s { s with env := e }
  | lfoRate (f) :
      HostEffect s { s with lfo := if s.cfg.srSet then lfoSetFrequency f s.lfo else { s.lfo with freq := f } }
  | lfoDepth (a) : HostEffect s { s with lfo := lfoSetAmplitude a s.lfo }
  | envEnable (b) : HostEffect s { s with v := voiceSetEnvelopeEnabled b s.v }
  | bypass (b) : HostEffect s { s with v := voiceSetGlobalBypass b s.v }
  | land (ws) : HostEffect s (landWrites Config.params ws s)
  | render (n ws) (hr : s.cfg.srSet = true) : HostEffect s (schRender Config.params ws n s)
  | reset : HostEffect s (voiceReset s)

/-- R207: an event word does as an instruction what its record does when it is drained. -/
theorem exec_decodeEvent (w : BitVec 24) (off : Idx) (s : State) :
    exec (decodeEvent w off) s = .next (applyEvent Config.params (recordOf w off) s) := by
  simp only [decodeEvent, applyEvent, recordOf]
  by_cases h9 : evStatus w = 0x9
  · by_cases h0 : evData2 w = 0
    · simp only [h9, h0, if_true]; rfl
    · simp only [h9, h0, if_true, if_false]; rfl
  by_cases h8 : evStatus w = 0x8
  · simp only [h8, if_true]; rfl
  by_cases hB : evStatus w = 0xB
  · by_cases h123 : evData1 w = 123
    · simp only [hB, h123, if_true]; rfl
    · simp only [hB, h123, if_true, if_false]; rfl
  · -- every other status is an event without effect
    simp only [h9, h8, hB, if_false]
    repeat' split
    all_goals rfl

/-- R230: what a `SETP` that goes on has done. -/
theorem setp_effect {id : BitVec 8} {x : Num64} {i : Instr} (hd : setpOf id x = some i) (h : exec i s = .next t) :
    HostEffect s t := by
  obtain ⟨f, hf, rfl⟩ := Option.map_eq_some_iff.mp hd
  obtain ⟨l₁, l₂, hl, -⟩ := List.lookup_eq_some_iff.mp hf
  have hmem : (id, f) ∈ setpRows := by rw [hl]; simp
  simp only [setpRows, List.mem_cons, Prod.mk.injEq, List.not_mem_nil, or_false] at hmem
  rcases hmem with ⟨-, rfl⟩ | ⟨-, rfl⟩ | ⟨-, rfl⟩ | ⟨-, rfl⟩ | ⟨-, rfl⟩ | ⟨-, rfl⟩ | ⟨-, rfl⟩ | ⟨-, rfl⟩ | ⟨-, rfl⟩ |
    ⟨-, rfl⟩
  · cases setSmoothed_next h; exact .target ..
  · cases setSmoothed_next h; exact .target ..
  · cases setUnsmoothed_next h; exact .env _
  · cases setUnsmoothed_next h; exact .env _
  · cases setUnsmoothed_next h; exact .env _
  · cases setUnsmoothed_next h; exact .env _
  · cases setUnsmoothed_next h; exact .lfoRate _
  · cases setUnsmoothed_next h; exact .lfoDepth _
  · cases setUnsmoothed_next h; exact .envEnable _
  · cases setUnsmoothed_next h; exact .bypass _

/-- R225 to R229: what a host command that goes on has done. -/
theorem decodeHc_effect {w : BitVec 16} {ops : List Slot} {i : Instr} (hd : decodeHc w ops = .ok i)
    (h : exec i s = .next t) : HostEffect s t := by
  unfold decodeHc at hd
  simp only at hd
  split at hd
  · split at hd
    · cases hd; exact setp_effect ‹_› h
    · cases hd
  split at hd
  · cases hd
  split at hd
  · cases hd
    obtain ⟨hr, rfl⟩ := execSetsr_next h
    exact .setsr _ hr
  split at hd
  · cases hd; cases execSetbs_next h; exact .setbs _
  split at hd
  · cases hd; cases execEnq_next h; exact .enq _
  split at hd
  · cases hd
    obtain ⟨hr, -, -, rfl⟩ := execRender_next h
    split
    · exact .land _
    · exact .render _ _ hr
  split at hd
  · cases hd; cases execReset_next h; exact .reset
  · cases hd

/-- R8: a step over a host's input that goes on did so from the state in which the item has left the port. -/
theorem step_hostEffect {it : PortItem} {rest : List PortItem} (hp : s.port.pending = it :: rest)
    (hh : Safety.fromHost it.word = true) (h : step s = .next t) : HostEffect (takeItem it rest s) t := by
  have hf : s.faults = [] := by
    cases hf : s.faults with
    | nil => rfl
    | cons f fs => rw [step_of_fault hf] at h; cases h
  cases hd : decode it with
  | error e =>
    rw [step_of_decode_error hf hp hd] at h
    cases e <;> cases h
  | ok i =>
    rw [step_of_decode_ok hf hp hd] at h
    unfold decode at hd
    split at hd
    · unfold decodeEv at hd
      split at hd
      · cases hd
      · cases hd
        rw [exec_decodeEvent] at h
        cases h
        exact .event _
    · exact decodeHc_effect hd h
    · rename_i hw
      rw [hw] at hh
      cases hh

end Sys2Proof.Machine
end

section
/-! SUPPORT. The render loop's induction: what every write of the loop keeps, a whole block keeps (R195, R205, R206). -/

namespace Sys2Proof.Machine

/-- R207: an event starts a note, writes the held note, or does nothing. -/
theorem applyEvent_cases (P : Params) (e : EventRec) (s : State) :
    applyEvent P e s = applyNoteOn P e.data1 s ∨
      ∃ note, applyEvent P e s = { s with v := { s.v with heldNote := note } } := by
  unfold applyEvent
  split
  · split
    · exact .inr ⟨_, applyNoteOff_eq _ s⟩
    · exact .inl rfl
  split
  · exact .inr ⟨_, applyNoteOff_eq _ s⟩
  split
  · split
    · exact .inr ⟨none, rfl⟩
    · exact .inr ⟨s.v.heldNote, rfl⟩
  · exact .inr ⟨s.v.heldNote, rfl⟩

/-- A property that each write of the render loop keeps: the events' writes, a concurrent target write, the body of a
frame, the clock after a call; and that does not read the scheduler, the queue and the output memory. -/
structure RenderInvariant (P : Params) (I : State → Prop) : Prop where
  noteOn : ∀ {s}, I s → ∀ note, I (applyNoteOn P note s)
  held : ∀ {s}, I s → ∀ note, I { s with v := { s.v with heldNote := note } }
  target : ∀ {s}, I s → ∀ w x, I (writeTarget P w x s)
  body : ∀ {s}, I s → ∀ base gate, I (voiceFrameBody P base gate s)
  clock : ∀ {s}, I s → ∀ n, I { s with v := clockAfter n s.v }
  blind : ∀ {s}, I s → ∀ sch q out, I { s with sch := sch, q := q, out := out }

namespace RenderInvariant

variable {P : Params} {I : State → Prop} (hI : RenderInvariant P I) {s : State}

include hI

theorem event (h : I s) (e : EventRec) : I (applyEvent P e s) := by
  rcases applyEvent_cases P e s with he | ⟨note, he⟩
  · rw [he]; exact hI.noteOn h _
  · rw [he]; exact hI.held h note

theorem drain (h : I s) : I (schDrain P s) := by
  have hrecs : ∀ (offset : Idx) (recs : List EventRec) (s : State), I s → I (drainRecs P offset recs s) := by
    intro offset recs
    induction recs with
    | nil => exact fun s h => hI.blind h _ _ _
    | cons e rest ih =>
      intro s h
      unfold drainRecs
      split
      · exact ih _ (hI.event h e)
      · exact hI.blind h _ _ _
  exact hrecs _ _ s h

theorem land (h : I s) (ws : List TargetWrite) : I (landWrites P ws s) := by
  induction ws generalizing s with
  | nil => exact h
  | cons w ws ih => exact ih (hI.target h w.target w.value)

theorem frames (h : I s) (ws : List TargetWrite) (base : Nat) (gate : Bool) (n : Nat) :
    I (voiceFrames P ws base gate n s) := by
  induction n generalizing s with
  | zero => exact h
  | succ n ih => exact ih (hI.body (hI.land h _) base gate)

theorem process (h : I s) (ws : List TargetWrite) (base n : Idx) (gate : Bool) :
    I (voiceProcess P ws base n gate s) :=
  hI.blind (hI.clock (hI.frames (hI.blind h { s.sch with i := 0 } s.q s.out) ws base.toNat gate n.toNat) n) _ _ _

theorem iteration (h : I s) (ws : List TargetWrite) (frameCount : Idx) : I (schIteration P ws frameCount s) :=
  hI.blind (hI.process (hI.drain h) ws _ _ _) _ _ _

/-- A whole block keeps it. -/
theorem render (h : I s) (ws : List TargetWrite) (frameCount : Idx) : I (schRender P ws frameCount s) :=
  hI.land
    (hI.blind
      (schLoop_induction P ws frameCount I (fun _ h _ => hI.iteration h ws frameCount) frameCount.toNat _
        (hI.blind h _ _ _)) _ _ _) _

end RenderInvariant

end Sys2Proof.Machine
end

section
/-! SUPPORT. The registers derived from the sample rate (R34), unit by unit. -/

namespace Sys2Proof.Machine

open Sys2Proof.Safety

/-- The oscillator's part of `Derived`, for the rate `r`. -/
structure OscAgrees (r : Num64) (o : Osc) : Prop where
  rate : o.sr = r
  inc : o.inc = fdiv o.freq o.sr

/-- The modulator's part. -/
structure LfoAgrees (r : Num64) (l : Lfo) : Prop where
  rate : l.sr = r
  set : l.srSet = true
  inc : l.inc = fdiv l.freq l.sr

/-- The filter's part. -/
structure FltAgrees (P : Params) (r : Num64) (t : Flt) : Prop where
  rate : t.sr = r
  factor : t.k = P.smoothK t.sr
  bank : t.bank = coefsOf P (cutoffAngle t.cutCur t.sr) t.resCur

/-- `Derived`, unit by unit: the three parts for the voice's own rate. -/
structure RateAgrees (P : Params) (s : State) : Prop where
  osc : OscAgrees s.v.sr s.osc
  lfo : LfoAgrees s.v.sr s.lfo
  flt : FltAgrees P s.v.sr s.flt

theorem derived_iff {P : Params} {s : State} : Derived P s ↔ RateAgrees P s := by
  constructor
  · rintro ⟨ho, hl, hset, hf, hoi, hli, hk, hb⟩
    exact ⟨⟨ho, hoi⟩, ⟨hl, hset, hli⟩, ⟨hf, hk, hb⟩⟩
  · rintro ⟨⟨ho, hoi⟩, ⟨hl, hset, hli⟩, ⟨hf, hk, hb⟩⟩
    exact ⟨ho, hl, hset, hf, hoi, hli, hk, hb⟩

/-! ### Each unit's operations -/

section
variable {P : Params} {r : Num64}

theorem OscAgrees.setFrequency {o : Osc} (h : OscAgrees r o) (f : Num64) : OscAgrees r (oscSetFrequency f o) :=
  ⟨h.rate, rfl⟩

theorem LfoAgrees.setFrequency {l : Lfo} (h : LfoAgrees r l) (f : Num64) : LfoAgrees r (lfoSetFrequency f l) := by
  rw [lfoSetFrequency_eq]
  exact ⟨h.rate, h.set, by rw [h.set]; rfl⟩

/-- R174: an update brings the bank about. -/
theorem FltAgrees.update {t : Flt} (hr : t.sr = r) (hk : t.k = P.smoothK t.sr) : FltAgrees P r (fltUpdate P t) :=
  ⟨hr, hk, rfl⟩

/-- R170, R171: a target is no part of it. -/
theorem FltAgrees.targets {t : Flt} (h : FltAgrees P r t) (c q : Num64) :
    FltAgrees P r { t with cutTgt := c, resTgt := q } := ⟨h.rate, h.factor, h.bank⟩

/-- R176: where the smoothed values move, the bank is computed from them again. -/
theorem FltAgrees.adopt {t : Flt} (h : FltAgrees P r t) : FltAgrees P r (fltAdopt P t) := by
  unfold fltAdopt
  split
  · exact .update h.rate h.factor
  · exact h

theorem FltAgrees.advance {t : Flt} (h : FltAgrees P r t) (x : Num64) : FltAgrees P r (fltAdvance P x t) := by
  unfold fltAdvance
  split
  · exact ⟨h.adopt.rate, h.adopt.factor, h.adopt.bank⟩
  · exact h

end

/-! ### The state -/

theorem RateAgrees.target {P : Params} {s : State} (h : RateAgrees P s) (w : Smoothed) (x : Num64) :
    RateAgrees P (writeTarget P w x s) where
  osc := by rw [writeTarget_v, writeTarget_osc]; exact h.osc
  lfo := by rw [writeTarget_v, writeTarget_lfo]; exact h.lfo
  flt := by rw [writeTarget_v, writeTarget_flt]; exact h.flt.targets _ _

/-- R195: in a frame the phases advance and the filter smooths and updates. -/
theorem RateAgrees.body {P : Params} {s : State} (h : RateAgrees P s) (base : Nat) (gate : Bool) :
    RateAgrees P (voiceFrameBody P base gate s) where
  osc := ⟨h.osc.rate, h.osc.inc⟩
  lfo := by
    simp only [voiceFrameBody]
    split
    · exact ⟨h.lfo.rate, h.lfo.set, h.lfo.inc⟩
    · exact h.lfo
  flt := by
    have hin : FltAgrees P s.v.sr (voiceFilter P s) := by
      unfold voiceFilter
      split
      · exact h.flt.targets _ _
      · exact h.flt
    exact hin.advance _

theorem RateAgrees.renderInvariant (P : Params) : RenderInvariant P (RateAgrees P) where
  noteOn h _ := ⟨h.osc.setFrequency _, h.lfo, h.flt⟩
  held h _ := ⟨h.osc, h.lfo, h.flt⟩
  target h := h.target
  body h := h.body
  clock h _ := ⟨h.osc, h.lfo, h.flt⟩
  blind h _ _ _ := ⟨h.osc, h.lfo, h.flt⟩

/-- R200, R225: a new sample rate brings the agreement about, whatever stood there. -/
theorem rateAgrees_voiceSetSampleRate (P : Params) (r : Num64) (s : State) (c : Cfg) :
    RateAgrees P { voiceSetSampleRate P r s with cfg := c } :=
  ⟨⟨rfl, rfl⟩, ⟨rfl, rfl, rfl⟩, ⟨rfl, rfl, rfl⟩⟩

/-- `DerivedInv` in the units' parts: nothing is claimed before the first `SETSR`. -/
def RateInv (s : State) : Prop := s.cfg.srSet = true → RateAgrees Config.params s

theorem derivedInv_iff {s : State} : DerivedInv s ↔ RateInv s := forall_congr' fun _ => derived_iff

/-- R34: a host's input keeps the agreement. -/
theorem RateInv.hostEffect {s t : State} (h : RateInv s) (e : HostEffect s t) : RateInv t := by
  have hI := RateAgrees.renderInvariant Config.params
  cases e with
  | event e =>
    intro hs
    obtain ⟨f, i, c, n, he⟩ := applyEvent_eq Config.params e s
    exact hI.event (h (by rw [he] at hs; exact hs)) e
  | setsr r hr => exact fun _ => rateAgrees_voiceSetSampleRate ..
  | setbs | enq | env | bypass => exact fun hs => ⟨(h hs).osc, (h hs).lfo, (h hs).flt⟩
  | target w x => exact fun hs => (h (by rwa [writeTarget_cfg] at hs)).target w x
  | lfoRate f =>
    intro hs
    refine ⟨(h hs).osc, ?_, (h hs).flt⟩
    rw [if_pos hs]
    exact (h hs).lfo.setFrequency f
  | lfoDepth a => exact fun hs => ⟨(h hs).osc, ⟨(h hs).lfo.rate, (h hs).lfo.set, (h hs).lfo.inc⟩, (h hs).flt⟩
  | envEnable b =>
    intro hs
    rw [voiceSetEnvelopeEnabled_eq]
    exact ⟨(h hs).osc, (h hs).lfo, (h hs).flt⟩
  | land ws => exact fun hs => hI.land (h (by rwa [landWrites_cfg] at hs)) ws
  | render n ws hr => exact fun _ => hI.render (h hr) ws n
  | reset =>
    intro hs
    obtain ⟨ho, hl, hf⟩ := h hs
    exact ⟨⟨ho.rate, ho.inc⟩, hl, ⟨hf.rate, hf.factor, hf.bank⟩⟩

/-- Settles O53: a host's input keeps the agreement in each unit, and R200 brings it about. -/
theorem derivedRegistersAgree : Obligations.DerivedRegistersAgree := by
  refine ⟨fun p hs => (by cases hs), ?_, ?_⟩
  · intro s t it rest hp hh h hstep
    have hs : RateInv (takeItem it rest s) := fun hs =>
      have a := derivedInv_iff.mp h hs
      ⟨a.osc, a.lfo, a.flt⟩
    exact derivedInv_iff.mpr (hs.hostEffect (step_hostEffect hp hh hstep))
  · intro r s t h
    obtain ⟨-, rfl⟩ := execSetsr_next h
    exact derived_iff.mpr (rateAgrees_voiceSetSampleRate ..)

end Sys2Proof.Machine
end

section
/-! SUPPORT. Numbers that are 0 or negative, and 0 or positive: what a sum and a quotient of them are. -/

namespace Sys2Proof.Machine

/-! ### The comparisons with zero -/

theorem numLe_zeroNum_iff (x : Num64) :
    numLe x zeroNum = true ↔ isNaN x = false ∧ (signOf x = true ∨ magOf x = 0) := by
  have hz : orderKey zeroNum = 0 ∧ isNaN zeroNum = false := by decide
  rw [numLe, hz.1, hz.2, orderKey]
  cases signOf x <;> simp

theorem zeroNum_numLe_iff (x : Num64) :
    numLe zeroNum x = true ↔ isNaN x = false ∧ (signOf x = false ∨ magOf x = 0) := by
  have hz : orderKey zeroNum = 0 ∧ isNaN zeroNum = false := by decide
  rw [numLe, hz.1, hz.2, orderKey]
  cases signOf x <;> simp

theorem zeroNum_numLt_iff (x : Num64) :
    numLt zeroNum x = true ↔ isNaN x = false ∧ signOf x = false ∧ magOf x ≠ 0 := by
  have hz : orderKey zeroNum = 0 ∧ isNaN zeroNum = false := by decide
  rw [numLt, hz.1, hz.2, orderKey]
  cases signOf x <;> simp [Nat.pos_iff_ne_zero]

theorem numLe_fneg_zeroNum {x : Num64} (h : numLe zeroNum x = true) : numLe (fneg x) zeroNum = true := by
  rw [zeroNum_numLe_iff] at h
  rw [numLe_zeroNum_iff, isNaN_fneg, signOf_fneg, magOf_fneg]
  simpa using h

/-- A number put together of a magnitude that rounding gives is no NaN. -/
theorem isNaN_ofMag_of_le (neg : Bool) {m : Nat} (h : m ≤ infMag) : isNaN (ofMag neg m) = false := by
  have h63 : m < 2 ^ 63 := Nat.lt_of_le_of_lt h (by decide +kernel)
  rw [← Bool.not_eq_true, isNaN_iff, magOf_ofMag neg h63]
  omega

theorem roundMag_zero (b : Nat) : roundMag 0 b = 0 := by
  simp [roundMag, placesDropped, divNearest]

/-! ### Sums and quotients -/

theorem valueOf_nonpos {x : Num64} (h : signOf x = true ∨ magOf x = 0) : valueOf x ≤ 0 := by
  unfold valueOf
  split
  · omega
  · rw [unitsOf_eq, h.resolve_left ‹_›]; rfl

/-- R125: the sum of two numbers that are 0 or negative is 0 or negative. -/
theorem numLe_sumWith_zeroNum (nan : Num64) {x y : Num64} (hx : numLe x zeroNum = true) (hy : numLe y zeroNum = true) :
    numLe (sumWith nan x y) zeroNum = true := by
  have hx' := (numLe_zeroNum_iff x).mp hx
  have hy' := (numLe_zeroNum_iff y).mp hy
  have hneg : ∀ z : Num64, isInf z = true → signOf z = true ∨ magOf z = 0 → signOf z = true := by
    intro z hi h
    rw [isInf_iff] at hi
    exact h.resolve_right (by rw [hi]; decide)
  unfold sumWith
  simp only [hx'.1, hy'.1, Bool.or_self, Bool.false_eq_true, if_false]
  split
  · -- two infinities have one sign here
    rename_i hix
    split
    · rename_i hiy
      simp only [Bool.and_eq_true] at hiy
      rw [hneg x hix hx'.2, hneg y hiy.1 hy'.2] at hiy
      exact absurd hiy.2 (by decide)
    · exact hx
  split
  · exact hy
  · have h1 := valueOf_nonpos hx'.2
    have h2 := valueOf_nonpos hy'.2
    rw [numLe_zeroNum_iff, sumFinite]
    refine ⟨isNaN_ofMag_of_le _ (roundMag_le _ _), ?_⟩
    rw [signOf_ofMag _ (roundMag_lt _ _), magOf_ofMag _ (roundMag_lt _ _)]
    by_cases hz : valueOf x + valueOf y = 0
    · right; rw [hz]; exact roundMag_zero 1
    · left; rw [if_neg hz, decide_eq_true_eq]; omega

/-- R125: what is 0 or negative stays so when a number that is 0 or positive is taken from it. -/
theorem numLe_fsub_zeroNum {x y : Num64} (hx : numLe x zeroNum = true) (hy : numLe zeroNum y = true) :
    numLe (fsub x y) zeroNum = true :=
  numLe_sumWith_zeroNum _ hx (numLe_fneg_zeroNum hy)

theorem toNum_nat (n : Nat) : toNum n = ofMag false (roundMag (n * 2 ^ unitExp) 1) := by
  rw [toNum, decide_eq_false (by omega), Int.natAbs_natCast]

/-- R195: a number of frames over a sample rate is 0 or positive, an infinity included. -/
theorem zeroNum_numLe_duration (n : Nat) {sr : Num64} (h : isSampleRate sr = true) :
    numLe zeroNum (fdiv (toNum n) sr) = true := by
  have hs : numLt zeroNum sr = true ∧ isInf sr = false := by simpa [isSampleRate] using h
  obtain ⟨hn, hsign, hmag⟩ := (zeroNum_numLt_iff sr).mp hs.1
  have hz : isZero sr = false := by rw [← Bool.not_eq_true, isZero_iff]; exact hmag
  rw [zeroNum_numLe_iff, toNum_nat]
  unfold fdiv
  simp only [isNaN_ofMag_of_le false (roundMag_le _ _), signOf_ofMag false (roundMag_lt _ _), hn, hs.2, hz, hsign,
    Bool.or_self, bne_self_eq_false, Bool.false_eq_true, if_false]
  split
  · exact ⟨isNaN_ofMag_of_le _ le_rfl, .inl (signOf_ofMag _ (by decide +kernel))⟩
  · exact ⟨isNaN_ofMag_of_le _ (roundMag_le _ _), .inl (signOf_ofMag _ (roundMag_lt _ _))⟩

end Sys2Proof.Machine
end

section
/-! SUPPORT. The clock (R35, R276). -/

namespace Sys2Proof.Machine

open Sys2Proof.Safety

/-- What the render loop needs of the clock and keeps of it: it is 0 or negative, and the rate it is divided by is
one `SETSR` takes. -/
structure ClockOk (s : State) : Prop where
  clock : numLe s.v.noteOnTime zeroNum = true
  rate : isSampleRate s.v.sr = true

theorem numLe_zeroNum_self : numLe zeroNum zeroNum = true := by decide

theorem ClockOk.renderInvariant (P : Params) : RenderInvariant P ClockOk where
  noteOn h _ := ⟨numLe_zeroNum_self, h.rate⟩
  held h _ := ⟨h.clock, h.rate⟩
  target h w x := by
    constructor
    · rw [writeTarget_v]; exact h.clock
    · rw [writeTarget_v]; exact h.rate
  body h _ _ := ⟨h.clock, h.rate⟩
  clock h _ := ⟨numLe_fsub_zeroNum h.clock (zeroNum_numLe_duration _ h.rate), h.rate⟩
  blind h _ _ _ := ⟨h.clock, h.rate⟩

/-- R35: a host's input writes zero to the clock, or, in a `RENDER`, lets it fall. -/
theorem clockInv_hostEffect {s t : State} (h : ClockInv s) (e : HostEffect s t) : ClockInv t := by
  cases e with
  | event e =>
    rcases applyEvent_cases Config.params e s with he | ⟨note, he⟩ <;> rw [he]
    · exact ⟨numLe_zeroNum_self, h.rate⟩
    · exact ⟨h.clock, h.rate⟩
  | setsr r hr => exact ⟨numLe_zeroNum_self, fun _ => hr⟩
  | setbs | enq | env | lfoRate | lfoDepth | bypass => exact ⟨h.clock, h.rate⟩
  | target w x =>
    constructor
    · rw [writeTarget_v]; exact h.clock
    · rw [writeTarget_v, writeTarget_cfg]; exact h.rate
  | envEnable b =>
    rw [voiceSetEnvelopeEnabled_eq]
    refine ⟨?_, h.rate⟩
    simp only
    split
    · exact numLe_zeroNum_self
    · exact h.clock
  | land ws =>
    constructor
    · rw [landWrites_v]; exact h.clock
    · rw [landWrites_v, landWrites_cfg]; exact h.rate
  | render n ws hr =>
    obtain ⟨hc, hs⟩ := (ClockOk.renderInvariant Config.params).render ⟨h.clock, h.rate hr⟩ ws n
    exact ⟨hc, fun _ => hs⟩
  | reset => exact ⟨numLe_zeroNum_self, h.rate⟩

/-- Settles O54: a host's input writes zero to the clock or takes a duration that is 0 or positive from it. -/
theorem clockIsNeverPositive : Obligations.ClockIsNeverPositive := by
  refine ⟨fun p => ⟨numLe_zeroNum_self, fun hs => (by cases hs)⟩, ?_⟩
  intro s t it rest hp hh h hstep
  have hs : ClockInv (takeItem it rest s) := ⟨h.clock, h.rate⟩
  exact clockInv_hostEffect hs (step_hostEffect hp hh hstep)

end Sys2Proof.Machine
end

section
/-! SUPPORT. The phase of an oscillator (R35, R128, R154): `wrap` of a finite number of 0 or more is exact and lies in
`[0, 1)`. -/

namespace Sys2Proof.Machine

open Sys2Proof.Safety

/-! ### Where a sum is finite -/

/-- Below half beyond the largest significand of 53 bits, no quotient is rounded up to one of 54. -/
theorem divNearest_lt_of_lt {a b : Nat} (h : a < (2 ^ 54 - 1) * b) : divNearest a (b * 2) < 2 ^ 53 := by
  have hdiv := Nat.div_add_mod a (b * 2)
  have hq : a / (b * 2) < 2 ^ 53 := by
    rw [Nat.div_lt_iff_lt_mul (by omega)]
    omega
  rcases Nat.lt_or_eq_of_le (Nat.le_sub_one_of_lt hq) with hlt | heq
  · rcases divNearest_cases a (b * 2) with ⟨-, hr⟩ | ⟨-, hr⟩ | ⟨-, hr⟩ <;> rw [hr] <;> omega
  · -- all 53 bits are set, so the rest is below one half
    rw [heq] at hdiv
    rcases divNearest_cases a (b * 2) with ⟨-, hr⟩ | ⟨hr, -⟩ | ⟨hr, -⟩
    · rw [hr, heq]; decide
    · omega
    · omega

/-- R125: below half a last place beyond the largest finite number (`u = 2044`) a whole number of units is rounded to a
finite one. -/
theorem roundMag_lt_infMag {a u : Nat} (hu : u ≤ 2044) (h : a < (2 ^ 54 - 1) * 2 ^ u) : roundMag a 1 < infMag := by
  obtain ⟨hle, -⟩ := divNearest_bounds a 1
  obtain ⟨-, hs⟩ := placesDropped_spec a
  simp only [Nat.div_one, Nat.one_mul] at hle
  have htop : placesDropped a ≤ u + 1 := by
    by_contra hc
    have hbig : 2 ^ (54 + u) ≤ 2 ^ (placesDropped a + 52) := Nat.pow_le_pow_right (by decide) (by omega)
    have hle' := hbig.trans (hs.resolve_left (by omega))
    rw [Nat.pow_add] at hle'
    omega
  have hsum : placesDropped a * 2 ^ 52 + divNearest a (2 ^ placesDropped a) < infMag := by
    unfold infMag
    rcases Nat.lt_or_eq_of_le htop with h1 | h1
    · omega
    · have hq := divNearest_lt_of_lt h
      rw [← Nat.pow_add_one] at hq
      rw [h1]
      omega
  unfold roundMag
  simp only [Nat.div_one, Nat.one_mul]
  omega

theorem valueOf_nonneg_iff {x : Num64} : 0 ≤ valueOf x ↔ signOf x = false ∨ magOf x = 0 := by
  have h0 : unitsMag (magOf x) = 0 ↔ magOf x = 0 := unitsMag_inj (n := 0)
  unfold valueOf
  rw [unitsOf_eq]
  cases signOf x <;> simp [h0]

theorem valueOf_eq_of_nonneg {x : Num64} (h : 0 ≤ valueOf x) : valueOf x = unitsMag (magOf x) := by
  rcases valueOf_nonneg_iff.mp h with hs | hm
  · exact valueOf_of_pos hs
  · unfold valueOf; rw [unitsOf_eq, hm]; simp

/-! ### The whole and the fractional part of a value of the format -/

/-- The whole part of a value of the format is one. -/
theorem exists_whole {m : Nat} (hm : m < infMag) (u : Nat) (hu : u ≤ 2045) :
    ∃ k, k < infMag ∧ unitsMag k = unitsMag m / 2 ^ u * 2 ^ u := by
  obtain ⟨q, s, hq, hs, he⟩ := unitsMag_shape hm
  rw [he]
  rcases Nat.le_total u s with h | h
  · rw [Nat.div_mul_cancel ((Nat.pow_dvd_pow 2 h).mul_left q)]
    exact exists_unitsMag hq hs
  · have hd : q * 2 ^ s / 2 ^ u = q / 2 ^ (u - s) := by
      rw [← Nat.sub_add_cancel h, Nat.pow_add, Nat.mul_div_mul_right _ _ (Nat.two_pow_pos s), Nat.sub_add_cancel h]
    rw [hd]
    exact exists_unitsMag (Nat.lt_of_le_of_lt (Nat.div_le_self _ _) hq) hu

/-- The fractional part of a value of the format is one. -/
theorem exists_fraction {m : Nat} (hm : m < infMag) (u : Nat) :
    ∃ k, k < infMag ∧ unitsMag k = unitsMag m % 2 ^ u := by
  obtain ⟨q, s, hq, hs, he⟩ := unitsMag_shape hm
  rw [he]
  rcases Nat.le_total u s with h | h
  · rw [Nat.mod_eq_zero_of_dvd ((Nat.pow_dvd_pow 2 h).mul_left q)]
    exact ⟨0, by decide, rfl⟩
  · have hd : q * 2 ^ s % 2 ^ u = q % 2 ^ (u - s) * 2 ^ s := by
      rw [← Nat.sub_add_cancel h, Nat.pow_add, Nat.mul_mod_mul_right, Nat.sub_add_cancel h]
    rw [hd]
    exact exists_unitsMag (Nat.lt_of_le_of_lt (Nat.mod_le _ _) hq) hs

/-- R126: the floor of a finite number of 0 or more is its whole part, exactly. -/
theorem floorNum_nonneg {t : Num64} (hf : isFinite t = true) (h0 : 0 ≤ valueOf t) :
    isFinite (floorNum t) = true ∧
      valueOf (floorNum t) = ((unitsMag (magOf t) / 2 ^ unitExp * 2 ^ unitExp : Nat) : Int) := by
  obtain ⟨k, hk, hv⟩ := exists_whole ((isFinite_iff t).mp hf) unitExp (by decide)
  have hround := roundMag_exact hk (b := 1) (by decide)
  rw [Nat.mul_one, hv] at hround
  have hfl : floorNum t = ofMag (signOf t) k := by
    unfold floorNum
    rw [hf, unitsOf_eq]
    simp only [Bool.not_true, Bool.false_eq_true, if_false]
    rcases valueOf_nonneg_iff.mp h0 with hs | hm
    · rw [hs]
      simp only [Bool.false_eq_true, if_false]
      rw [hround]
    · have hz : (unitsMag 0 + (2 ^ unitExp - 1)) / 2 ^ unitExp = unitsMag 0 / 2 ^ unitExp := by
        rw [unitsMag_zero, Nat.zero_add, Nat.zero_div]
        exact Nat.div_eq_of_lt (Nat.sub_lt (Nat.two_pow_pos _) (by decide))
      rw [hm] at hround ⊢
      rw [hz, ite_self, hround]
  have h63 : k < 2 ^ 63 := Nat.lt_trans hk (by decide +kernel)
  rw [hfl]
  refine ⟨isFinite_ofMag _ hk, ?_⟩
  rw [← hv, valueOf_ofMag _ h63]
  rcases valueOf_nonneg_iff.mp h0 with hs | hm
  · rw [hs]; rfl
  · have : unitsMag k = 0 := by rw [hv, hm, unitsMag_zero, Nat.zero_div, Nat.zero_mul]
    rw [this]; simp

/-- R128: `wrap` of a finite number of 0 or more lies in `[0, 1)`. -/
theorem phaseOk_wrapNum {t : Num64} (hf : isFinite t = true) (h0 : 0 ≤ valueOf t) : phaseOk (wrapNum t) = true := by
  obtain ⟨hff, hfv⟩ := floorNum_nonneg hf h0
  obtain ⟨k, hk, hv⟩ := exists_fraction ((isFinite_iff t).mp hf) unitExp
  have hdiff : valueOf t + valueOf (fneg (floorNum t)) = (unitsMag k : Int) := by
    have hsplit := Nat.div_add_mod (unitsMag (magOf t)) (2 ^ unitExp)
    rw [Nat.mul_comm] at hsplit
    rw [valueOf_fneg, hfv, valueOf_eq_of_nonneg h0, hv]
    omega
  obtain ⟨hwf, hwv⟩ := sumFinite_exact hk (x := t) (y := fneg (floorNum t)) (by rw [hdiff]; rfl)
  have hlt : unitsMag k < 2 ^ unitExp := by rw [hv]; exact Nat.mod_lt _ (Nat.two_pow_pos _)
  rw [wrapNum, fsub_finite hf hff, phaseOk, numLe_finite (by decide) hwf, numLt_finite hwf (by decide), hwv, hdiff,
    valueOf_zeroNum, valueOf_oneNum]
  simp only [Bool.and_eq_true, decide_eq_true_eq]
  exact ⟨Int.natCast_nonneg _, by exact_mod_cast hlt⟩

/-! ### One step of a phase -/

theorem phaseOk_bounds {p : Num64} (h : phaseOk p = true) :
    isFinite p = true ∧ 0 ≤ valueOf p ∧ valueOf p < 2 ^ unitExp := by
  obtain ⟨h0, h1⟩ : numLe zeroNum p = true ∧ numLt p oneNum = true := by simpa [phaseOk] using h
  have hp : isFinite p = true := by
    have hone : orderKey oneNum = 0x3FF0000000000000 := by decide
    obtain ⟨-, hs⟩ := (zeroNum_numLe_iff p).mp h0
    rw [numLt, hone, orderKey] at h1
    simp only [Bool.and_eq_true, decide_eq_true_eq] at h1
    rw [isFinite_iff]
    unfold infMag
    rcases hs with hs | hs
    · rw [hs] at h1
      simp only [Bool.false_eq_true, if_false] at h1
      omega
    · omega
  rw [numLt_finite hp (by decide), valueOf_oneNum, decide_eq_true_eq] at h1
  exact ⟨hp, valueOf_nonneg_iff.mpr ((zeroNum_numLe_iff p).mp h0).2, h1⟩

/-- R154: a phase in `[0, 1)` and an increment that is finite and 0 or more have a finite sum of 0 or more. -/
theorem fadd_phase_finite_nonneg {p d : Num64} (hp : phaseOk p = true) (hd : incOk d = true) :
    isFinite (fadd p d) = true ∧ 0 ≤ valueOf (fadd p d) := by
  obtain ⟨hpf, hp0, hp1⟩ := phaseOk_bounds hp
  obtain ⟨hdf, hd'⟩ : isFinite d = true ∧ numLe zeroNum d = true := by simpa [incOk] using hd
  have hd0 : 0 ≤ valueOf d := valueOf_nonneg_iff.mpr ((zeroNum_numLe_iff d).mp hd').2
  have hsum : 0 ≤ valueOf p + valueOf d := add_nonneg hp0 hd0
  have hround : roundMag (valueOf p + valueOf d).natAbs 1 < infMag := by
    -- the exponent is kept a variable, so that nothing computes the power
    obtain ⟨u, hu⟩ : ∃ u, 2045 = u + 1 := ⟨2044, rfl⟩
    have hmax := unitsMag_le_max ((isFinite_iff d).mp hdf)
    rw [hu, Nat.pow_succ] at hmax
    have hone : unitsMag (magOf p) < 2 ^ u := by
      rw [valueOf_eq_of_nonneg hp0] at hp1
      have he : unitExp ≤ u := by unfold unitExp; omega
      exact Nat.lt_of_lt_of_le (by exact_mod_cast hp1) (Nat.pow_le_pow_right (by decide) he)
    rw [valueOf_eq_of_nonneg hp0, valueOf_eq_of_nonneg hd0, ← Nat.cast_add, Int.natAbs_natCast]
    exact roundMag_lt_infMag (u := u) (by omega) (by omega)
  rw [fadd_finite hpf hdf, sumFinite]
  refine ⟨isFinite_ofMag _ hround, ?_⟩
  rw [valueOf_nonneg_iff, signOf_ofMag _ (roundMag_lt _ _), magOf_ofMag _ (roundMag_lt _ _)]
  by_cases hz : valueOf p + valueOf d = 0
  · right; rw [hz]; exact roundMag_zero 1
  · left; rw [if_neg hz, decide_eq_false_iff_not]; omega

/-- R154: the next phase is in `[0, 1)`. -/
theorem phaseOk_next {p d : Num64} (hp : phaseOk p = true) (hd : incOk d = true) :
    phaseOk (wrapNum (fadd p d)) = true :=
  phaseOk_wrapNum (fadd_phase_finite_nonneg hp hd).1 (fadd_phase_finite_nonneg hp hd).2

/-! ### A whole block -/

/-- Both phases in `[0, 1)` and both increments finite and 0 or more, the oscillator at the sample rate `r`. -/
structure PhasesOk (r : Num64) (s : State) : Prop where
  rate : s.osc.sr = r
  oscInc : incOk s.osc.inc = true
  lfoInc : incOk s.lfo.inc = true
  oscPhase : phaseOk s.osc.phase = true
  lfoPhase : phaseOk s.lfo.phase = true

theorem PhasesOk.renderInvariant {P : Params} {r : Num64} (hnote : ∀ note, incOk (fdiv (noteFreq P note) r) = true) :
    RenderInvariant P (PhasesOk r) where
  noteOn h note := by
    refine ⟨h.rate, ?_, h.lfoInc, h.oscPhase, h.lfoPhase⟩
    rw [applyNoteOn_osc, oscSetFrequency, h.rate]
    exact hnote note
  held h _ := ⟨h.rate, h.oscInc, h.lfoInc, h.oscPhase, h.lfoPhase⟩
  target h w x := by
    constructor <;> simp only [writeTarget_osc, writeTarget_lfo]
    exacts [h.rate, h.oscInc, h.lfoInc, h.oscPhase, h.lfoPhase]
  body {s} h base gate := by
    have hl : incOk (voiceFrameBody P base gate s).lfo.inc = true ∧
        phaseOk (voiceFrameBody P base gate s).lfo.phase = true := by
      simp only [voiceFrameBody]
      split
      · exact ⟨h.lfoInc, phaseOk_next h.lfoPhase h.lfoInc⟩
      · exact ⟨h.lfoInc, h.lfoPhase⟩
    exact ⟨h.rate, h.oscInc, hl.1, phaseOk_next h.oscPhase h.oscInc, hl.2⟩
  clock h _ := ⟨h.rate, h.oscInc, h.lfoInc, h.oscPhase, h.lfoPhase⟩
  blind h _ _ _ := ⟨h.rate, h.oscInc, h.lfoInc, h.oscPhase, h.lfoPhase⟩

/-- Settles O11: the writes of the loop keep the phases, and a `NOTE_ON` the increment. -/
theorem renderKeepsThePhases : Obligations.RenderKeepsThePhases := by
  intro P ws frameCount s hnote hoi hli hop hlp
  have h := (PhasesOk.renderInvariant hnote).render ⟨rfl, hoi, hli, hop, hlp⟩ ws frameCount
  exact ⟨h.oscPhase, h.lfoPhase⟩

end Sys2Proof.Machine
end

section
/-! SUPPORT. The writers of the fault record, of the hidden state and of the lifecycle registers (R32, R36, R37). -/

namespace Sys2Proof.Machine

open Sys2Proof.Safety

variable {s t : State} {i : Instr}

/-- R228: what a `RENDER` that completes leaves. -/
theorem RenderKeeps.completed (n : Idx) (ws : List TargetWrite) (s : State) :
    RenderKeeps s
      (if n.toNat = 0 then landAfter Config.params ws 0 s else schRender Config.params ws n s) := by
  split
  · exact .land ..
  · exact .render ..

/-! ### The fault record -/

/-- R37: an instruction that goes on records nothing. -/
theorem Effect.faults (e : Effect s i t) : t.faults = s.faults := by
  cases e with
  | noteOff | noteOnV0 => exact applyNoteOff_faults ..
  | render n ws => exact (RenderKeeps.completed n ws s).faults
  | process => exact (RenderKeeps.process ..).faults
  | drain => exact (RenderKeeps.drain ..).faults
  | keeps _ h => exact h.faults
  | _ => rfl

/-- R37: a step that goes on started without a fault and left none. -/
theorem step_next_faults (h : step s = .next t) : t.faults = s.faults := by
  cases hf : s.faults with
  | cons f fs => rw [step_of_fault hf] at h; cases h
  | nil =>
    cases hp : s.port.pending with
    | nil => rw [step_of_nothing_pending hf hp] at h; cases h; exact hf
    | cons it rest =>
      cases hd : decode it with
      | error e => rw [step_of_decode_error hf hp hd] at h; cases e <;> cases h
      | ok i => rw [step_of_decode_ok hf hp hd] at h; exact (exec_effect h).faults.trans hf

theorem mem_recordFault (f g : Fault) (s : State) : g ∈ (recordFault f s).faults ↔ g = f ∨ g ∈ s.faults := by
  unfold recordFault
  split
  · exact ⟨.inr, fun h => h.elim (fun he => he ▸ ‹_›) id⟩
  · simp [or_comm]

theorem recordFault_eq (f : Fault) (s : State) :
    recordFault f s = { s with faults := (recordFault f s).faults } := by
  unfold recordFault
  split <;> rfl

/-- Settles O50: a step that goes on keeps the record, and `recordFault` adds the one fault a step raises. -/
theorem faultRecordOnlyGrows : Obligations.FaultRecordOnlyGrows := by
  refine ⟨fun _ => rfl, fun s => ⟨fun t h => step_next_faults h, fun f h => ?_, fun h => ?_⟩⟩
  · exact ⟨recordFault f s, by rw [traceStep, h], recordFault_eq f s, fun g => mem_recordFault f g s⟩
  · obtain ⟨f, fs, hf⟩ := List.exists_cons_of_ne_nil h
    exact ⟨f, by rw [hf]; exact List.mem_cons_self, step_of_fault hf⟩

/-! ### The hidden state -/

/-- R176: the smoothed current values have three writers. -/
theorem Effect.smoothed (e : Effect s i t) :
    ((∃ b n g, i = .voiceProcess b n g) ∨ ∃ n ws, i = .render n ws) ∨ (∃ x, i = .fltProcess x) ∨
      (t.flt.cutCur = s.flt.cutCur ∧ t.flt.resCur = s.flt.resCur) := by
  cases e with
  | render => exact .inl (.inr ⟨_, _, rfl⟩)
  | process => exact .inl (.inl ⟨_, _, _, rfl⟩)
  | filter => exact .inr (.inl ⟨_, rfl⟩)
  | keeps _ h => exact .inr (.inr ⟨h.cutoff, h.resonance⟩)
  | noteOff | noteOnV0 => rw [applyNoteOff_flt]; exact .inr (.inr ⟨rfl, rfl⟩)
  | drain =>
    obtain ⟨f, i, c, h, hd⟩ := drainRecs_eq Config.params s.sch.offset s.q.recs s
    rw [schDrain, hd]
    exact .inr (.inr ⟨rfl, rfl⟩)
  | _ => exact .inr (.inr ⟨rfl, rfl⟩)

/-- R163, R164: so has the modulator's phase, and its own reset. -/
theorem Effect.lfoPhase (e : Effect s i t) :
    ((∃ b n g, i = .voiceProcess b n g) ∨ ∃ n ws, i = .render n ws) ∨ i = .lfoNextSample ∨ i = .lfoReset ∨
      t.lfo.phase = s.lfo.phase := by
  cases e with
  | render => exact .inl (.inr ⟨_, _, rfl⟩)
  | process => exact .inl (.inl ⟨_, _, _, rfl⟩)
  | modulate => exact .inr (.inl rfl)
  | lfoReset => exact .inr (.inr (.inl rfl))
  | keeps _ h => exact .inr (.inr (.inr h.phase))
  | noteOff | noteOnV0 => rw [applyNoteOff_lfo]; exact .inr (.inr (.inr rfl))
  | drain =>
    obtain ⟨f, i, c, h, hd⟩ := drainRecs_eq Config.params s.sch.offset s.q.recs s
    rw [schDrain, hd]
    exact .inr (.inr (.inr rfl))
  | _ => exact .inr (.inr (.inr rfl))

/-- R208 to R211: the held note has the four note events and what drains them. -/
theorem Effect.heldNote (e : Effect s i t) :
    (∃ n ws, i = .render n ws) ∨ i = .schDrain ∨ (∃ ch n v o, i = .noteOn ch n v o) ∨
      (∃ ch n o, i = .noteOnV0 ch n o) ∨ (∃ ch n v o, i = .noteOff ch n v o) ∨
      (∃ ch v o, i = .ccAllNotesOff ch v o) ∨ t.v.heldNote = s.v.heldNote := by
  cases e with
  | render | drain | noteOn | noteOnV0 | noteOff | allNotesOff => simp
  | process =>
    obtain ⟨p, l, f, b, o, -, -, h⟩ := voiceProcess_eq Config.params [] _ _ _ s
    rw [h]
    simp [clockAfter]
  | keeps _ h => simp [h.held]
  | _ => simp

/-- Settles O56, register by register. -/
theorem hiddenStateHasFewWriters : Obligations.HiddenStateHasFewWriters := by
  intro i s t h
  have e := exec_effect h
  exact ⟨e.smoothed, e.lfoPhase, e.heldNote⟩

/-! ### The lifecycle registers -/

/-- R32, R226: the block size, the capacity and `cfg.bsSet` have one writer. -/
theorem Effect.block (e : Effect s i t) :
    (∃ n, i = .setbs n) ∨
      (t.sch.blockSize = s.sch.blockSize ∧ t.q.cap = s.q.cap ∧ t.cfg.bsSet = s.cfg.bsSet) := by
  cases e with
  | setbs n => exact .inl ⟨n, rfl⟩
  | noteOff | noteOnV0 => exact .inr (by simp)
  | render n ws =>
    have h := RenderKeeps.completed n ws s
    exact .inr ⟨h.block, h.cap, by rw [h.cfg]⟩
  | process b n g =>
    have h := RenderKeeps.process Config.params [] b n g s
    exact .inr ⟨h.block, h.cap, by rw [h.cfg]⟩
  | drain =>
    have h := RenderKeeps.drain Config.params s
    exact .inr ⟨h.block, h.cap, by rw [h.cfg]⟩
  | keeps _ h => exact .inr ⟨h.block, by rw [h.queue], by rw [h.cfg]⟩
  | _ => exact .inr ⟨rfl, rfl, rfl⟩

/-- R64: the queue's records have three writers. -/
theorem Effect.records (e : Effect s i t) :
    (∃ ev o, i = .enq ev o) ∨ i = .schDrain ∨ (∃ n ws, i = .render n ws) ∨ t.q.recs = s.q.recs := by
  cases e with
  | enq | drain | render => simp
  | setbs n => exact .inr (.inr (.inr (queueResize_recs s.q n)))
  | noteOff | noteOnV0 => rw [applyNoteOff_q]; exact .inr (.inr (.inr rfl))
  | process base n gate =>
    obtain ⟨p, l, f, b, o, -, -, h⟩ := voiceProcess_eq Config.params [] base n gate s
    rw [h]
    exact .inr (.inr (.inr rfl))
  | keeps _ h => exact .inr (.inr (.inr (by rw [h.queue])))
  | _ => exact .inr (.inr (.inr rfl))

/-- R32, R225: `cfg.srSet` has one writer, which sets it. -/
theorem Effect.srSet (e : Effect s i t) :
    ((∃ r, i = .setsr r) ∧ t.cfg.srSet = true) ∨ t.cfg.srSet = s.cfg.srSet := by
  cases e with
  | setsr r => exact .inl ⟨⟨r, rfl⟩, rfl⟩
  | noteOff | noteOnV0 => rw [applyNoteOff_cfg]; exact .inr rfl
  | render n ws => rw [(RenderKeeps.completed n ws s).cfg]; exact .inr rfl
  | process b n g => rw [(RenderKeeps.process Config.params [] b n g s).cfg]; exact .inr rfl
  | drain => rw [(RenderKeeps.drain Config.params s).cfg]; exact .inr rfl
  | keeps _ h => rw [h.cfg]; exact .inr rfl
  | _ => exact .inr rfl

/-- Settles O57: the one writer of the block size sets its bit and does not shrink the capacity. -/
theorem lifecycleRegistersHaveTheirWriters : Obligations.LifecycleRegistersHaveTheirWriters := by
  intro i s t h
  have e := exec_effect h
  have hbs : (s.cfg.bsSet = true → t.cfg.bsSet = true) ∧ s.q.cap.toNat ≤ t.q.cap.toNat := by
    rcases e.block with ⟨n, rfl⟩ | ⟨-, hc, hb⟩
    · cases execSetbs_next h
      exact ⟨fun _ => rfl, by rw [queueResize_cap]; exact Nat.le_max_left _ _⟩
    · exact ⟨fun hs => hb.trans hs, by rw [hc]⟩
  have hsr : (s.cfg.srSet = true → t.cfg.srSet = true) := by
    rcases e.srSet with ⟨-, h1⟩ | h1
    · exact fun _ => h1
    · exact fun hs => h1.trans hs
  exact ⟨e.block, e.records, e.srSet.imp_left And.left, hsr, hbs.1, hbs.2⟩

end Sys2Proof.Machine
end

section
/-! SUPPORT. The data between steps (R61, R64, R28): which instruction writes the output memory, the queue or the frame
index, and that each writer keeps the invariant of them. -/

namespace Sys2Proof.Machine

variable {s t : State}

/-! ### The drain and the channel copy -/

/-- R206, R266: the drain leaves the output memory, and the scheduler's registers. -/
theorem schDrain_out_sch (P : Params) (s : State) : (schDrain P s).out = s.out ∧ (schDrain P s).sch = s.sch := by
  obtain ⟨f, i, c, h, hd⟩ := drainRecs_eq P s.sch.offset s.q.recs s
  rw [schDrain, hd]
  exact ⟨rfl, rfl⟩

@[simp] theorem schDrain_out (P : Params) (s : State) : (schDrain P s).out = s.out := (schDrain_out_sch P s).1

@[simp] theorem schDrain_sch (P : Params) (s : State) : (schDrain P s).sch = s.sch := (schDrain_out_sch P s).2

/-- R206: what is due has left the queue; the capacity stays. -/
theorem schDrain_q (P : Params) (s : State) :
    (schDrain P s).q =
      { s.q with recs := s.q.recs.dropWhile fun e => decide (e.off.toNat ≤ s.sch.offset.toNat) } := by
  obtain ⟨f, i, c, h, hd⟩ := drainRecs_eq P s.sch.offset s.q.recs s
  rw [schDrain, hd]

theorem copyChannels_mono {P : Params} (h : P.nch = .mono) (n : Idx) (m : Memory) : copyChannels P n m = m := by
  simp [copyChannels, h]

theorem copyChannels_stereo {P : Params} (h : P.nch = .stereo) (n : Idx) (m : Memory) :
    copyChannels P n m = { m with ch1 := bufCopy n.toNat m.ch0 m.ch1 } := by
  simp [copyChannels, h]

/-- R216: the first channel is not written. -/
@[simp] theorem copyChannels_ch0 (P : Params) (n : Idx) (m : Memory) : (copyChannels P n m).ch0 = m.ch0 := by
  cases h : P.nch with
  | mono => rw [copyChannels_mono h]
  | stereo => rw [copyChannels_stereo h]

/-- R216: the copy keeps the canonical form. -/
theorem copyChannels_wf {m : Memory} (hm : m.wf) (P : Params) (n : Idx) : (copyChannels P n m).wf := by
  cases h : P.nch with
  | mono => rw [copyChannels_mono h]; exact hm
  | stereo => rw [copyChannels_stereo h]; exact ⟨hm.1, bufCopy_wf hm.1 hm.2 _⟩

/-! ### The writers -/

/-- R227: the two last checks of an `ENQ` that goes on. -/
theorem execEnq_checked {ev : BitVec 24} {off : Idx} (h : execEnq ev off s = .next t) :
    breaksOrder s.q off = false ∧ s.q.recs.length < s.q.cap.toNat := by
  have h' := betweenRenders_next h
  unfold raise at h'
  repeat' split at h'
  all_goals cases h'
  exact ⟨Bool.eq_false_iff.mpr ‹_›, Nat.lt_of_not_le ‹_›⟩

/-- What an instruction leaves that writes none of the data `Inv` speaks of. -/
structure KeepsData (s t : State) : Prop where
  out : t.out = s.out
  queue : t.q = s.q
  index : t.sch.i = s.sch.i

/-- What an instruction that goes on has done, for the writers of the output memory, the queue and the frame index. -/
inductive DataEffect (s : State) : Instr → State → Prop where
  | process (base n gate) :
      DataEffect s (.voiceProcess base n gate) (voiceProcess Config.params [] base n gate s)
  | copy (n) : DataEffect s (.schCopyChannels n) { s with out := copyChannels Config.params n s.out }
  | render (n ws) :
      DataEffect s (.render n ws)
        (if n.toNat = 0 then landAfter Config.params ws 0 s else schRender Config.params ws n s)
  | drain : DataEffect s .schDrain (schDrain Config.params s)
  | enq (ev off) (hord : breaksOrder s.q off = false) (hroom : s.q.recs.length < s.q.cap.toNat) :
      DataEffect s (.enq ev off) { s with q := queuePush s.q (recordOf ev off) }
  | setbs (n) :
      DataEffect s (.setbs n)
        { s with
          sch := { s.sch with blockSize := n }, q := queueResize s.q n, cfg := { s.cfg with bsSet := true } }
  | keeps (i) {t} (h : KeepsData s t) : DataEffect s i t

theorem KeepsData.target (P : Params) (w : Smoothed) (x : Num64) (s : State) : KeepsData s (writeTarget P w x s) :=
  ⟨writeTarget_out .., writeTarget_q .., by rw [writeTarget_sch]⟩

theorem KeepsData.noteOff (note : Data7) (s : State) : KeepsData s (applyNoteOff note s) :=
  ⟨applyNoteOff_out .., applyNoteOff_q .., by rw [applyNoteOff_sch]⟩

/-- The case split over the instructions: what is no writer of the data is a register write of another unit. -/
theorem exec_dataEffect {i : Instr} (h : exec i s = .next t) : DataEffect s i t := by
  cases i with
  | voiceProcess => cases h; exact .process ..
  | schCopyChannels => cases h; exact .copy _
  | render => obtain ⟨-, -, -, rfl⟩ := execRender_next h; exact .render ..
  | schDrain => cases h; exact .drain
  | enq =>
    obtain ⟨hord, hroom⟩ := execEnq_checked h
    cases execEnq_next h
    exact .enq _ _ hord hroom
  | setbs => cases execSetbs_next h; exact .setbs _
  | noteOff | noteOnV0 => cases h; exact .keeps _ (.noteOff ..)
  | setsr => obtain ⟨-, rfl⟩ := execSetsr_next h; exact .keeps _ ⟨rfl, rfl, rfl⟩
  | reset => cases execReset_next h; exact .keeps _ ⟨rfl, rfl, rfl⟩
  | setpCutoff | setpResonance => cases setSmoothed_next h; exact .keeps _ (.target ..)
  | setpAttack | setpDecay | setpSustain | setpRelease | setpLfoRate | setpLfoDepth | setpEnvEnable | setpBypass =>
    cases setUnsmoothed_next h; exact .keeps _ ⟨rfl, rfl, rfl⟩
  | _ => cases h; exact .keeps _ ⟨rfl, rfl, rfl⟩

/-- Settles O55: of the writers of the data, the drain, `ENQ` and `SETBS` write no output. -/
theorem outputHasThreeWriters : Obligations.OutputHasThreeWriters := by
  intro i s t h
  cases exec_dataEffect h with
  | process base n gate => exact .inl ⟨base, n, gate, rfl⟩
  | copy n => exact .inr (.inl ⟨n, rfl⟩)
  | render n ws => exact .inr (.inr (.inl ⟨n, ws, rfl⟩))
  | drain => rw [schDrain_out]; exact .inr (.inr (.inr fun _ _ => rfl))
  | enq | setbs => exact .inr (.inr (.inr fun _ _ => rfl))
  | keeps _ h => rw [h.out]; exact .inr (.inr (.inr fun _ _ => rfl))

/-! ### The queue -/

/-- R206: a queue from which records have gone keeps its form. -/
theorem Queue.wf_of_sublist {q : Queue} (h : q.wf) {recs : List EventRec} (hs : recs.Sublist q.recs) :
    Queue.wf { q with recs := recs } :=
  ⟨h.1.sublist hs, hs.length_le.trans h.2⟩

/-- R227: in an ordered queue no record lies beyond an offset that passes the check against the last one. -/
theorem off_le_of_breaksOrder_eq_false {q : Queue} {off : Idx} (hq : q.wf) (h : breaksOrder q off = false) :
    ∀ a ∈ q.recs, a.off.toNat ≤ off.toNat := by
  intro a ha
  cases hl : q.recs.getLast? with
  | none => rw [List.getLast?_eq_none_iff.mp hl] at ha; cases ha
  | some last =>
    have hle : last.off.toNat ≤ off.toNat := by simpa [breaksOrder, queueTailOff, hl] using h
    obtain ⟨init, hinit⟩ := List.getLast?_eq_some_iff.mp hl
    have hord := hq.1
    rw [hinit, List.pairwise_append] at hord
    rcases List.mem_append.mp (hinit ▸ ha) with hi | he
    · exact (hord.2.2 a hi last List.mem_cons_self).trans hle
    · rw [List.mem_singleton.mp he]; exact hle

end Sys2Proof.Machine

namespace Sys2Proof.Safety

open Sys2Proof.Machine

variable {s t : State}

/-! ### The invariant -/

theorem Inv.keeps (h : Inv s) (k : KeepsData s t) : Inv t :=
  ⟨by rw [k.out]; exact h.memory, by rw [k.queue]; exact h.queue, by rw [k.index]; exact h.index⟩

theorem Inv.drain (h : Inv s) (P : Params) : Inv (schDrain P s) where
  memory := by rw [schDrain_out]; exact h.memory
  queue := by rw [schDrain_q]; exact Queue.wf_of_sublist h.queue (List.dropWhile_sublist _)
  index := by rw [schDrain_sch]; exact h.index

theorem Inv.process (h : Inv s) (P : Params) (ws : List TargetWrite) (base n : Idx) (gate : Bool) :
    Inv (voiceProcess P ws base n gate s) where
  memory := voiceProcess_out_wf P ws base n gate s h.memory
  queue := by
    obtain ⟨p, l, f, b, o, -, -, hp⟩ := voiceProcess_eq P ws base n gate s
    rw [hp]
    exact h.queue
  index := rfl

theorem Inv.land (h : Inv s) (P : Params) (ws : List TargetWrite) : Inv (landWrites P ws s) :=
  h.keeps ⟨landWrites_out .., landWrites_q .., by rw [landWrites_sch]⟩

theorem Inv.iteration (h : Inv s) (P : Params) (ws : List TargetWrite) (frameCount : Idx) :
    Inv (schIteration P ws frameCount s) :=
  ((h.drain P).process P ws _ _ _).keeps ⟨rfl, rfl, rfl⟩

theorem Inv.render (h : Inv s) (P : Params) (ws : List TargetWrite) (frameCount : Idx) :
    Inv (schRender P ws frameCount s) := by
  have hloop : Inv (schLoop P ws frameCount frameCount.toNat (renderEntry s)) :=
    schLoop_induction P ws frameCount Inv (fun _ h _ => h.iteration P ws frameCount) _ _
      ⟨poisoned_wf, h.queue, h.index⟩
  have hcopy : Inv { schLoop P ws frameCount frameCount.toNat (renderEntry s) with
      out := copyChannels P frameCount (schLoop P ws frameCount frameCount.toNat (renderEntry s)).out } :=
    ⟨copyChannels_wf hloop.memory P frameCount, hloop.queue, hloop.index⟩
  exact hcopy.land P _

theorem Inv.dataEffect {i : Instr} (h : Inv s) (e : DataEffect s i t) : Inv t := by
  cases e with
  | process base n gate => exact h.process _ _ base n gate
  | copy n => exact ⟨copyChannels_wf h.memory _ n, h.queue, h.index⟩
  | render n ws =>
    split
    · exact h.land _ _
    · exact h.render _ ws n
  | drain => exact h.drain _
  | enq ev off hord hroom =>
    exact ⟨h.memory, queuePush_wf h.queue (off_le_of_breaksOrder_eq_false h.queue hord) hroom, h.index⟩
  | setbs n => exact ⟨h.memory, queueResize_wf h.queue n, h.index⟩
  | keeps _ k => exact h.keeps k

end Sys2Proof.Safety

namespace Sys2Proof.Machine

open Sys2Proof.Safety

variable {s t : State}

/-- R8, R275: a step that goes on did nothing, or executed an instruction in the state in which the item has left the
port. -/
theorem step_next (h : step s = .next t) : t = s ∨ ∃ it rest i, exec i (takeItem it rest s) = .next t := by
  cases hf : s.faults with
  | cons f fs => rw [step_of_fault hf] at h; cases h
  | nil =>
    cases hp : s.port.pending with
    | nil => rw [step_of_nothing_pending hf hp] at h; cases h; exact .inl rfl
    | cons it rest =>
      cases hd : decode it with
      | error e => rw [step_of_decode_error hf hp hd] at h; cases e <;> cases h
      | ok i => rw [step_of_decode_ok hf hp hd] at h; exact .inr ⟨it, rest, i, h⟩

/-- Settles O52: taking an item from the port keeps the data, and so does every writer of it. -/
theorem invariantIsKeptByEveryStep : Obligations.InvariantIsKeptByEveryStep := by
  intro s t h hstep
  rcases step_next hstep with rfl | ⟨it, rest, i, hx⟩
  · exact h
  · have htaken : Inv (takeItem it rest s) := h.keeps ⟨rfl, rfl, rfl⟩
    exact htaken.dataEffect (exec_dataEffect hx)

end Sys2Proof.Machine
end

section
/-! SUPPORT. The output of a `RENDER` (R62, R63, R65): the block is filled from its first frame on, and what the buffers
held before is not read. -/

namespace Sys2Proof.Machine

open Sys2Proof.Safety

/-! ### The block is filled -/

/-- R62, R63: of the first channel exactly the frames below `n` hold a value, and of the second no word does. -/
structure FilledBelow (n : Nat) (m : Memory) : Prop where
  below : ∀ k, k < n → (memRead m .first k).isSome = true
  beyond : ∀ k, n ≤ k → memRead m .first k = none
  second : m.ch1 = []

theorem filledBelow_poisoned : FilledBelow 0 Memory.poisoned :=
  ⟨fun _ h => absurd h (Nat.not_lt_zero _), fun _ _ => rfl, rfl⟩

/-- R195: a call that starts where the filled words end fills the frames of its own. -/
theorem FilledBelow.process {s : State} {base n : Idx} (h : FilledBelow base.toNat s.out)
    (hw : base.toNat + n.toNat ≤ 2 ^ 32) (P : Params) (ws : List TargetWrite) (gate : Bool) :
    FilledBelow (base.toNat + n.toNat) (voiceProcess P ws base n gate s).out where
  below k hk := by
    obtain ⟨hin, hout⟩ := voiceProcess_out_of_le P ws base n gate s k hw
    by_cases hb : base.toNat ≤ k
    · exact hin ⟨hb, hk⟩
    · rw [hout (fun hc => hb hc.1)]
      exact h.below k (Nat.lt_of_not_le hb)
  beyond k hk := by
    obtain ⟨-, hout⟩ := voiceProcess_out_of_le P ws base n gate s k hw
    rw [hout (fun hc => Nat.not_lt.mpr hk hc.2)]
    exact h.beyond k (by omega)
  second := ((voiceProcess_out P ws base n gate s 0).2.2).trans h.second

/-- What an iteration of the loop finds and leaves (R205): the words below the position hold a value, and every queued
record is due within the block. -/
structure LoopFills (frameCount : Idx) (s : State) : Prop where
  filled : FilledBelow s.sch.offset.toNat s.out
  reached : ∀ e ∈ s.q.recs, e.off.toNat < frameCount.toNat

theorem LoopFills.iteration {frameCount : Idx} {s : State} (h : LoopFills frameCount s)
    (hlt : s.sch.offset.toNat < frameCount.toNat) (P : Params) (ws : List TargetWrite) :
    LoopFills frameCount (schIteration P ws frameCount s) := by
  obtain ⟨hforward, -, hrecs, -⟩ := schIteration_advances P ws frameCount s h.reached hlt
  refine ⟨?_, hrecs⟩
  -- the call runs from the old position up to the new one
  have hlen : s.sch.offset.toNat + ((schIteration P ws frameCount s).sch.offset - s.sch.offset).toNat =
      (schIteration P ws frameCount s).sch.offset.toNat := by
    rw [BitVec.toNat_sub_of_le (Nat.le_of_lt hforward)]
    omega
  have hdrained : FilledBelow s.sch.offset.toNat (schDrain P s).out := by rw [schDrain_out]; exact h.filled
  have hcall := hdrained.process (n := (schIteration P ws frameCount s).sch.offset - s.sch.offset)
    (by rw [hlen]; exact Nat.le_of_lt (BitVec.isLt _)) P ws (gateOf P (schDrain P s).v)
  rw [hlen] at hcall
  simpa [schIteration] using hcall

/-- R62, R65: the loop of a `RENDER` fills the block and empties the queue. -/
theorem schLoop_fills (P : Params) (ws : List TargetWrite) {frameCount : Idx} {s : State}
    (hpos : 0 < frameCount.toNat) (hq : ∀ e ∈ s.q.recs, e.off.toNat < frameCount.toNat) :
    FilledBelow frameCount.toNat (schLoop P ws frameCount frameCount.toNat (renderEntry s)).out ∧
      (schLoop P ws frameCount frameCount.toNat (renderEntry s)).q.recs = [] := by
  obtain ⟨hoff, hrecs⟩ := schLoop_ends P ws frameCount frameCount.toNat (renderEntry s) hq hpos (Nat.le_add_left _ _)
  have hloop := schLoop_induction P ws frameCount (LoopFills frameCount) (fun _ h hlt => h.iteration hlt P ws)
    frameCount.toNat (renderEntry s) ⟨filledBelow_poisoned, hq⟩
  have hfill := hloop.filled
  rw [hoff] at hfill
  exact ⟨hfill, hrecs⟩

/-- R216: the copy writes no word of the first channel. -/
theorem memRead_copyChannels_first (P : Params) (n : Idx) (m : Memory) (k : Nat) :
    memRead (copyChannels P n m) .first k = memRead m .first k := by
  rw [memRead, copyChannels_ch0, memRead]

/-- R216: what the second channel of a filled block reads as after the copy. -/
theorem FilledBelow.memRead_copy_second {n : Idx} {m : Memory} (h : FilledBelow n.toNat m) (k : Nat) :
    memRead (copyChannels Config.params n m) .second k =
      match Config.nch with
      | .mono => none
      | .stereo => memRead m .first k := by
  cases hn : Config.nch with
  | mono => rw [copyChannels_mono hn]; simp only [memRead, h.second, bufRead_nil]
  | stereo =>
    rw [copyChannels_stereo hn]
    simp only [memRead, bufRead_bufCopy, h.second, bufRead_nil]
    split
    · rfl
    · exact (h.beyond k (Nat.le_of_not_lt ‹_›)).symm

/-- R72, R205: the writes placed after the last frame write no output. -/
theorem schRender_out (P : Params) (ws : List TargetWrite) (frameCount : Idx) (s : State) :
    (schRender P ws frameCount s).out =
      copyChannels P frameCount (schLoop P ws frameCount frameCount.toNat (renderEntry s)).out :=
  landWrites_out ..

/-- R65: a `RENDER` empties the queue and keeps its capacity. -/
theorem schRender_q (P : Params) (ws : List TargetWrite) {frameCount : Idx} {s : State}
    (hpos : 0 < frameCount.toNat) (hq : ∀ e ∈ s.q.recs, e.off.toNat < frameCount.toNat) :
    (schRender P ws frameCount s).q = { s.q with recs := [] } := by
  rw [Queue.mk.injEq]
  exact ⟨(RenderKeeps.render P ws frameCount s).cap,
    (congrArg Queue.recs (landWrites_q ..)).trans (schLoop_fills P ws hpos hq).2⟩

/-- Settles O35: the loop fills the first channel, and the copy gives the second the same words. -/
theorem renderFillsTheBlock : Obligations.RenderFillsTheBlock := by
  intro frameCount ws s hpos hready
  obtain ⟨hb, hr, hs, hf, hq, hw⟩ := hready
  obtain ⟨hfill, -⟩ := schLoop_fills Config.params ws hpos (hq hpos)
  refine ⟨schRender Config.params ws frameCount s, ?_, fun k hk => ?_, fun k hk c => ?_, fun k _ => ?_,
    schRender_q _ ws hpos (hq hpos)⟩
  · exact (execRender_ready frameCount ws s hb hr hs hf hq hw).trans (by rw [if_neg hpos.ne'])
  · rw [schRender_out, memRead_copyChannels_first]
    exact hfill.below k hk
  · rw [schRender_out]
    cases c with
    | first => exact (memRead_copyChannels_first ..).trans (hfill.beyond k hk)
    | second =>
      rw [hfill.memRead_copy_second, hfill.beyond k hk]
      cases Config.nch <;> rfl
  · rw [schRender_out, memRead_copyChannels_first]
    exact hfill.memRead_copy_second k

/-! ### What the output memory held before -/

/-- R63: a block of one frame or more starts from a poisoned memory. -/
theorem renderBlock_withOut {frameCount : Idx} (hpos : 0 < frameCount.toNat) (ws : List TargetWrite) (s : State)
    (m : Memory) : renderBlock frameCount ws { s with out := m } = renderBlock frameCount ws s := by
  unfold renderBlock
  rw [if_neg hpos.ne', if_neg hpos.ne']
  rfl

/-- R63: the checks of a `RENDER` do not read the memory either. -/
theorem execRender_withOut {frameCount : Idx} (hpos : 0 < frameCount.toNat) (ws : List TargetWrite) (s : State)
    (m : Memory) : execRender frameCount ws { s with out := m } = execRender frameCount ws s := by
  unfold execRender
  rw [renderBlock_withOut hpos]
  rfl

/-- R72: the concurrent writes neither read nor write the memory. -/
theorem landWrites_withOut (P : Params) (ws : List TargetWrite) (s : State) (m : Memory) :
    landWrites P ws { s with out := m } = { landWrites P ws s with out := m } := by
  induction ws generalizing s with
  | nil => rfl
  | cons w ws ih =>
    have hone : writeTarget P w.target w.value { s with out := m } =
        { writeTarget P w.target w.value s with out := m } := by
      unfold writeTarget
      cases w.target <;> (split <;> rfl)
    exact (congrArg (landWrites P ws) hone).trans (ih _)

/-- R195: a frame writes the same registers over every memory, and the same word at the same index. -/
theorem voiceFrame_withOut (P : Params) (ws : List TargetWrite) (base : Nat) (gate : Bool) (s : State) :
    ∃ y, ∀ m, voiceFrame P ws base gate { s with out := m } =
      { voiceFrame P ws base gate s with out := memWrite m .first (frameIndex base s.sch.i.toNat) y } := by
  -- `u` is the state the body of the frame reads
  generalize hu : landBefore P ws (base + s.sch.i.toNat) s = u
  have hsch : u.sch = s.sch := by rw [← hu]; exact landWrites_sch ..
  refine ⟨fltSample P (voiceInput P gate u) (voiceFilter P u), fun m => ?_⟩
  have hm : landBefore P ws (base + s.sch.i.toNat) { s with out := m } = { u with out := m } := by
    rw [← hu]; exact landWrites_withOut ..
  rw [voiceFrame, voiceFrame, hm, hu, ← hsch]
  rfl

/-- R63, R195: `n` frames over two memories leave the same registers, and the same words at the frames' indexes. -/
theorem voiceFrames_withOut (P : Params) (ws : List TargetWrite) (base : Nat) (gate : Bool) (n : Nat) (s : State)
    (m : Memory) (hi : s.sch.i.toNat + n ≤ 2 ^ 32) :
    ∃ o, voiceFrames P ws base gate n { s with out := m } = { voiceFrames P ws base gate n s with out := o } ∧
      ∀ j, j < n → memRead o .first (frameIndex base (s.sch.i.toNat + j)) =
        memRead (voiceFrames P ws base gate n s).out .first (frameIndex base (s.sch.i.toNat + j)) := by
  induction n with
  | zero => exact ⟨m, rfl, fun _ h => absurd h (Nat.not_lt_zero _)⟩
  | succ n ih =>
    obtain ⟨o, ho, hread⟩ := ih (by omega)
    have hni : (voiceFrames P ws base gate n s).sch.i.toNat = s.sch.i.toNat + n := by
      rw [voiceFrames_i, BitVec.toNat_add, BitVec.toNat_ofNat]
      omega
    obtain ⟨y, hy⟩ := voiceFrame_withOut P ws base gate (voiceFrames P ws base gate n s)
    rw [hni] at hy
    rw [voiceFrames_succ_last, voiceFrames_succ_last, ho]
    refine ⟨_, hy o, fun j hj => ?_⟩
    have hout := congrArg State.out (hy (voiceFrames P ws base gate n s).out)
    rw [hout, memRead_memWrite_first, memRead_memWrite_first]
    split
    · rfl
    · rename_i hne
      refine hread j (lt_of_le_of_ne (Nat.lt_succ_iff.mp hj) fun he => hne ⟨rfl, by rw [he]⟩)

/-- Settles O37: a `RENDER` starts from a poisoned memory; of a call, every frame writes without reading. -/
theorem renderDoesNotReadTheOldOutput : Obligations.RenderDoesNotReadTheOldOutput := by
  refine ⟨fun frameCount ws s m hpos => execRender_withOut hpos ws s m, fun base n gate s m => ?_⟩
  have hn := n.isLt
  obtain ⟨o, ho, hread⟩ := voiceFrames_withOut Config.params [] base.toNat gate n.toNat
    { s with sch := { s.sch with i := 0 } } m (by change 0 + n.toNat ≤ _; omega)
  have hcall : voiceProcess Config.params [] base n gate { s with out := m } =
      { voiceProcess Config.params [] base n gate s with out := o } := by
    simp only [voiceProcess]
    rw [ho]
  refine ⟨_, _, rfl, congrArg Host.Outcome.next hcall, rfl, fun k hk => ?_⟩
  simpa [voiceProcess] using hread k hk

end Sys2Proof.Machine
end

section
/-! SUPPORT. The events of format EV and their words (R91 to R94). -/

namespace Sys2Proof

/-- R93: the event words with clear reserved bits, each with the event it stands for: a row's fixed fields and what the
row's own test (R94) asks of the others. -/
inductive EventOf (off : Idx) : BitVec 24 → Instr → Prop where
  | noteOn (ch note vel) (h : vel ≠ 0) : EventOf off (evWord 0x9 ch note vel) (.noteOn ch note vel off)
  | noteOnV0 (ch note) : EventOf off (evWord 0x9 ch note 0) (.noteOnV0 ch note off)
  | noteOff (ch note vel) : EventOf off (evWord 0x8 ch note vel) (.noteOff ch note vel off)
  | ccAllNotesOff (ch value) : EventOf off (evWord 0xB ch 123 value) (.ccAllNotesOff ch value off)
  | ccOther (ch c value) (h : c ≠ 123) : EventOf off (evWord 0xB ch c value) (.ccOther ch c value off)
  | polyPressure (ch d1 d2) : EventOf off (evWord 0xA ch d1 d2) (.polyPressure ch d1 d2 off)
  | programChange (ch d1 d2) : EventOf off (evWord 0xC ch d1 d2) (.programChange ch d1 d2 off)
  | channelPressure (ch d1 d2) : EventOf off (evWord 0xD ch d1 d2) (.channelPressure ch d1 d2 off)
  | pitchBend (ch d1 d2) : EventOf off (evWord 0xE ch d1 d2) (.pitchBend ch d1 d2 off)
  | system (ch d1 d2) : EventOf off (evWord 0xF ch d1 d2) (.system ch d1 d2 off)
  | notAStatus (st : BitVec 3) (ch d1 d2) :
      EventOf off (evWord (st.setWidth 4) ch d1 d2) (.notAStatus st ch d1 d2 off)

/-- The status nibbles of R93: the named ones, and those with a clear top bit. -/
theorem status_cases : ∀ st : BitVec 4, st = 0x9 ∨ st = 0x8 ∨ st = 0xB ∨ st = 0xA ∨ st = 0xC ∨ st = 0xD ∨ st = 0xE ∨
    st = 0xF ∨ ∃ low : BitVec 3, st = low.setWidth 4 := by decide

/-- A status with a clear top bit is no named one. -/
theorem setWidth_ne_status (low : BitVec 3) {st : BitVec 4} (h : 8 ≤ st.toNat) : low.setWidth 4 ≠ st := by
  rintro rfl
  have hlow := low.isLt
  simp only [BitVec.toNat_setWidth] at h
  omega

variable {w : BitVec 24} {off : Idx} {i : Instr}

/-- R93: every word with clear reserved bits stands for an event. -/
theorem exists_eventOf (off : Idx) (h15 : evReserved15 w = false) (h7 : evReserved7 w = false) :
    ∃ i, EventOf off w i := by
  rw [← evWord_fields w h15 h7]
  rcases status_cases (evStatus w) with h | h | h | h | h | h | h | h | ⟨low, h⟩ <;> rw [h]
  · by_cases h0 : evData2 w = 0
    · rw [h0]; exact ⟨_, .noteOnV0 ..⟩
    · exact ⟨_, .noteOn _ _ _ h0⟩
  · exact ⟨_, .noteOff ..⟩
  · by_cases h123 : evData1 w = 123
    · rw [h123]; exact ⟨_, .ccAllNotesOff ..⟩
    · exact ⟨_, .ccOther _ _ _ h123⟩
  · exact ⟨_, .polyPressure ..⟩
  · exact ⟨_, .programChange ..⟩
  · exact ⟨_, .channelPressure ..⟩
  · exact ⟨_, .pitchBend ..⟩
  · exact ⟨_, .system ..⟩
  · exact ⟨_, .notAStatus ..⟩

namespace EventOf

/-- R94: the decoder's chain of tests finds the event of a word. -/
theorem decodeEvent_eq (e : EventOf off w i) : decodeEvent w off = i := by
  cases e with
  | noteOn _ _ _ h => simpa [decodeEvent] using h
  | ccOther _ _ _ h => simpa [decodeEvent] using h
  | notAStatus st => simp [decodeEvent, setWidth_ne_status st, BitVec.setWidth_setWidth_of_le]
  | _ => simp [decodeEvent]

theorem reserved_clear (e : EventOf off w i) : evReserved15 w = false ∧ evReserved7 w = false := by
  cases e <;> exact ⟨evReserved15_evWord .., evReserved7_evWord ..⟩

theorem wellFormed (e : EventOf off w i) : i.wellFormed = true := by
  cases e with
  | noteOn _ _ _ h => simpa [Instr.wellFormed] using h
  | ccOther _ _ _ h => simpa [Instr.wellFormed] using h
  | _ => rfl

end EventOf

/-- R91: an event word with clear reserved bits decodes to its event, with the offset of the first slot. -/
theorem decodeEv_eq_ok_iff {ops : List Slot} : decodeEv w ops = .ok i ↔ EventOf (slotIdx (slotAt ops 0)) w i := by
  constructor
  · intro h
    unfold decodeEv at h
    split at h
    · cases h
    · rename_i hclear
      obtain ⟨h15, h7⟩ : evReserved15 w = false ∧ evReserved7 w = false := by simpa using hclear
      obtain ⟨j, e⟩ := exists_eventOf (slotIdx (slotAt ops 0)) h15 h7
      cases h
      rwa [e.decodeEvent_eq]
  · intro e
    obtain ⟨h15, h7⟩ := e.reserved_clear
    simp [decodeEv, h15, h7, e.decodeEvent_eq]

/-! ### The rows an event word matches (R94) -/

/-- A row's mask and pattern may be read on the word itself. -/
theorem evRow_holds_iff (w : BitVec 24) {mask pattern : Nat} (hm : mask < 2 ^ 24) (hp : pattern < 2 ^ 24) :
    (evRow mask pattern).holds (.ev w) ↔ w &&& BitVec.ofNat 24 mask = BitVec.ofNat 24 pattern := by
  refine ⟨fun ⟨_, h⟩ => BitVec.eq_of_toNat_eq ?_, Laws.EncodedRow.holds_of_and w mask pattern hm hp⟩
  rw [BitVec.toNat_and, BitVec.toNat_ofNat, BitVec.toNat_ofNat, Nat.mod_eq_of_lt hm, Nat.mod_eq_of_lt hp]
  exact h

/-- A row whose pattern is a word matches the words that have that word under its mask. -/
theorem evRow_holds_iff_eq {w fixed : BitVec 24} (p : BitVec 24) {mask : Nat} (hm : mask < 2 ^ 24)
    (h : w &&& BitVec.ofNat 24 mask = fixed) : (evRow mask p.toNat).holds (.ev w) ↔ fixed = p := by
  rw [evRow_holds_iff w hm p.isLt, h, BitVec.ofNat_toNat, BitVec.setWidth_eq]

variable (st ch : BitVec 4) (d1 d2 : Data7)

theorem statusRow_holds_iff (p : BitVec 4) :
    (evRow 0xF08080 (evWord p 0 0 0).toNat).holds (.ev (evWord st ch d1 d2)) ↔ st = p :=
  (evRow_holds_iff_eq _ (by decide) (Laws.EncodedRow.status_row ..)).trans (by simp [evWord_inj])

theorem velocityRow_holds_iff (p : BitVec 4) (v : Data7) :
    (evRow 0xF080FF (evWord p 0 0 v).toNat).holds (.ev (evWord st ch d1 d2)) ↔ st = p ∧ d2 = v :=
  (evRow_holds_iff_eq _ (by decide) (Laws.EncodedRow.velocity_row ..)).trans (by simp [evWord_inj])

theorem controllerRow_holds_iff (p : BitVec 4) (c : Data7) :
    (evRow 0xF0FF80 (evWord p 0 c 0).toNat).holds (.ev (evWord st ch d1 d2)) ↔ st = p ∧ d1 = c :=
  (evRow_holds_iff_eq _ (by decide) (Laws.EncodedRow.controller_row ..)).trans (by simp [evWord_inj])

/-- R93: the pattern of every row but the last is the word of its fixed fields. -/
theorem eventRows_eq : eventRows =
    [evRow 0xF08080 (evWord 0x9 0 0 0).toNat, evRow 0xF080FF (evWord 0x9 0 0 0).toNat,
      evRow 0xF08080 (evWord 0x8 0 0 0).toNat, evRow 0xF0FF80 (evWord 0xB 0 123 0).toNat,
      evRow 0xF08080 (evWord 0xB 0 0 0).toNat, evRow 0xF08080 (evWord 0xA 0 0 0).toNat,
      evRow 0xF08080 (evWord 0xC 0 0 0).toNat, evRow 0xF08080 (evWord 0xD 0 0 0).toNat,
      evRow 0xF08080 (evWord 0xE 0 0 0).toNat, evRow 0xF08080 (evWord 0xF 0 0 0).toNat,
      evRow 0x808080 0x000000] := by decide

variable {st ch d1 d2}

/-- R94: the rows that can match a word: the row of its status, the row of a sub-test that holds, and the last row. -/
theorem eventRow_cases {r : Row} (hr : r ∈ eventRows) (h : r.holds (.ev (evWord st ch d1 d2))) :
    (r = evRow 0xF08080 (evWord st 0 0 0).toNat ∧ 8 ≤ st.toNat) ∨
      (r = evRow 0xF080FF 0x900000 ∧ st = 0x9 ∧ d2 = 0) ∨
      (r = evRow 0xF0FF80 0xB07B00 ∧ st = 0xB ∧ d1 = 123) ∨
      r = evRow 0x808080 0x000000 := by
  have hstatus (p : BitVec 4) (hp : 8 ≤ p.toNat)
      (hs : (evRow 0xF08080 (evWord p 0 0 0).toNat).holds (.ev (evWord st ch d1 d2))) :
      evRow 0xF08080 (evWord p 0 0 0).toNat = evRow 0xF08080 (evWord st 0 0 0).toNat ∧ 8 ≤ st.toNat := by
    obtain rfl := (statusRow_holds_iff ..).mp hs
    exact ⟨rfl, hp⟩
  simp only [eventRows_eq, List.mem_cons, List.not_mem_nil, or_false] at hr
  rcases hr with rfl | rfl | rfl | rfl | rfl | rfl | rfl | rfl | rfl | rfl | rfl
  · exact .inl (hstatus _ (by decide) h)
  · exact .inr (.inl ⟨rfl, (velocityRow_holds_iff ..).mp h⟩)
  · exact .inl (hstatus _ (by decide) h)
  · exact .inr (.inr (.inl ⟨rfl, (controllerRow_holds_iff ..).mp h⟩))
  · exact .inl (hstatus _ (by decide) h)
  · exact .inl (hstatus _ (by decide) h)
  · exact .inl (hstatus _ (by decide) h)
  · exact .inl (hstatus _ (by decide) h)
  · exact .inl (hstatus _ (by decide) h)
  · exact .inl (hstatus _ (by decide) h)
  · exact .inr (.inr (.inr rfl))

namespace EventOf

theorem rowOf_mem (e : EventOf off w i) : rowOf i ∈ eventRows := by
  cases e <;> simp [rowOf, eventRows]

theorem rowOf_holds (e : EventOf off w i) : (rowOf i).holds (.ev w) := by
  have hwf := e.wellFormed
  cases e with
  | noteOn => exact Laws.EncodedRow.noteOn _ _ _ off hwf
  | noteOnV0 => exact Laws.EncodedRow.noteOnV0 _ _ off hwf
  | noteOff => exact Laws.EncodedRow.noteOff _ _ _ off hwf
  | ccAllNotesOff => exact Laws.EncodedRow.ccAllNotesOff _ _ off hwf
  | ccOther => exact Laws.EncodedRow.ccOther _ _ _ off hwf
  | polyPressure => exact Laws.EncodedRow.polyPressure _ _ _ off hwf
  | programChange => exact Laws.EncodedRow.programChange _ _ _ off hwf
  | channelPressure => exact Laws.EncodedRow.channelPressure _ _ _ off hwf
  | pitchBend => exact Laws.EncodedRow.pitchBend _ _ _ off hwf
  | system => exact Laws.EncodedRow.system _ _ _ off hwf
  | notAStatus => exact Laws.EncodedRow.notAStatus _ _ _ _ off hwf

/-- R94: the event's row fixes more bits than every other row that matches. -/
theorem rowOf_best (e : EventOf off w i) {r : Row} (hr : r ∈ eventRows) (h : r.holds (.ev w)) (hne : r ≠ rowOf i) :
    r.fixedBits < (rowOf i).fixedBits := by
  cases e with
  | noteOn _ _ _ hv =>
    dsimp only [rowOf] at hne ⊢
    rcases eventRow_cases hr h with ⟨rfl, -⟩ | ⟨-, -, hv'⟩ | ⟨-, hst, -⟩ | rfl
    · exact absurd (by decide) hne
    · exact absurd hv' hv
    · exact absurd hst (by decide)
    · decide
  | ccOther _ _ _ hc =>
    dsimp only [rowOf] at hne ⊢
    rcases eventRow_cases hr h with ⟨rfl, -⟩ | ⟨-, hst, -⟩ | ⟨-, -, hc'⟩ | rfl
    · exact absurd (by decide) hne
    · exact absurd hst (by decide)
    · exact absurd hc' hc
    · decide
  | noteOnV0 =>
    dsimp only [rowOf] at hne ⊢
    rcases eventRow_cases hr h with ⟨rfl, -⟩ | ⟨rfl, -⟩ | ⟨-, hst, -⟩ | rfl
    · decide
    · exact absurd rfl hne
    · exact absurd hst (by decide)
    · decide
  | ccAllNotesOff =>
    dsimp only [rowOf] at hne ⊢
    rcases eventRow_cases hr h with ⟨rfl, -⟩ | ⟨-, hst, -⟩ | ⟨rfl, -⟩ | rfl
    · decide
    · exact absurd hst (by decide)
    · exact absurd rfl hne
    · decide
  | notAStatus low =>
    dsimp only [rowOf] at hne ⊢
    rcases eventRow_cases hr h with ⟨-, hst⟩ | ⟨-, hst, -⟩ | ⟨-, hst, -⟩ | rfl
    · exact absurd rfl (setWidth_ne_status low hst)
    · exact absurd hst (setWidth_ne_status low (by decide))
    · exact absurd hst (setWidth_ne_status low (by decide))
    · exact absurd rfl hne
  | noteOff | polyPressure | programChange | channelPressure | pitchBend | system =>
    dsimp only [rowOf] at hne ⊢
    rcases eventRow_cases hr h with ⟨rfl, -⟩ | ⟨-, hst, -⟩ | ⟨-, hst, -⟩ | rfl
    · exact absurd (by decide) hne
    · exact absurd hst (by decide)
    · exact absurd hst (by decide)
    · decide

/-- R94: under status `0x9` the test is `data2 = 0`. -/
theorem note_iff (e : EventOf off w i) (h : evStatus w = 0x9) :
    (i = .noteOnV0 (evChannel w) (evData1 w) off ↔ evData2 w = 0) ∧
      (i = .noteOn (evChannel w) (evData1 w) (evData2 w) off ↔ evData2 w ≠ 0) := by
  rw [← e.decodeEvent_eq, decodeEvent]
  by_cases h0 : evData2 w = 0 <;> simp [h, h0]

/-- R94: under status `0xB` the test is `data1 = 123`. -/
theorem controller_iff (e : EventOf off w i) (h : evStatus w = 0xB) :
    (i = .ccAllNotesOff (evChannel w) (evData2 w) off ↔ evData1 w = 123) ∧
      (i = .ccOther (evChannel w) (evData1 w) (evData2 w) off ↔ evData1 w ≠ 123) := by
  rw [← e.decodeEvent_eq, decodeEvent]
  by_cases h123 : evData1 w = 123 <;> simp [h, h123]

end EventOf

/-- Settles O2: the event that the word stands for, its row, and the two tests. -/
theorem eventWordDecodesToExactlyOneRow : Obligations.EventWordDecodesToExactlyOneRow := by
  intro w off during h15 h7
  obtain ⟨i, e⟩ := exists_eventOf off h15 h7
  have hd : decodeEv w [idxSlot off] = .ok i := decodeEv_eq_ok_iff.mpr (by simpa using e)
  exact ⟨i, hd, e.rowOf_mem, e.rowOf_holds, fun r => e.rowOf_best, e.note_iff, e.controller_iff⟩

end Sys2Proof
end

section
/-! SUPPORT. The decoder's answers over all three formats: what it inverts, what it turns away, and what it keeps of an
instruction's operands. -/

namespace Sys2Proof

/-! ### Decoding what the encoder writes -/

theorem decode_evItem {st ch : BitVec 4} {d1 d2 : Data7} {off : Idx} {i : Instr}
    (e : EventOf off (evWord st ch d1 d2) i) : decode (evItem st ch d1 d2 off) = .ok i :=
  decodeEv_eq_ok_iff.mpr (by simpa [evItem] using e)

/-- The case split over the rows. An operand that is a slot whole is read back by computing; the others by the laws of
their slots. -/
theorem decode_encode {i : Instr} (h : i.wellFormed = true) : decode (encode i) = .ok i := by
  cases i with
  | noteOn => exact decode_evItem (.noteOn _ _ _ (by simpa [Instr.wellFormed] using h))
  | noteOnV0 => exact decode_evItem (.noteOnV0 ..)
  | noteOff => exact decode_evItem (.noteOff ..)
  | ccAllNotesOff => exact decode_evItem (.ccAllNotesOff ..)
  | ccOther => exact decode_evItem (.ccOther _ _ _ (by simpa [Instr.wellFormed] using h))
  | polyPressure => exact decode_evItem (.polyPressure ..)
  | programChange => exact decode_evItem (.programChange ..)
  | channelPressure => exact decode_evItem (.channelPressure ..)
  | pitchBend => exact decode_evItem (.pitchBend ..)
  | system => exact decode_evItem (.system ..)
  | notAStatus => exact decode_evItem (.notAStatus ..)
  | setbs | enq => simp [encode, decode, hcItem, decodeHc]
  | render n ws =>
    have hws : slotWrites n (writeSlots ws) = ws := slotWrites_writeSlots h
    simp [encode, decode, hcItem, decodeHc, hws]
  | voiceProcess => simp [encode, decode, uopItem, decodeUop, uopOf, uopProcess]
  | voiceSetEnvelopeEnabled b | voiceSetGlobalBypass b => cases b <;> rfl
  | schCopyChannels n =>
    exact congrArg (fun k => Except.ok (Instr.schCopyChannels k)) (slotIdx_idxSlot n)
  | _ => rfl

/-- Settles O1: every row's case is in `decode_encode`. -/
theorem decodeOfEncodeIsTheInstruction : Obligations.DecodeOfEncodeIsTheInstruction :=
  fun _ => decode_encode

/-! ### The rows of the parameters and of the selectors (R98, R103) -/

/-- What a table of rows gives for a key is one of its rows, applied to the operand. -/
theorem mem_of_lookup_map {α β γ : Type} [BEq α] [LawfulBEq α] {rows : List (α × β)} {k : α} {g : β → γ} {c : γ}
    (h : (rows.lookup k).map g = some c) : ∃ b, (k, b) ∈ rows ∧ g b = c := by
  obtain ⟨b, hb, hc⟩ := Option.map_eq_some_iff.mp h
  obtain ⟨_, _, hrows, -⟩ := List.lookup_eq_some_iff.mp hb
  exact ⟨b, by simp [hrows], hc⟩

variable {ops : List Slot} {i : Instr}

/-- R98: every parameter has an id below 10. -/
theorem setpOf_eq_none {id : BitVec 8} (h : 10 ≤ id.toNat) (x : Num64) : setpOf id x = none := by
  have hids : ∀ p ∈ setpRows, p.1.toNat < 10 := by decide
  by_contra hsome
  obtain ⟨i, hi⟩ := Option.ne_none_iff_exists'.mp hsome
  obtain ⟨f, hf, -⟩ := mem_of_lookup_map hi
  exact absurd (hids _ hf) (Nat.not_lt.mpr h)

theorem wellFormed_of_setpOf {id : BitVec 8} {x : Num64} (h : setpOf id x = some i) : i.wellFormed = true := by
  have hrows : ∀ p ∈ setpRows, ∀ x, (p.2 x).wellFormed = true := by simp [setpRows, Instr.wellFormed]
  obtain ⟨f, hf, rfl⟩ := mem_of_lookup_map h
  exact hrows _ hf x

/-- R103: the operation read for a selector has the selector's row. -/
theorem rowOf_of_uopOf {w : BitVec 8} (h : uopOf w ops = some i) : rowOf i = uopRow w.toNat := by
  have hplain : ∀ p ∈ uopPlainRows, rowOf p.2 = uopRow p.1.toNat := by decide
  have hnum : ∀ p ∈ uopNumRows, ∀ x, rowOf (p.2 x) = uopRow p.1.toNat := by simp [uopNumRows, rowOf]
  have hflag : ∀ p ∈ uopFlagRows, ∀ b, rowOf (p.2 b) = uopRow p.1.toNat := by simp [uopFlagRows, rowOf]
  have hidx : ∀ p ∈ uopIdxRows, ∀ n, rowOf (p.2 n) = uopRow p.1.toNat := by simp [uopIdxRows, rowOf]
  unfold uopOf at h
  split at h
  · subst w; cases h; rfl
  · simp only [Option.or_eq_some_iff] at h
    rcases h with h | ⟨-, h | ⟨-, h | ⟨-, h⟩⟩⟩
    · obtain ⟨j, hj, rfl⟩ := mem_of_lookup_map (g := id) (by simpa using h)
      exact hplain _ hj
    · obtain ⟨f, hf, rfl⟩ := mem_of_lookup_map h
      exact hnum _ hf _
    · obtain ⟨f, hf, rfl⟩ := mem_of_lookup_map h
      exact hflag _ hf _
    · obtain ⟨f, hf, rfl⟩ := mem_of_lookup_map h
      exact hidx _ hf _

/-- A selector's operation promises nothing of its operands. -/
theorem wellFormed_of_uopRow {n : Nat} (h : rowOf i = uopRow n) : i.wellFormed = true := by
  cases i with
  | noteOn | ccOther | render => cases h
  | _ => rfl

/-! ### Decoded instructions are well formed -/

theorem decodeHc_wellFormed {w : BitVec 16} (h : decodeHc w ops = .ok i) : i.wellFormed = true := by
  unfold decodeHc at h
  simp only at h
  split at h
  · split at h
    · cases h; exact wellFormed_of_setpOf ‹_›
    · cases h
  split at h
  · cases h
  split at h
  · cases h; rfl
  split at h
  · cases h; rfl
  split at h
  · cases h; rfl
  split at h
  · cases h; exact wellFormedWrites_slotWrites _ _
  split at h
  · cases h; rfl
  · cases h

theorem decodeUop_wellFormed {w : BitVec 8} (h : decodeUop w ops = .ok i) : i.wellFormed = true := by
  unfold decodeUop at h
  split at h
  · cases h; exact wellFormed_of_uopRow (rowOf_of_uopOf ‹_›)
  · cases h

/-- Settles O6, format by format. -/
theorem decodedInstructionsAreWellFormed : Obligations.DecodedInstructionsAreWellFormed := by
  rintro ⟨word, ops, during⟩ i h
  cases word with
  | ev w => exact (decodeEv_eq_ok_iff.mp h).wellFormed
  | hc w => exact decodeHc_wellFormed h
  | uop w => exact decodeUop_wellFormed h

/-! ### Words of no row (R95, R104) -/

/-- R104: a code that is no command's, or a `sub` that the command does not have. -/
theorem decodeHc_badCommand {w : BitVec 16}
    (h : ¬(1 ≤ (hcCmd w).toNat ∧ (hcCmd w).toNat ≤ 6) ∨ (hcCmd w ≠ 0x04 ∧ hcSub w ≠ 0)) :
    decodeHc w ops = .error (.badCommand w) := by
  rcases h with hcmd | ⟨hsetp, hsub⟩
  · have hne (c : BitVec 8) (hc : 1 ≤ c.toNat ∧ c.toNat ≤ 6) : hcCmd w ≠ c := fun he => hcmd (he ▸ hc)
    simp [decodeHc, hne]
  · simp only [decodeHc, if_neg hsetp, if_pos hsub]

/-- R104: a `SETP` of an id that no parameter has. -/
theorem decodeHc_badParameterId {w : BitVec 16} (hcmd : hcCmd w = 0x04) (hid : 10 ≤ (hcSub w).toNat) :
    decodeHc w ops = .error (.badParameterId (hcSub w)) := by
  simp [decodeHc, hcmd, setpOf_eq_none hid]

/-- R104: a selector that is no operation's. -/
theorem decodeUop_noSuchOperation {w : BitVec 8} (h : ∀ i : Instr, rowOf i ≠ uopRow w.toNat) :
    decodeUop w ops = .error (.noSuchOperation w) := by
  unfold decodeUop
  split
  · exact absurd (rowOf_of_uopOf ‹_›) (h _)
  · rfl

/-- R95: a word with a reserved bit set. -/
theorem decodeEv_malformed {w : BitVec 24} (h : evReserved15 w = true ∨ evReserved7 w = true) :
    decodeEv w ops = .error (.malformedEvent w) :=
  if_pos (by simpa using h)

/-- A word of a row is read whatever its slots hold: only an event's offset and a command's operands come from them. -/
theorem decode_row_word (hi : i.wellFormed = true) (ops : List Slot) (during : Bool) :
    ∃ j, decode { word := (encode i).word, operands := ops, during := during } = .ok j ∧ rowOf j = rowOf i := by
  cases i with
  | noteOn => exact ⟨_, decodeEv_eq_ok_iff.mpr (.noteOn _ _ _ (by simpa [Instr.wellFormed] using hi)), rfl⟩
  | noteOnV0 => exact ⟨_, decodeEv_eq_ok_iff.mpr (.noteOnV0 ..), rfl⟩
  | noteOff => exact ⟨_, decodeEv_eq_ok_iff.mpr (.noteOff ..), rfl⟩
  | ccAllNotesOff => exact ⟨_, decodeEv_eq_ok_iff.mpr (.ccAllNotesOff ..), rfl⟩
  | ccOther => exact ⟨_, decodeEv_eq_ok_iff.mpr (.ccOther _ _ _ (by simpa [Instr.wellFormed] using hi)), rfl⟩
  | polyPressure => exact ⟨_, decodeEv_eq_ok_iff.mpr (.polyPressure ..), rfl⟩
  | programChange => exact ⟨_, decodeEv_eq_ok_iff.mpr (.programChange ..), rfl⟩
  | channelPressure => exact ⟨_, decodeEv_eq_ok_iff.mpr (.channelPressure ..), rfl⟩
  | pitchBend => exact ⟨_, decodeEv_eq_ok_iff.mpr (.pitchBend ..), rfl⟩
  | system => exact ⟨_, decodeEv_eq_ok_iff.mpr (.system ..), rfl⟩
  | notAStatus => exact ⟨_, decodeEv_eq_ok_iff.mpr (.notAStatus ..), rfl⟩
  | _ => exact ⟨_, rfl, rfl⟩

/-- Settles O3: the decoder's error is the step's answer. -/
theorem wordsOutsideTheTableAreRejected : Obligations.WordsOutsideTheTableAreRejected := by
  rintro s ⟨word, ops, during⟩ rest hf hp
  refine ⟨?_, ?_, ?_, ?_, ?_⟩
  · rintro w rfl h
    exact Machine.step_of_decode_error hf hp (decodeHc_badCommand h)
  · rintro w rfl hcmd hid
    exact Machine.step_of_decode_error hf hp (decodeHc_badParameterId hcmd hid)
  · rintro w rfl h
    exact Machine.step_of_decode_error hf hp (decodeEv_malformed h)
  · rintro w rfl h
    exact Machine.step_of_decode_error hf hp (decodeUop_noSuchOperation h)
  · rintro i hi rfl
    exact decode_row_word hi ops during

/-- Settles O4: each word is closed, and the decoder is run on it. -/
theorem sampleWordsDecode : Obligations.SampleWordsDecode := by
  exact ⟨rfl, rfl, rfl, rfl, rfl, rfl, rfl, rfl, rfl, rfl, rfl, rfl, rfl, rfl, rfl⟩

end Sys2Proof
end

section
/-! SUPPORT. The record `ENQ` pushes (R92, R227). -/

namespace Sys2Proof.Machine

/-! ### The fields of an event word as numbers (R91) -/

theorem evStatus_toNat (w : BitVec 24) : (evStatus w).toNat = w.toNat / 2 ^ 20 := by
  have hw := w.isLt
  rw [evStatus, BitVec.extractLsb'_toNat, Nat.shiftRight_eq_div_pow, Nat.mod_eq_of_lt (by omega)]

theorem evData1_toNat (w : BitVec 24) : (evData1 w).toNat = w.toNat / 2 ^ 8 % 2 ^ 7 := by
  rw [evData1, BitVec.extractLsb'_toNat, Nat.shiftRight_eq_div_pow]

theorem evData2_toNat (w : BitVec 24) : (evData2 w).toNat = w.toNat % 2 ^ 7 := by
  rw [evData2, BitVec.extractLsb'_toNat, Nat.shiftRight_zero]

/-- R227: an offset that is not below the last queued one keeps the order. -/
theorem breaksOrder_eq_false {q : Queue} {off : Idx}
    (h : ∀ last, q.recs.getLast? = some last → last.off.toNat ≤ off.toNat) : breaksOrder q off = false := by
  unfold breaksOrder queueTailOff
  cases hl : q.recs.getLast? with
  | none => rfl
  | some last => simpa using h last hl

/-- R227: an `ENQ` that passes every check pushes its record. -/
theorem execEnq_pushes {ev : BitVec 24} {off : Idx} {s : State} (hd : s.port.during = false)
    (hb : s.cfg.bsSet = true) (hm : isMalformed ev = false) (ho : off.toNat < s.sch.blockSize.toNat)
    (hord : breaksOrder s.q off = false) (hroom : s.q.recs.length < s.q.cap.toNat) :
    execEnq ev off s = .next { s with q := queuePush s.q (recordOf ev off) } := by
  simp [execEnq, betweenRenders, hd, hb, hm, hord, Nat.not_le.mpr ho, Nat.not_le.mpr hroom]

/-- Settles O43: the checks pass, and the record's fields are the word's. -/
theorem queuedRecordHasTheFieldsOfItsWord : Obligations.QueuedRecordHasTheFieldsOfItsWord := by
  intro ev off s hd hb h15 h7 ho hlast hroom
  have hm : isMalformed ev = false := by simp [isMalformed, h15, h7]
  exact ⟨recordOf ev off, execEnq_pushes hd hb hm ho (breaksOrder_eq_false hlast) hroom, evStatus_toNat ev,
    evData1_toNat ev, evData2_toNat ev, rfl⟩

end Sys2Proof.Machine
end

section
/-! SUPPORT. Rounding to nearest, ties to even (R125): how far a rounded value is from the exact one, and where it is
finite. -/

namespace Sys2Proof.Machine

open Sys2Proof.Safety

/-! ### The integer nearest to a quotient -/

/-- It is at most half the divisor away, and even where it is exactly half away. -/
theorem divNearest_half {b : Nat} (hb : 0 < b) (a : Nat) :
    2 * |(divNearest a b : Int) * b - a| ≤ b ∧
      (2 * |(divNearest a b : Int) * b - a| = b → divNearest a b % 2 = 0) := by
  have hr := Nat.mod_lt a hb
  have hdown : ((a / b : Nat) : Int) * b - a = -(a % b : Nat) := by
    have hdiv : ((a / b * b + a % b : Nat) : Int) = a := by rw [Nat.div_add_mod']
    rw [Nat.cast_add, Nat.cast_mul] at hdiv
    omega
  have hup : ((a / b + 1 : Nat) : Int) * b - a = (b - a % b : Nat) := by
    rw [Nat.cast_succ, add_one_mul, add_sub_right_comm, hdown]
    omega
  rcases divNearest_cases a b with ⟨hlt, hq⟩ | ⟨hgt, hq⟩ | ⟨heq, hq⟩
  · rw [hq, hdown, abs_neg, Nat.abs_cast]
    omega
  · rw [hq, hup, Nat.abs_cast]
    omega
  · refine ⟨?_, fun _ => by omega⟩
    rcases Nat.mod_two_eq_zero_or_one (a / b) with h | h
    · rw [hq, h, Nat.add_zero, hdown, abs_neg, Nat.abs_cast]
      omega
    · rw [hq, h, hup, Nat.abs_cast]
      omega

/-- No integer is nearer, and it is even where another is as near: any other is a divisor away from it. -/
theorem divNearest_nearest {b : Nat} (hb : 0 < b) (a : Nat) (k : Int) :
    |(divNearest a b : Int) * b - a| ≤ |k * b - a| ∧
      (k ≠ divNearest a b → |(divNearest a b : Int) * b - a| = |k * b - a| → divNearest a b % 2 = 0) := by
  obtain ⟨hhalf, htie⟩ := divNearest_half hb a
  rcases eq_or_ne k (divNearest a b) with rfl | hk
  · exact ⟨le_rfl, fun h => absurd rfl h⟩
  · have hapart : (b : Int) ≤ |(k * b - a) - (divNearest a b * b - a)| := by
      have hone : 1 ≤ |k - divNearest a b| := Int.one_le_abs (sub_ne_zero.mpr hk)
      calc (b : Int) ≤ |k - divNearest a b| * b := le_mul_of_one_le_left (by omega) hone
        _ = |(k * b - a) - (divNearest a b * b - a)| := by
          rw [← abs_of_nonneg (Int.natCast_nonneg b), ← abs_mul, abs_of_nonneg (Int.natCast_nonneg b)]
          congr 1; ring
    have htri := abs_sub (k * b - a) (divNearest a b * b - a : Int)
    exact ⟨by omega, fun _ he => htie (by omega)⟩

/-- Where a quotient is rounded to `2 ^ 53` or more. -/
theorem divNearest_lt_iff {a c : Nat} (hc : 0 < c) : divNearest a (c * 2) < 2 ^ 53 ↔ a < (2 ^ 54 - 1) * c := by
  refine ⟨fun h => ?_, divNearest_lt_of_lt⟩
  by_contra hge
  have hdiv := Nat.div_add_mod a (c * 2)
  have hq : 2 ^ 53 - 1 ≤ a / (c * 2) := by
    rw [Nat.le_div_iff_mul_le (by omega)]
    omega
  rcases Nat.lt_or_eq_of_le hq with hlt | heq
  · rcases divNearest_cases a (c * 2) with ⟨-, hr⟩ | ⟨-, hr⟩ | ⟨-, hr⟩ <;> omega
  · -- all 53 bits are set, and the rest is one half or more
    rw [← heq] at hdiv
    rcases divNearest_cases a (c * 2) with ⟨hr, -⟩ | ⟨-, hr⟩ | ⟨-, hr⟩
    · omega
    · omega
    · rw [← heq] at hr; omega

/-! ### The rounded magnitude -/

/-- R125: a quotient of units is rounded to a finite number exactly below half a last place beyond the largest one. -/
theorem roundMag_lt_infMag_iff {a b : Nat} (hb : 0 < b) :
    roundMag a b < infMag ↔ a < (2 ^ 54 - 1) * 2 ^ 2044 * b := by
  obtain ⟨hle, hge⟩ := divNearest_bounds a b
  obtain ⟨hlt, hfull⟩ := placesDropped_spec (a / b)
  have hsum : roundMag a b < infMag ↔
      placesDropped (a / b) * 2 ^ 52 + divNearest a (b * 2 ^ placesDropped (a / b)) < infMag := by
    rw [roundMag, min_lt_iff]
    simp
  rw [hsum]
  generalize placesDropped (a / b) = s at *
  rw [Nat.div_lt_iff_lt_mul hb] at hlt
  rw [Nat.le_div_iff_mul_le hb] at hfull
  unfold infMag
  generalize ht : 2044 = t
  rcases Nat.lt_trichotomy s (t + 1) with hs | rfl | hs
  · have hpow : 2 ^ (s + 53) ≤ 2 ^ (53 + t) := Nat.pow_le_pow_right (by decide) (by omega)
    rw [Nat.pow_add 2 53] at hpow
    have ha : a < (2 ^ 54 - 1) * 2 ^ t * b :=
      hlt.trans_le (Nat.mul_le_mul_right b (hpow.trans (Nat.mul_le_mul_right _ (by decide))))
    exact iff_of_true (by omega) ha
  · rw [show b * 2 ^ (t + 1) = 2 ^ t * b * 2 by ring, Nat.mul_assoc (2 ^ 54 - 1),
      ← divNearest_lt_iff (Nat.mul_pos (Nat.two_pow_pos t) hb)]
    omega
  · have hpow : 2 ^ (54 + t) ≤ 2 ^ (s + 52) := Nat.pow_le_pow_right (by decide) (by omega)
    rw [Nat.pow_add 2 54] at hpow
    have ha : (2 ^ 54 - 1) * 2 ^ t * b ≤ a :=
      (Nat.mul_le_mul_right b ((Nat.mul_le_mul_right _ (by decide)).trans hpow)).trans (hfull.resolve_left (by omega))
    exact iff_of_false (by omega) (Nat.not_lt.mpr ha)

/-- The values of the format from the place `s` on are whole at that place; the others are below `2 ^ 52` there. -/
theorem unitsMag_dvd_or_lt (m s : Nat) : 2 ^ s ∣ unitsMag m ∨ unitsMag m < 2 ^ 52 * 2 ^ s := by
  unfold unitsMag
  split
  · exact .inr (Nat.lt_of_lt_of_le (Nat.mod_lt _ (by decide)) (Nat.le_mul_of_pos_right _ (Nat.two_pow_pos s)))
  · rcases Nat.lt_or_ge (m / 2 ^ 52 - 1) s with h | h
    · right
      calc (2 ^ 52 + m % 2 ^ 52) * 2 ^ (m / 2 ^ 52 - 1) < 2 ^ 53 * 2 ^ (m / 2 ^ 52 - 1) :=
            Nat.mul_lt_mul_of_pos_right (by omega) (Nat.two_pow_pos _)
        _ = 2 ^ 52 * 2 ^ (m / 2 ^ 52 - 1 + 1) := by rw [Nat.pow_succ _ (m / 2 ^ 52 - 1)]; ring
        _ ≤ 2 ^ 52 * 2 ^ s := Nat.mul_le_mul_left _ (Nat.pow_le_pow_right (by decide) h)
    · exact .inl ((Nat.pow_dvd_pow 2 h).mul_left _)

/-- Below a number, the smaller of two is farther from it. -/
theorem abs_sub_lt_abs_sub {u v a : Nat} (huv : u < v) (hva : v ≤ a) : |(v : Int) - a| < |(u : Int) - a| := by
  rw [abs_of_nonpos (by omega), abs_of_nonpos (by omega)]
  omega

/-- R125: no value of the format is nearer to a quotient than the rounded one, which is even in its last place where
another is as near. -/
theorem roundMag_nearest {a b : Nat} (hb : 0 < b) (hfin : roundMag a b < infMag) (m : Nat) :
    |(unitsMag (roundMag a b) : Int) * b - a| ≤ |(unitsMag m : Int) * b - a| ∧
      (unitsMag m ≠ unitsMag (roundMag a b) →
        |(unitsMag (roundMag a b) : Int) * b - a| = |(unitsMag m : Int) * b - a| → roundMag a b % 2 = 0) := by
  have hval := unitsMag_roundMag hfin
  have hlast : roundMag a b % 2 = divNearest a (b * 2 ^ placesDropped (a / b)) % 2 := by
    unfold roundMag at hfin ⊢
    simp only at hfin ⊢
    omega
  obtain ⟨-, hfull⟩ := placesDropped_spec (a / b)
  rw [Nat.le_div_iff_mul_le hb] at hfull
  rw [hval, hlast]
  generalize placesDropped (a / b) = s at *
  have hB : 0 < b * 2 ^ s := Nat.mul_pos hb (Nat.two_pow_pos s)
  have hscale (k : Nat) : ((k * 2 ^ s : Nat) : Int) * b = k * (b * 2 ^ s : Nat) := by push_cast; ring
  rw [hscale]
  by_cases hd : 2 ^ s ∣ unitsMag m
  · -- a value that is whole at the place of the rounded one
    obtain ⟨k, hk⟩ := hd
    obtain ⟨hle, htie⟩ := divNearest_nearest hB a k
    rw [hk, Nat.mul_comm (2 ^ s) k, hscale]
    exact ⟨hle, fun hne => htie fun h => hne (by rw [Int.natCast_inj.mp h])⟩
  · -- a value below that place is farther away than the smallest significand of 53 bits
    have hlow : unitsMag m * b < 2 ^ 52 * (b * 2 ^ s) := by
      rw [Nat.mul_left_comm, Nat.mul_comm]
      exact Nat.mul_lt_mul_of_pos_left ((unitsMag_dvd_or_lt m s).resolve_left hd) hb
    have hexact : 2 ^ 52 * (b * 2 ^ s) ≤ a := by
      have hs : s ≠ 0 := by rintro rfl; exact hd (one_dvd _)
      calc 2 ^ 52 * (b * 2 ^ s) = 2 ^ (s + 52) * b := by ring
        _ ≤ a := hfull.resolve_left hs
    have hfar : |((2 ^ 52 : Nat) : Int) * (b * 2 ^ s : Nat) - a| < |(unitsMag m : Int) * b - a| := by
      rw [← Nat.cast_mul, ← Nat.cast_mul]
      exact abs_sub_lt_abs_sub hlow hexact
    have hlt := (divNearest_nearest hB a (2 ^ 52 : Nat)).1.trans_lt hfar
    exact ⟨hlt.le, fun _ he => absurd he hlt.ne⟩

/-! ### The rounded number -/

/-- R125: the magnitude that rounding gives makes no NaN. -/
theorem isNaN_ofMag_roundMag (neg : Bool) (a b : Nat) : isNaN (ofMag neg (roundMag a b)) = false :=
  isNaN_ofMag_of_le neg (roundMag_le a b)

theorem isFinite_ofMag_roundMag (neg : Bool) (a b : Nat) :
    isFinite (ofMag neg (roundMag a b)) = true ↔ roundMag a b < infMag := by
  rw [isFinite_iff, magOf_ofMag neg (roundMag_lt a b)]

theorem fneg_ofMag (neg : Bool) {m : Nat} (h : m < 2 ^ 63) : fneg (ofMag neg m) = ofMag (!neg) m :=
  eq_of_parts (by rw [signOf_fneg, signOf_ofMag neg h, signOf_ofMag _ h])
    (by rw [magOf_fneg, magOf_ofMag neg h, magOf_ofMag _ h])

theorem fneg_fneg (x : Num64) : fneg (fneg x) = x :=
  eq_of_parts (by rw [signOf_fneg, signOf_fneg, Bool.not_not]) (by rw [magOf_fneg, magOf_fneg])

/-- Rounding to nearest is the same on both sides of zero. -/
theorem roundedFrom_fneg {exact : Int} {b : Nat} {z : Num64} (h : roundedFrom exact b z) :
    roundedFrom (-exact) b (fneg z) := by
  obtain ⟨hn, hf, hnear⟩ := h
  refine ⟨by rw [isNaN_fneg, hn], by rw [isFinite_fneg, abs_neg, hf], fun hz w hw => ?_⟩
  rw [isFinite_fneg] at hz
  obtain ⟨hle, htie⟩ := hnear hz (fneg w) (by rw [isFinite_fneg, hw])
  have hflip (v : Int) : |-v * b - -exact| = |v * b - exact| := by rw [← abs_neg]; congr 1; ring
  have hw' : |valueOf w * b - -exact| = |valueOf (fneg w) * b - exact| := by
    rw [← hflip, valueOf_fneg, neg_neg]
  have hlast : fracField (fneg z) = fracField z := by rw [fracField_eq, fracField_eq, magOf_fneg]
  rw [valueOf_fneg z, hflip, hw', hlast]
  refine ⟨hle, fun hne => htie fun h => hne ?_⟩
  rw [← h, valueOf_fneg, neg_neg]

/-- R125: the rounded quotient of naturals, as a positive number. A number of the other sign is no nearer than zero. -/
theorem roundedFrom_pos {b : Nat} (hb : 0 < b) (a : Nat) : roundedFrom a b (ofMag false (roundMag a b)) := by
  refine ⟨isNaN_ofMag_roundMag .., ?_, fun hz w _ => ?_⟩
  · have hcast (u : Nat) : ((2 ^ 54 - 1) * 2 ^ u * b : Int) = ((2 ^ 54 - 1) * 2 ^ u * b : Nat) := by norm_num
    rw [isFinite_ofMag_roundMag, roundMag_lt_infMag_iff hb, Nat.abs_cast, hcast, Nat.cast_lt]
  · have hfin := (isFinite_ofMag_roundMag ..).mp hz
    have hlast : fracField (ofMag false (roundMag a b)) % 2 = roundMag a b % 2 := by
      rw [fracField_eq, magOf_ofMag _ (roundMag_lt a b)]
      omega
    have hval : valueOf (ofMag false (roundMag a b)) = unitsMag (roundMag a b) := valueOf_ofMag _ (roundMag_lt a b)
    rw [hlast, hval]
    rcases le_or_gt 0 (valueOf w) with h0 | h0
    · obtain ⟨hle, htie⟩ := roundMag_nearest hb hfin (magOf w)
      rw [valueOf_eq_of_nonneg h0]
      exact ⟨hle, fun hne => htie fun h => hne (congrArg _ h)⟩
    · have hzero := (roundMag_nearest hb hfin 0).1
      have hneg : valueOf w * b < 0 := mul_neg_of_neg_of_pos h0 (by exact_mod_cast hb)
      have hfar : |((unitsMag 0 : Nat) : Int) * b - a| < |valueOf w * b - a| := by
        rw [unitsMag_zero, Nat.cast_zero, zero_mul, abs_of_nonpos (by omega), abs_of_neg (by omega)]
        omega
      have hlt := hzero.trans_lt hfar
      exact ⟨hlt.le, fun _ he => absurd he hlt.ne⟩

/-- R125: a sign and a rounded magnitude are the rounded number, where the sign is that of the exact value. -/
theorem roundedFrom_ofMag {neg : Bool} {exact : Int} {b : Nat} (hb : 0 < b) (hpos : neg = false → 0 ≤ exact)
    (hneg : neg = true → exact ≤ 0) : roundedFrom exact b (ofMag neg (roundMag exact.natAbs b)) := by
  cases neg with
  | false =>
    have h := roundedFrom_pos hb exact.natAbs
    rwa [Int.natAbs_of_nonneg (hpos rfl)] at h
  | true =>
    have h := roundedFrom_fneg (roundedFrom_pos hb exact.natAbs)
    rwa [fneg_ofMag _ (roundMag_lt ..), Int.ofNat_natAbs_of_nonpos (hneg rfl), neg_neg] at h

end Sys2Proof.Machine
end

section
/-! SUPPORT. The four operations on every pair of operands (R125). -/

namespace Sys2Proof.Machine

open Sys2Proof.Safety

variable {x y : Num64}

/-! ### Infinities and zeros -/

theorem isNaN_of_isInf (h : isInf x = true) : isNaN x = false := by
  rw [isInf_iff] at h
  rw [← Bool.not_eq_true, isNaN_iff]
  omega

@[simp] theorem isInf_fneg (x : Num64) : isInf (fneg x) = isInf x := by
  rw [Bool.eq_iff_iff, isInf_iff, isInf_iff, magOf_fneg]

theorem infMag_lt : infMag < 2 ^ 63 := by decide +kernel

theorem isInf_ofMag_infMag (neg : Bool) : isInf (ofMag neg infMag) = true := by
  rw [isInf_iff, magOf_ofMag neg infMag_lt]

theorem isZero_ofMag_zero (neg : Bool) : isZero (ofMag neg 0) = true := by
  rw [isZero_iff, magOf_ofMag neg (by decide)]

theorem unitsOf_pos (h : isZero x = false) : 0 < unitsOf x := by
  rw [← Bool.not_eq_true, isZero_iff] at h
  rw [unitsOf_eq, ← unitsMag_zero]
  exact unitsMag_strictMono (Nat.pos_of_ne_zero h)

/-! ### Finite operands: rounded once -/

/-- The sign of a product, one factor of which is the value of a number and the other has the sign of a number. -/
theorem valueOf_mul_sign {t : Int} (hpos : signOf y = false → 0 ≤ t) (hneg : signOf y = true → t ≤ 0) :
    ((signOf x != signOf y) = false → 0 ≤ valueOf x * t) ∧ ((signOf x != signOf y) = true → valueOf x * t ≤ 0) := by
  have hx0 : signOf x = false → 0 ≤ valueOf x := fun h => valueOf_nonneg_iff.mpr (.inl h)
  have hx1 : signOf x = true → valueOf x ≤ 0 := fun h => valueOf_nonpos (.inl h)
  constructor <;> intro h
  · have hs : signOf x = signOf y := by simpa using h
    cases hy : signOf y with
    | false => exact mul_nonneg (hx0 (hs.trans hy)) (hpos hy)
    | true => exact mul_nonneg_of_nonpos_of_nonpos (hx1 (hs.trans hy)) (hneg hy)
  · cases hy : signOf y with
    | false => exact mul_nonpos_of_nonpos_of_nonneg (hx1 (by simpa [hy] using h)) (hpos hy)
    | true => exact mul_nonpos_of_nonneg_of_nonpos (hx0 (by simpa [hy] using h)) (hneg hy)

theorem roundedFrom_sumFinite (x y : Num64) : roundedFrom (valueOf x + valueOf y) 1 (sumFinite x y) := by
  unfold sumFinite
  by_cases hz : valueOf x + valueOf y = 0
  · exact roundedFrom_ofMag Nat.one_pos (fun _ => hz.ge) (fun _ => hz.le)
  · simp only [if_neg hz]
    exact roundedFrom_ofMag Nat.one_pos (fun h => not_lt.mp (of_decide_eq_false h)) (fun h => (of_decide_eq_true h).le)

theorem signOf_sumFinite (x y : Num64) :
    signOf (sumFinite x y) =
      if valueOf x + valueOf y = 0 then signOf x && signOf y else decide (valueOf x + valueOf y < 0) :=
  signOf_ofMag _ (roundMag_lt ..)

/-- R125: the product of two finite numbers. -/
theorem fmul_rounded (hx : isFinite x = true) (hy : isFinite y = true) :
    roundedFrom (valueOf x * valueOf y) (2 ^ unitExp) (fmul x y) ∧ signOf (fmul x y) = (signOf x != signOf y) := by
  rw [fmul_finite hx hy]
  refine ⟨?_, signOf_ofMag _ (roundMag_lt ..)⟩
  obtain ⟨hpos, hneg⟩ := valueOf_mul_sign (x := x) (y := y)
    (fun h => valueOf_nonneg_iff.mpr (.inl h)) (fun h => valueOf_nonpos (.inl h))
  have h := roundedFrom_ofMag (Nat.two_pow_pos unitExp) hpos hneg
  rwa [Int.natAbs_mul, natAbs_valueOf, natAbs_valueOf] at h

/-- R125: the quotient of two finite numbers, the divisor not zero. -/
theorem fdiv_rounded (hx : isFinite x = true) (hy : isFinite y = true) (h0 : isZero y = false) :
    roundedFrom (valueOf x * 2 ^ unitExp * Int.sign (valueOf y)) (unitsOf y) (fdiv x y) ∧
      signOf (fdiv x y) = (signOf x != signOf y) := by
  rw [fdiv_finite hx hy h0]
  refine ⟨?_, signOf_ofMag _ (roundMag_lt ..)⟩
  have hu := unitsOf_pos h0
  have hv : valueOf y ≠ 0 := by rw [← Int.natAbs_ne_zero, natAbs_valueOf]; omega
  have hscale : (0 : Int) ≤ 2 ^ unitExp := pow_nonneg (by decide) _
  obtain ⟨hpos, hneg⟩ := valueOf_mul_sign (x := x) (y := y) (t := 2 ^ unitExp * Int.sign (valueOf y))
    (fun h => mul_nonneg hscale (Int.sign_nonneg_iff.mpr (valueOf_nonneg_iff.mpr (.inl h))))
    (fun h => mul_nonpos_of_nonneg_of_nonpos hscale (Int.sign_nonpos_iff.mpr (valueOf_nonpos (.inl h))))
  have h := roundedFrom_ofMag hu hpos hneg
  have habs (u : Nat) : (2 ^ u : Int).natAbs = 2 ^ u := Int.natAbs_pow 2 u
  rwa [Int.natAbs_mul, Int.natAbs_mul, natAbs_valueOf, habs, Int.natAbs_sign_of_ne_zero hv, Nat.mul_one,
    ← mul_assoc] at h

/-! ### NaNs, infinities and zero divisors -/

section
variable (nan : Num64)

theorem sumWith_nan (h : isNaN x = true ∨ isNaN y = true) : sumWith nan x y = nan := by
  have h' : (isNaN x || isNaN y) = true := by simpa using h
  rw [sumWith, if_pos h']

theorem sumWith_inf_left (hx : isInf x = true) (hy : isFinite y = true) : sumWith nan x y = x := by
  simp [sumWith, isNaN_of_isInf hx, isNaN_of_isFinite hy, hx, isInf_of_isFinite hy]

theorem sumWith_inf_right (hx : isFinite x = true) (hy : isInf y = true) : sumWith nan x y = y := by
  simp [sumWith, isNaN_of_isInf hy, isNaN_of_isFinite hx, hy, isInf_of_isFinite hx]

theorem sumWith_inf_inf (hx : isInf x = true) (hy : isInf y = true) :
    sumWith nan x y = if signOf x != signOf y then nan else x := by
  simp [sumWith, isNaN_of_isInf hx, isNaN_of_isInf hy, hx, hy]

end

theorem fmul_nan (h : isNaN x = true ∨ isNaN y = true) : fmul x y = nanOf .mul x y := by
  have h' : (isNaN x || isNaN y) = true := by simpa using h
  simp only [fmul, if_pos h']

theorem fmul_inf (hx : isNaN x = false) (hy : isNaN y = false) (h : isInf x = true ∨ isInf y = true) :
    fmul x y = if isZero x || isZero y then nanOf .mul x y else ofMag (signOf x != signOf y) infMag := by
  have h' : (isInf x || isInf y) = true := by simpa using h
  simp [fmul, hx, hy, h']

theorem fdiv_nan (h : isNaN x = true ∨ isNaN y = true) : fdiv x y = nanOf .div x y := by
  have h' : (isNaN x || isNaN y) = true := by simpa using h
  simp only [fdiv, if_pos h']

theorem fdiv_inf_left (hx : isInf x = true) (hy : isFinite y = true) :
    fdiv x y = ofMag (signOf x != signOf y) infMag := by
  simp [fdiv, isNaN_of_isInf hx, isNaN_of_isFinite hy, hx, isInf_of_isFinite hy]

theorem fdiv_inf_right (hx : isFinite x = true) (hy : isInf y = true) :
    fdiv x y = ofMag (signOf x != signOf y) 0 := by
  simp [fdiv, isNaN_of_isInf hy, isNaN_of_isFinite hx, hy, isInf_of_isFinite hx]

theorem fdiv_inf_inf (hx : isInf x = true) (hy : isInf y = true) : fdiv x y = nanOf .div x y := by
  simp [fdiv, isNaN_of_isInf hx, isNaN_of_isInf hy, hx, hy]

theorem fdiv_zero (hx : isFinite x = true) (hy : isFinite y = true) (h0 : isZero y = true) :
    fdiv x y = if isZero x then nanOf .div x y else ofMag (signOf x != signOf y) infMag := by
  simp [fdiv, isNaN_of_isFinite hx, isNaN_of_isFinite hy, isInf_of_isFinite hx, isInf_of_isFinite hy, h0]

/-! ### The obligation, clause by clause -/

theorem fadd_rounded (hx : isFinite x = true) (hy : isFinite y = true) :
    roundedFrom (valueOf x + valueOf y) 1 (fadd x y) ∧
      signOf (fadd x y) =
        if valueOf x + valueOf y = 0 then signOf x && signOf y else decide (valueOf x + valueOf y < 0) := by
  rw [fadd_finite hx hy]
  exact ⟨roundedFrom_sumFinite x y, signOf_sumFinite x y⟩

theorem fsub_rounded (hx : isFinite x = true) (hy : isFinite y = true) :
    roundedFrom (valueOf x - valueOf y) 1 (fsub x y) ∧
      signOf (fsub x y) =
        if valueOf x - valueOf y = 0 then signOf x && !signOf y else decide (valueOf x - valueOf y < 0) := by
  rw [fsub_finite hx hy, sub_eq_add_neg, ← valueOf_fneg, ← signOf_fneg]
  exact ⟨roundedFrom_sumFinite x (fneg y), signOf_sumFinite x (fneg y)⟩

/-- The infinity of a sign. -/
theorem ofMag_infMag_spec {z : Num64} {neg : Bool} (h : z = ofMag neg infMag) : isInf z = true ∧ signOf z = neg := by
  rw [h]
  exact ⟨isInf_ofMag_infMag neg, signOf_ofMag neg infMag_lt⟩

theorem isNaN_of_eq_nanOf {z : Num64} {op : FpOp} (h : z = nanOf op x y) : isNaN z = true := by
  rw [h]
  exact isNaN_nanOf op x y

/-- Settles O58: finite operands by the rounding of the exact result, the others case by case. -/
theorem arithmeticIsCorrectlyRounded : Obligations.ArithmeticIsCorrectlyRounded := by
  intro x y
  refine ⟨fun hx hy => ⟨fadd_rounded hx hy, fsub_rounded hx hy, fmul_rounded hx hy, fdiv_rounded hx hy, ?_, ?_⟩,
    fun h => ?_, fun hx hy => ?_, fun hx hy => ?_, fun hx hy => ?_, fun hx hy h => ⟨fun h0 => ?_, fun hx0 hy0 => ?_⟩⟩
  · intro hy0 hx0
    exact ofMag_infMag_spec (by rw [fdiv_zero hx hy hy0, hx0]; rfl)
  · intro hy0 hx0
    exact isNaN_of_eq_nanOf (by rw [fdiv_zero hx hy hy0, hx0]; rfl)
  · exact ⟨isNaN_of_eq_nanOf (sumWith_nan _ h), isNaN_of_eq_nanOf (sumWith_nan _ (by rwa [isNaN_fneg])),
      isNaN_of_eq_nanOf (fmul_nan h), isNaN_of_eq_nanOf (fdiv_nan h)⟩
  · exact ⟨sumWith_inf_left _ hx hy, sumWith_inf_left _ hx (by rwa [isFinite_fneg]),
      ofMag_infMag_spec (fdiv_inf_left hx hy)⟩
  · refine ⟨sumWith_inf_right _ hx hy, sumWith_inf_right _ hx (by rwa [isInf_fneg]), ?_⟩
    rw [fdiv_inf_right hx hy]
    exact ⟨isZero_ofMag_zero _, signOf_ofMag _ (by decide)⟩
  · have hadd := sumWith_inf_inf (nanOf .add x y) hx hy
    have hsub := sumWith_inf_inf (nanOf .sub x y) hx (y := fneg y) (by rwa [isInf_fneg])
    rw [signOf_fneg] at hsub
    refine ⟨fun hs => ⟨?_, ?_⟩, fun hs => ⟨?_, ?_⟩, isNaN_of_eq_nanOf (fdiv_inf_inf hx hy)⟩
    · rw [fadd, hadd, hs]; rfl
    · refine isNaN_of_eq_nanOf (hsub.trans (if_pos ?_))
      simpa using hs
    · exact isNaN_of_eq_nanOf (hadd.trans (if_pos hs))
    · rw [fsub, hsub, if_neg]
      simpa using hs
  · exact isNaN_of_eq_nanOf ((fmul_inf hx hy h).trans (if_pos (by simpa using h0)))
  · exact ofMag_infMag_spec ((fmul_inf hx hy h).trans (if_neg (by simp [hx0, hy0])))

end Sys2Proof.Machine
end

section
/-! SUPPORT. Conversion, floor and the comparisons (R123, R126, R127). -/

namespace Sys2Proof.Machine

variable {x y : Num64}

/-! ### Conversion and floor -/

/-- A magnitude whose value is a whole number of units rounds to that value, with either sign. -/
theorem ofMag_roundMag_exact {a m : Nat} (hm : m < infMag) (ha : a = unitsMag m) (neg : Bool) :
    isFinite (ofMag neg (roundMag a 1)) = true ∧
      valueOf (ofMag neg (roundMag a 1)) = if neg then -(a : Int) else a := by
  have hr : roundMag a 1 = m := by rw [ha, ← Nat.mul_one (unitsMag m), roundMag_exact hm Nat.one_pos]
  rw [hr, valueOf_ofMag neg (Nat.lt_trans hm infMag_lt), ha]
  exact ⟨isFinite_ofMag neg hm, rfl⟩

/-- R123: an integer of up to 53 bits is converted exactly. -/
theorem toNum_exact {n : Int} (h : n.natAbs < 2 ^ 53) :
    isFinite (toNum n) = true ∧ valueOf (toNum n) = n * 2 ^ unitExp := by
  obtain ⟨m, hm, hv⟩ := exists_unitsMag h (s := unitExp) (by decide)
  obtain ⟨hf, hval⟩ := ofMag_roundMag_exact hm hv.symm (decide (n < 0))
  refine ⟨hf, ?_⟩
  rw [toNum, hval, Nat.cast_mul, Nat.cast_pow, Nat.cast_ofNat, ← neg_mul, ← ite_mul]
  congr 1
  split
  · have hneg : n < 0 := of_decide_eq_true ‹_›
    omega
  · have hnonneg : ¬n < 0 := fun hlt => absurd (decide_eq_true hlt) ‹_›
    omega

/-- The least multiple of `b` not below `a`. -/
theorem ceil_mul_bounds {b : Nat} (hb : 0 < b) (a : Nat) :
    a ≤ (a + (b - 1)) / b * b ∧ (a + (b - 1)) / b * b < a + b := by
  have hdiv := Nat.div_add_mod' (a + (b - 1)) b
  have hr := Nat.mod_lt (a + (b - 1)) hb
  omega

/-- A value of the format rounded up to a whole number is one. -/
theorem exists_whole_up {m : Nat} (hm : m < infMag) (u : Nat) (hu : u ≤ 2045) :
    ∃ k, k < infMag ∧ unitsMag k = (unitsMag m + (2 ^ u - 1)) / 2 ^ u * 2 ^ u := by
  obtain ⟨q, s, hq, hs, he⟩ := unitsMag_shape hm
  have hu0 := Nat.two_pow_pos u
  rcases Nat.le_total u s with h | h
  · refine ⟨m, hm, ?_⟩
    obtain ⟨c, hc⟩ : 2 ^ u ∣ unitsMag m := he ▸ (Nat.pow_dvd_pow 2 h).mul_left q
    rw [hc, Nat.mul_add_div hu0, Nat.div_eq_of_lt (by omega), Nat.add_zero, Nat.mul_comm]
  · refine exists_unitsMag ?_ hu
    rw [Nat.div_lt_iff_lt_mul hu0, he]
    have hle : q * 2 ^ s ≤ (2 ^ 53 - 1) * 2 ^ u :=
      Nat.mul_le_mul (Nat.le_sub_one_of_lt hq) (Nat.pow_le_pow_right (by decide) h)
    omega

/-- R126: the floor of a finite negative number is minus its absolute value rounded up. -/
theorem floorNum_neg (hf : isFinite x = true) (hs : signOf x = true) :
    isFinite (floorNum x) = true ∧
      valueOf (floorNum x) =
        -(((unitsMag (magOf x) + (2 ^ unitExp - 1)) / 2 ^ unitExp * 2 ^ unitExp : Nat) : Int) := by
  obtain ⟨k, hk, hv⟩ := exists_whole_up ((isFinite_iff x).mp hf) unitExp (by decide)
  have hfl : floorNum x =
      ofMag true (roundMag ((unitsMag (magOf x) + (2 ^ unitExp - 1)) / 2 ^ unitExp * 2 ^ unitExp) 1) := by
    simp only [floorNum, hf, hs, unitsOf_eq, Bool.not_true, Bool.false_eq_true, if_true, if_false]
  rw [hfl]
  obtain ⟨hff, hval⟩ := ofMag_roundMag_exact hk hv.symm true
  exact ⟨hff, hval.trans (if_pos rfl)⟩

/-- R126: the floor of a finite number is the largest integer not above it. -/
theorem floorNum_spec (hf : isFinite x = true) :
    isFinite (floorNum x) = true ∧ (∃ n : Int, valueOf (floorNum x) = n * 2 ^ unitExp) ∧
      valueOf (floorNum x) ≤ valueOf x ∧ valueOf x < valueOf (floorNum x) + 2 ^ unitExp := by
  have hone : 0 < 2 ^ unitExp := Nat.two_pow_pos _
  have hcast : (2 ^ unitExp : Int) = (2 ^ unitExp : Nat) := by rw [Nat.cast_pow, Nat.cast_ofNat]
  rw [hcast]
  cases hs : signOf x with
  | false =>
    obtain ⟨hff, hv⟩ := floorNum_nonneg hf (valueOf_nonneg_iff.mpr (.inl hs))
    rw [hv, valueOf_of_pos hs]
    have hle := Nat.div_mul_le_self (unitsMag (magOf x)) (2 ^ unitExp)
    have hlt := Nat.lt_div_mul_add (a := unitsMag (magOf x)) hone
    exact ⟨hff, ⟨_, Nat.cast_mul ..⟩, by omega, by omega⟩
  | true =>
    obtain ⟨hff, hv⟩ := floorNum_neg hf hs
    rw [hv, valueOf_of_neg hs]
    obtain ⟨hle, hlt⟩ := ceil_mul_bounds hone (unitsMag (magOf x))
    exact ⟨hff, ⟨-_, by rw [Nat.cast_mul, neg_mul]⟩, by omega, by omega⟩

/-- R126: the floor of an infinity or NaN is itself. -/
theorem floorNum_of_not_finite (h : isFinite x = false) : floorNum x = x := by
  rw [floorNum, h]
  rfl

/-- Settles O59: a result that is a value of the format is not rounded. -/
theorem toNumAndFloorAreExact : Obligations.ToNumAndFloorAreExact := by
  refine ⟨fun n hn => toNum_exact ?_, fun x => floorNum_spec, fun x => floorNum_of_not_finite⟩
  rw [abs_lt] at hn
  omega

/-! ### Comparison -/

theorem valueOf_le_iff (x y : Num64) : valueOf x ≤ valueOf y ↔ orderKey x ≤ orderKey y := by
  rw [← not_lt, ← not_lt, valueOf_lt_iff]

theorem valueOf_inj (x y : Num64) : valueOf x = valueOf y ↔ orderKey x = orderKey y := by
  rw [le_antisymm_iff, le_antisymm_iff, valueOf_le_iff, valueOf_le_iff]

theorem orderKey_of_isInf (h : isInf x = true) : orderKey x = if signOf x then -(infMag : Int) else infMag := by
  rw [orderKey, (isInf_iff x).mp h]

theorem orderKey_bounds (h : isFinite x = true) : -(infMag : Int) < orderKey x ∧ orderKey x < infMag := by
  have hm := (isFinite_iff x).mp h
  unfold orderKey
  split <;> omega

/-- R127: an infinity is beyond every finite number and beyond the other infinity. -/
theorem infinity_beyond (hx : isInf x = true)
    (hy : isFinite y = true ∨ (isInf y = true ∧ signOf y ≠ signOf x)) :
    if signOf x then valueOf x < valueOf y else valueOf y < valueOf x := by
  rw [valueOf_lt_iff, valueOf_lt_iff, orderKey_of_isInf hx]
  rcases hy with hfin | ⟨hinf, hne⟩
  · obtain ⟨hlow, hhigh⟩ := orderKey_bounds hfin
    cases signOf x with
    | false => exact hhigh
    | true => exact hlow
  · rw [orderKey_of_isInf hinf, Bool.eq_not.mpr hne]
    cases signOf x <;> decide

/-- Settles O60: the order of the bits is that of the values. -/
theorem comparisonsFollowTheStandard : Obligations.ComparisonsFollowTheStandard := by
  intro x y
  refine ⟨fun h => ?_, fun hx hy => ?_, infinity_beyond, fun hx hy hs => ?_⟩
  · rcases h with h | h <;> simp [numNe, numLt, numLe, numEq, h]
  · simp [numNe, numLt, numLe, numEq, hx, hy, valueOf_lt_iff, valueOf_le_iff, valueOf_inj]
  · rw [isInf_iff] at hx hy
    rw [eq_of_parts hs (hx.trans hy.symm)]

end Sys2Proof.Machine
end

section
/-! SUPPORT. What a note-off compares its note with (R124, R210). -/

namespace Sys2Proof.Machine

/-- R124: the held note as an integer, `-1` for none. -/
def heldNumber (v : Voice) : Int := match v.heldNote with
  | some n => n.toNat
  | none => -1

theorem heldNumber_eq_iff (v : Voice) (note : Data7) : (note.toNat : Int) = heldNumber v ↔ v.heldNote = some note := by
  unfold heldNumber
  cases v.heldNote with
  | none => simp
  | some n =>
    rw [Option.some_inj, Int.natCast_inj, ← BitVec.toNat_inj]
    exact eq_comm

/-- Settles O28: to equal the held note as an integer is to be the held note. -/
theorem noteOffComparesWithTheHeldNote : Obligations.NoteOffComparesWithTheHeldNote := by
  intro ch note vel off s
  have hmatch := heldNumber_eq_iff s.v note
  have hexec (i : Instr) (hi : i = .noteOff ch note vel off ∨ i = .noteOnV0 ch note off) :
      exec i s = .next (applyNoteOff note s) := by
    rcases hi with rfl | rfl <;> rfl
  refine ⟨fun i hi => ⟨fun h => ?_, fun h => ?_⟩, fun h => ?_⟩
  · rw [hexec i hi, applyNoteOff, if_pos (hmatch.mp h)]
  · rw [hexec i hi, applyNoteOff, if_neg (mt hmatch.mpr h)]
  · rw [h]; omega

end Sys2Proof.Machine
end

section
/-! SUPPORT. The oscillator's operations and its sample (R150 to R155). -/

namespace Sys2Proof.Machine

/-! ### The sample of each generator advances its phase (R153, R164) -/

theorem exec_oscNextSample (s : State) :
    exec .oscNextSample s =
      .next (setNumResult (sawSample s.osc.phase s.osc.inc) { s with osc := oscAdvance s.osc }) := rfl

theorem exec_lfoNextSample (s : State) :
    exec .lfoNextSample s =
      .next (setNumResult (lfoSample Config.params s.lfo) { s with lfo := lfoAdvance s.lfo }) := rfl

/-- Settles O10: either generator's advance is one wrapped step, which keeps `[0, 1)`. -/
theorem nextSampleKeepsThePhase : Obligations.NextSampleKeepsThePhase := by
  intro s
  exact ⟨fun hp hd => ⟨_, exec_oscNextSample s, phaseOk_next hp hd⟩,
    fun hp hd => ⟨_, exec_lfoNextSample s, phaseOk_next hp hd⟩⟩

/-! ### The setters and the reset (R150 to R152) -/

theorem exec_oscSetFrequency (f : Num64) (s : State) :
    exec (.oscSetFrequency f) s = .next { s with osc := oscSetFrequency f s.osc } := rfl

theorem exec_oscSetSampleRate (r : Num64) (s : State) :
    exec (.oscSetSampleRate r) s = .next { s with osc := oscSetSampleRate r s.osc } := rfl

theorem exec_oscReset (s : State) : exec .oscReset s = .next { s with osc := oscReset s.osc } := rfl

/-- Settles O7: each operation replaces the oscillator by the unit's own result. -/
theorem oscillatorSettersWrite : Obligations.OscillatorSettersWrite := by
  intro s
  exact ⟨fun f => exec_oscSetFrequency f s, fun r => exec_oscSetSampleRate r s, exec_oscReset s⟩

/-! ### The corrected sawtooth, window by window (R153) -/

section
variable {p d : Num64}

theorem sawValue_leading (h : numLt p d = true) :
    sawValue p d = fsub (fsub (fmul twoNum p) oneNum) (blepStart (fdiv p d)) := by
  simp only [sawValue, if_pos h]

theorem sawValue_trailing (hs : numLt p d = false) (he : numLt (fsub oneNum d) p = true) :
    sawValue p d = fsub (fsub (fmul twoNum p) oneNum) (blepEnd (fdiv (fsub p oneNum) d)) := by
  simp only [sawValue, hs, Bool.false_eq_true, if_false, if_pos he]

theorem sawValue_between (hs : numLt p d = false) (he : numLt (fsub oneNum d) p = false) :
    sawValue p d = fsub (fmul twoNum p) oneNum := by
  simp only [sawValue, hs, he, Bool.false_eq_true, if_false]

end

/-- Settles O8: finite registers window by window; otherwise the sum is not finite either, and its wrap a NaN. -/
theorem oscillatorNextSample : Obligations.OscillatorNextSample := by
  intro s
  refine ⟨sawSample s.osc.phase s.osc.inc, exec_oscNextSample s, fun hp hd => ?_, fun h => ?_⟩
  · rw [sawSample_finite hp hd]
    exact ⟨sawValue_leading, sawValue_trailing, sawValue_between⟩
  · exact ⟨isNaN_sawSample h, isNaN_wrapNum (isFinite_fadd h)⟩

end Sys2Proof.Machine
end

section
/-! SUPPORT. The modulator's operations (R160 to R164). -/

namespace Sys2Proof.Machine

/-! ### A frequency, with the rate set and unset (R160) -/

section
variable {l : Lfo}

theorem lfoSetFrequency_rateSet (h : l.srSet = true) (f : Num64) :
    lfoSetFrequency f l = { l with freq := f, inc := fdiv f l.sr } := if_pos h

/-- Log entry 16: the frequency is kept, the increment stays. -/
theorem lfoSetFrequency_rateUnset (h : l.srSet = false) (f : Num64) :
    lfoSetFrequency f l = { l with freq := f } := if_neg (ne_true_of_eq_false h)

end

/-! ### Each operation replaces the modulator by the unit's own result -/

theorem exec_lfoSetFrequency (f : Num64) (s : State) :
    exec (.lfoSetFrequency f) s = .next { s with lfo := lfoSetFrequency f s.lfo } := rfl

theorem exec_lfoSetAmplitude (a : Num64) (s : State) :
    exec (.lfoSetAmplitude a) s = .next { s with lfo := lfoSetAmplitude a s.lfo } := rfl

theorem exec_lfoSetSampleRate (r : Num64) (s : State) :
    exec (.lfoSetSampleRate r) s = .next { s with lfo := lfoSetSampleRate r s.lfo } := rfl

theorem exec_lfoReset (s : State) : exec .lfoReset s = .next { s with lfo := lfoReset s.lfo } := rfl

/-- Settles O9: only the frequency looks at whether a rate is set; the other operations have one case each. -/
theorem modulatorOperationsWrite : Obligations.ModulatorOperationsWrite := by
  intro s
  refine ⟨fun f h => ?rateSet, fun f h => ?rateUnset, fun a => exec_lfoSetAmplitude a s,
    fun r => exec_lfoSetSampleRate r s, exec_lfoReset s, exec_lfoNextSample s⟩
  case rateSet => rw [exec_lfoSetFrequency, lfoSetFrequency_rateSet h]
  case rateUnset => rw [exec_lfoSetFrequency, lfoSetFrequency_rateUnset h]

end Sys2Proof.Machine
end

section
/-! SUPPORT. The filter's operations, the clamp of its angle, and a zero through it (R170 to R177). -/

namespace Sys2Proof.Machine

open Sys2Proof.Safety

/-! ### The clamp (R129) -/

section
variable {x lo hi : Num64}

theorem clampNum_of_isNaN (h : isNaN x = true) (lo hi : Num64) : clampNum x lo hi = x := by
  simp [clampNum, numLt, h]

theorem numLe_self (h : isNaN x = false) : numLe x x = true := by simp [numLe, h]

/-- R127: the order is total on the numbers other than NaN. -/
theorem numLe_of_not_numLt {y : Num64} (hx : isNaN x = false) (hy : isNaN y = false) (h : ¬numLt x y = true) :
    numLe y x = true := by
  simpa [numLe, numLt, hx, hy] using h

/-- R129: a clamp to two numbers in order is between them. -/
theorem clampNum_bounds (hx : isNaN x = false) (hle : numLe lo hi = true) :
    numLe lo (clampNum x lo hi) = true ∧ numLe (clampNum x lo hi) hi = true := by
  obtain ⟨⟨hlo, hhi⟩, -⟩ : (isNaN lo = false ∧ isNaN hi = false) ∧ orderKey lo ≤ orderKey hi := by
    simpa [numLe] using hle
  unfold clampNum
  split
  · exact ⟨numLe_self hlo, hle⟩
  · split
    · exact ⟨hle, numLe_self hhi⟩
    · exact ⟨numLe_of_not_numLt hx hlo ‹_›, numLe_of_not_numLt hhi hx ‹_›⟩

end

/-- Settles O14: the angle is a clamp between two numbers in order. -/
theorem cutoffAngleIsClamped : Obligations.CutoffAngleIsClamped := by
  intro cut sr
  exact ⟨fun hn => clampNum_of_isNaN hn zeroNum wMaxNum, fun hn => clampNum_bounds hn (by decide)⟩

/-! ### Zeros through the arithmetic (R125) -/

section
variable {x y : Num64}

theorem isFinite_of_isZero (h : isZero x = true) : isFinite x = true := by
  rw [isFinite_iff, (isZero_iff x).mp h]
  decide

theorem unitsOf_of_isZero (h : isZero x = true) : unitsOf x = 0 := by
  rw [unitsOf_eq, (isZero_iff x).mp h, unitsMag_zero]

theorem valueOf_of_isZero (h : isZero x = true) : valueOf x = 0 := by
  rw [← Int.natAbs_eq_zero, natAbs_valueOf, unitsOf_of_isZero h]

@[simp] theorem isZero_fneg (x : Num64) : isZero (fneg x) = isZero x := by
  rw [isZero, magOf_fneg, isZero]

theorem isZero_sumWith (nan : Num64) (hx : isZero x = true) (hy : isZero y = true) :
    isZero (sumWith nan x y) = true := by
  rw [sumWith_finite nan (isFinite_of_isZero hx) (isFinite_of_isZero hy), sumFinite, valueOf_of_isZero hx,
    valueOf_of_isZero hy]
  simp only [Int.add_zero, Int.natAbs_zero, roundMag_zero]
  exact isZero_ofMag_zero _

theorem isZero_fadd (hx : isZero x = true) (hy : isZero y = true) : isZero (fadd x y) = true := isZero_sumWith _ hx hy

theorem isZero_fsub (hx : isZero x = true) (hy : isZero y = true) : isZero (fsub x y) = true :=
  isZero_sumWith _ hx (by rwa [isZero_fneg])

/-- R125: a finite number times a zero is a zero. -/
theorem isZero_fmul (hx : isFinite x = true) (hy : isZero y = true) : isZero (fmul x y) = true := by
  rw [fmul_finite hx (isFinite_of_isZero hy), unitsOf_of_isZero hy, Nat.mul_zero, roundMag_zero]
  exact isZero_ofMag_zero _

end

/-! ### The operations (R170 to R174) -/

section
variable (s : State)

theorem exec_fltSetCutoffFrequency (f : Num64) :
    exec (.fltSetCutoffFrequency f) s = .next { s with flt := fltSetCutoff f s.flt } := rfl

theorem exec_fltSetResonance (q : Num64) :
    exec (.fltSetResonance q) s = .next { s with flt := fltSetResonance q s.flt } := rfl

theorem exec_fltSetSampleRate (r : Num64) :
    exec (.fltSetSampleRate r) s = .next { s with flt := fltSetSampleRate Config.params r s.flt } := rfl

theorem exec_fltReset : exec .fltReset s = .next { s with flt := fltReset s.flt } := rfl

theorem exec_fltUpdateCoefficients :
    exec .fltUpdateCoefficients s = .next { s with flt := fltUpdate Config.params s.flt } := rfl

theorem exec_fltProcess (x : Num64) :
    exec (.fltProcess x) s =
      .next (setNumResult (fltSample Config.params x s.flt) { s with flt := fltAdvance Config.params x s.flt }) := rfl

end

/-- Settles O12: each operation replaces the filter by the unit's own result. -/
theorem filterSettersWrite : Obligations.FilterSettersWrite := by
  intro s
  exact ⟨fun f => exec_fltSetCutoffFrequency s f, fun q => exec_fltSetResonance s q, exec_fltReset s,
    exec_fltUpdateCoefficients s, fun r => exec_fltSetSampleRate s r, smoothK_bounds⟩

/-! ### One sample (R175 to R177) -/

section
variable {P : Params} {t : Flt}

/-- R177: with both parameters at their targets no step is taken. -/
theorem fltAdopt_settled (hc : numEq t.cutCur t.cutTgt = true) (hq : numEq t.resCur t.resTgt = true) :
    fltAdopt P t = t := by
  simp [fltAdopt, fltGliding, numNe, hc, hq]

theorem fltAdopt_gliding (h : numEq t.cutCur t.cutTgt = false ∨ numEq t.resCur t.resTgt = false) :
    fltAdopt P t = fltUpdate P (fltSmooth t) := by
  simp [fltAdopt, fltGliding, numNe, h]

theorem fltAdopt_history :
    (fltAdopt P t).x1 = t.x1 ∧ (fltAdopt P t).x2 = t.x2 ∧ (fltAdopt P t).y1 = t.y1 ∧ (fltAdopt P t).y2 = t.y2 := by
  rw [fltAdopt_eq]
  exact ⟨rfl, rfl, rfl, rfl⟩

theorem fltSample_of_hasFilter (h : P.hasFilter = true) (x : Num64) :
    fltSample P x t = fltOutput x (fltAdopt P t) := if_pos h

theorem fltAdvance_of_hasFilter (h : P.hasFilter = true) (x : Num64) :
    fltAdvance P x t = fltShift x (fltOutput x (fltAdopt P t)) (fltAdopt P t) := if_pos h

theorem zeroHistory_iff :
    zeroHistory t = true ↔ isZero t.x1 = true ∧ isZero t.x2 = true ∧ isZero t.y1 = true ∧ isZero t.y2 = true := by
  simp [zeroHistory, and_assoc]

theorem finiteBank_iff (c : Coefs) :
    finiteBank c = true ↔
      isFinite c.b0 = true ∧ isFinite c.b1 = true ∧ isFinite c.b2 = true ∧ isFinite c.a1 = true ∧
        isFinite c.a2 = true := by
  simp [finiteBank, and_assoc]

/-- R177: every product of the difference equation is a zero. -/
theorem isZero_fltOutput {x : Num64} (hx : isZero x = true) (hh : zeroHistory t = true)
    (hb : finiteBank t.bank = true) : isZero (fltOutput x t) = true := by
  obtain ⟨hx1, hx2, hy1, hy2⟩ := zeroHistory_iff.mp hh
  obtain ⟨hb0, hb1, hb2, ha1, ha2⟩ := (finiteBank_iff t.bank).mp hb
  exact isZero_fsub (isZero_fsub (isZero_fadd (isZero_fadd (isZero_fmul hb0 hx) (isZero_fmul hb1 hx1))
    (isZero_fmul hb2 hx2)) (isZero_fmul ha1 hy1)) (isZero_fmul ha2 hy2)

/-- R176: a zero history takes a zero in and a zero out. -/
theorem zeroHistory_fltShift {x y : Num64} (hx : isZero x = true) (hy : isZero y = true) (hh : zeroHistory t = true) :
    zeroHistory (fltShift x y t) = true := by
  obtain ⟨hx1, -, hy1, -⟩ := zeroHistory_iff.mp hh
  exact zeroHistory_iff.mpr ⟨hx, hx1, hy, hy1⟩

/-- R176, R177: a zero through a zero history, where the bank the sample is computed with is finite. -/
theorem fltProcess_silent (hP : P.hasFilter = true) {x : Num64} (hx : isZero x = true) (hh : zeroHistory t = true)
    (hb : finiteBank (fltAdopt P t).bank = true) :
    isZero (fltSample P x t) = true ∧ zeroHistory (fltAdvance P x t) = true := by
  have hh' : zeroHistory (fltAdopt P t) = true := by
    rw [fltAdopt_eq]
    exact hh
  have hy := isZero_fltOutput hx hh' hb
  rw [fltSample_of_hasFilter hP, fltAdvance_of_hasFilter hP]
  exact ⟨hy, zeroHistory_fltShift hx hy hh'⟩

end

/-- Settles O15: a settled filter computes the sample with the bank it has. -/
theorem silenceThroughASettledFilter : Obligations.SilenceThroughASettledFilter := by
  intro x s hx hh hb hc hq
  have hbank : finiteBank (fltAdopt Config.params s.flt).bank = true := by rwa [fltAdopt_settled hc hq]
  exact ⟨_, exec_fltProcess s x, fltProcess_silent rfl hx hh hbank⟩

/-- Settles O13: the filter before its histories shift is the adopted one, whose histories are still those of `s`. -/
theorem filterProcessesOneSample : Obligations.FilterProcessesOneSample := by
  intro x s
  obtain ⟨hx1, hx2, hy1, hy2⟩ := fltAdopt_history (P := Config.params) (t := s.flt)
  refine ⟨fltAdopt Config.params s.flt, fltOutput x (fltAdopt Config.params s.flt), ?executes, ?output,
    fltAdopt_settled, fltAdopt_gliding⟩
  case executes =>
    rw [exec_fltProcess, fltSample_of_hasFilter rfl, fltAdvance_of_hasFilter rfl, fltShift, hx1, hy1]
    rfl
  case output => rw [fltOutput, hx1, hx2, hy1, hy2]

end Sys2Proof.Machine
end

section
/-! SUPPORT. The envelope's operations, the stages of its gain, and a gain of zero at the start (R185 to R191). -/

namespace Sys2Proof.Machine

/-! ### A zero over a number above 0 (R125) -/

/-- R125: the quotient of `+0` by a number above 0 is `+0`, an infinity included. -/
theorem fdiv_zeroNum_left {y : Num64} (h : numLt zeroNum y = true) : fdiv zeroNum y = zeroNum := by
  obtain ⟨hnan, hsign, hmag⟩ := (zeroNum_numLt_iff y).mp h
  have hfin : isFinite zeroNum = true := by decide
  have hneg : (signOf zeroNum != signOf y) = false := by rw [hsign]; decide
  have hzero : ofMag false 0 = zeroNum := by decide
  cases hy : isFinite y with
  | false =>
    have hinf : isInf y = true := (isNaN_or_isInf hy).resolve_left (ne_true_of_eq_false hnan)
    rw [fdiv_inf_right hfin hinf, hneg, hzero]
  | true =>
    have h0 : isZero y = false := by rwa [← Bool.not_eq_true, isZero_iff]
    rw [fdiv_finite hfin hy h0, hneg, unitsOf_of_isZero (by decide), Nat.zero_mul, roundMag_zero, hzero]

/-! ### The gain, stage by stage (R185) -/

section
variable (P : Params) {e : Env} {dt : Num64}

theorem envGain_bypassed (e : Env) (dt : Num64) : envGain P false e dt = oneNum := rfl

theorem envGain_attack (h : numLt dt e.attack = true) : envGain P true e dt = fdiv dt e.attack := by
  simp only [envGain, Bool.not_true, Bool.false_eq_true, if_false, if_pos h]

theorem envGain_decay (ha : numLt dt e.attack = false) (hd : numLt dt (fadd e.attack e.decay) = true) :
    envGain P true e dt =
      fsub oneNum (fdiv (fmul (fsub oneNum e.sustain) (fsub dt e.attack)) e.decay) := by
  simp only [envGain, Bool.not_true, ha, Bool.false_eq_true, if_false, if_pos hd]

/-- Log entry 8: the minus sign is `fneg`. -/
theorem envGain_afterDecay (ha : numLt dt e.attack = false) (hd : numLt dt (fadd e.attack e.decay) = false) :
    envGain P true e dt =
      fmul e.sustain (P.num.exp (fdiv (fneg (fsub (fsub dt e.attack) e.decay)) e.release)) := by
  simp only [envGain, Bool.not_true, ha, hd, Bool.false_eq_true, if_false]

/-- R191: at the start of an attack that takes time the gain is `+0`. -/
theorem envGain_start (h : numLt zeroNum e.attack = true) : envGain P true e zeroNum = zeroNum :=
  (envGain_attack P h).trans (fdiv_zeroNum_left h)

end

/-! ### The operations (R185 to R190) -/

theorem exec_envValue (dt : Num64) (s : State) :
    exec (.envValue dt) s = .next (setNumResult (envGain Config.params s.v.envEnabled s.env dt) s) := rfl

theorem exec_envAttack (s : State) : exec .envAttack s = .next { s with v := envAttack s.v } := rfl

theorem exec_envSetAttackTime (t : Num64) (s : State) :
    exec (.envSetAttackTime t) s = .next { s with env := envSetAttackTime t s.env } := rfl

theorem exec_envSetDecayTime (t : Num64) (s : State) :
    exec (.envSetDecayTime t) s = .next { s with env := envSetDecayTime t s.env } := rfl

theorem exec_envSetSustainLevel (level : Num64) (s : State) :
    exec (.envSetSustainLevel level) s = .next { s with env := envSetSustainLevel level s.env } := rfl

theorem exec_envSetReleaseTime (t : Num64) (s : State) :
    exec (.envSetReleaseTime t) s = .next { s with env := envSetReleaseTime t s.env } := rfl

/-- Settles O18: the gain is that of the attack stage, a quotient of `+0`. -/
theorem noteStartsFromSilence : Obligations.NoteStartsFromSilence := by
  intro s hon hattack
  rw [exec_envValue, hon, envGain_start _ hattack]
  rfl

/-- Settles O16: with the flag known, each clause is one stage of the gain. -/
theorem envelopeStages : Obligations.EnvelopeStages := by
  intro dt s
  refine ⟨envGain Config.params s.v.envEnabled s.env dt, exec_envValue dt s, fun hoff => ?bypassed,
    fun hon => ?attack, fun hon => ?decay, fun hon => ?afterDecay⟩
  case bypassed => rw [hoff, envGain_bypassed]
  all_goals rw [hon]
  case attack => exact envGain_attack _
  case decay => exact envGain_decay _
  case afterDecay => exact envGain_afterDecay _

/-- Settles O17: each operation replaces the voice or the parameters by the unit's own result. -/
theorem envelopeSettersWrite : Obligations.EnvelopeSettersWrite := by
  intro s
  exact ⟨exec_envAttack s, fun t => exec_envSetAttackTime t s, fun t => exec_envSetDecayTime t s,
    fun l => exec_envSetSustainLevel l s, fun t => exec_envSetReleaseTime t s⟩

end Sys2Proof.Machine
end

section
/-! SUPPORT. The voice's operations (R195 to R199), and a call of `VOICE.Process` frame by frame (R195). -/

namespace Sys2Proof.Machine

/-! ### The operations -/

section
variable (s : State)

theorem exec_voiceProcess (base n : Idx) (gate : Bool) :
    exec (.voiceProcess base n gate) s = .next (voiceProcess Config.params [] base n gate s) := rfl

theorem exec_voiceReset : exec .voiceReset s = .next (voiceReset s) := rfl

theorem exec_voiceSetEnvelopeEnabled (b : Bool) :
    exec (.voiceSetEnvelopeEnabled b) s = .next { s with v := voiceSetEnvelopeEnabled b s.v } := rfl

theorem exec_voiceSetGlobalBypass (b : Bool) :
    exec (.voiceSetGlobalBypass b) s = .next { s with v := voiceSetGlobalBypass b s.v } := rfl

theorem exec_voiceSetCutoff (f : Num64) : exec (.voiceSetCutoff f) s = .next (voiceSetCutoff f s) := rfl

end

/-- R197: when the contour restarts. -/
theorem envelopeRestarts_iff (b : Bool) (v : Voice) :
    (b && !v.envEnabled && noteHeld v) = true ↔ b = true ∧ v.envEnabled = false ∧ v.heldNote ≠ none := by
  simp [noteHeld, and_assoc, Option.isSome_iff_ne_none]

/-- Settles O19: the clock is written exactly where the contour restarts. -/
theorem voiceSettersWrite : Obligations.VoiceSettersWrite := by
  intro s
  refine ⟨fun b h => ?restarts, fun b h => ?continues, exec_voiceSetGlobalBypass s, exec_voiceSetCutoff s,
    exec_voiceReset s⟩
  all_goals rw [exec_voiceSetEnvelopeEnabled, voiceSetEnvelopeEnabled_eq]
  case restarts => rw [if_pos ((envelopeRestarts_iff b s.v).mpr h)]
  case continues => rw [if_neg fun hc => h ((envelopeRestarts_iff b s.v).mp hc)]

/-! ### The state between two frames -/

/-- R195: the `k`-th frame of a call is the one of index `k`. -/
theorem voiceFrames_index (P : Params) (ws : List TargetWrite) (base : Nat) (gate : Bool) {k : Nat} (hk : k < 2 ^ 32)
    (s : State) : (voiceFrames P ws base gate k { s with sch := { s.sch with i := 0 } }).sch.i.toNat = k := by
  simpa [voiceFrames_i] using hk

/-- R195: what a call has computed after `k` frames; the index, which counts them, left out. -/
def afterFrames (base : Idx) (gate : Bool) (s : State) (k : Nat) : State :=
  { voiceFrames Config.params [] base.toNat gate k { s with sch := { s.sch with i := 0 } } with sch := s.sch }

/-- R195: a call ends as its last frame does, but for the clock. -/
theorem voiceProcess_afterFrames (base n : Idx) (gate : Bool) (s : State) :
    voiceProcess Config.params [] base n gate s =
      { afterFrames base gate s n.toNat with
        v := { (afterFrames base gate s n.toNat).v with
          noteOnTime := fsub s.v.noteOnTime (fdiv (toNum n.toNat) s.v.sr) }
        sch := { s.sch with i := 0 } } := by
  obtain ⟨p, l, f, b, o, -, -, h⟩ :=
    voiceFrames_eq Config.params [] base.toNat gate n.toNat { s with sch := { s.sch with i := 0 } }
  simp only [voiceProcess, afterFrames, h]
  rfl

/-- Settles O22: each state between two frames is the body of one frame after the one before it. -/
theorem voiceProcessIsFrameByFrame : Obligations.VoiceProcessIsFrameByFrame := by
  refine ⟨headroom_bounds, fun base n gate s => ⟨afterFrames base gate s, rfl, fun k => frameIndex_eq,
    fun k hk => ?frame, (exec_voiceProcess ..).trans (congrArg _ (voiceProcess_afterFrames ..))⟩⟩
  case frame =>
    have hi := voiceFrames_index Config.params [] base.toNat gate (hk.trans n.isLt) s
    simp only [afterFrames, voiceFrames_succ_last, voiceFrame, landBefore_nil, voiceFrameBody, voiceInput, voiceFilter,
      hi]
    rfl

/-- Settles O23: the memory's words are those of `voiceProcess_out`, and without concurrent writes the base cutoff and
the resonance target stay. -/
theorem voiceProcessFrame : Obligations.VoiceProcessFrame := by
  intro base n gate s
  have hout := voiceProcess_out Config.params [] base n gate s
  obtain ⟨hbase, hres⟩ := voiceProcess_targets Config.params base n gate s
  refine ⟨_, exec_voiceProcess .., fun k => frameIndex_eq, fun k hk => (hout _).1 ⟨k, hk, rfl⟩,
    fun a ha => (hout a).2.1 fun j hj he => ha j hj he.symm, fun k => congrArg (bufRead · k) (hout k).2.2, ?registers⟩
  case registers =>
    obtain ⟨p, l, f, b, o, hk, hs, h⟩ := voiceProcess_eq Config.params [] base n gate s
    rw [h] at hbase hres ⊢
    simp only at hbase hres
    rw [hbase, ← hres, ← hk, ← hs]
    rfl

end Sys2Proof.Machine
end

section
/-! SUPPORT. A call with a closed gate (R201): what it does not read, and that it is silent. -/

namespace Sys2Proof.Machine

open Sys2Proof.Safety

/-- R195: a closed gate replaces the sample by `+0`. -/
theorem voiceInput_closed (P : Params) (s : State) : voiceInput P false s = zeroNum := rfl

/-! ### What a closed gate hides -/

/-- R195: with a closed gate the headroom is not read. -/
theorem voiceFrame_closed_headroom (P : Params) (h : Num64) (ws : List TargetWrite) (base : Nat) (s : State) :
    voiceFrame { P with headroom := h } ws base false s = voiceFrame P ws base false s := by
  simp only [voiceFrame, voiceFrameBody, voiceInput_closed]
  rfl

theorem voiceFrames_closed_headroom (P : Params) (h : Num64) (ws : List TargetWrite) (base n : Nat) (s : State) :
    voiceFrames { P with headroom := h } ws base false n s = voiceFrames P ws base false n s := by
  induction n generalizing s with
  | zero => rfl
  | succ n ih => rw [voiceFrames, voiceFrame_closed_headroom, ih, voiceFrames]

/-- What a frame with a closed gate reads is the same in two states: the modulator, the filter, the base cutoff, the
output memory and the frame's index. -/
structure ClosedGateAgree (s s' : State) : Prop where
  lfo : s'.lfo = s.lfo
  flt : s'.flt = s.flt
  out : s'.out = s.out
  baseCut : s'.v.baseCut = s.v.baseCut
  index : s'.sch.i = s.sch.i

section
variable {s s' : State} (h : ClosedGateAgree s s') (P : Params) (ws : List TargetWrite) (base : Nat)
include h

theorem ClosedGateAgree.target (w : Smoothed) (x : Num64) :
    ClosedGateAgree (writeTarget P w x s) (writeTarget P w x s') := by
  unfold writeTarget
  split
  · cases w with
    | cutoff => exact ⟨h.lfo, congrArg (fltSetCutoff x) h.flt, h.out, rfl, h.index⟩
    | resonance => exact ⟨h.lfo, congrArg (fltSetResonance x) h.flt, h.out, h.baseCut, h.index⟩
  · exact h

theorem ClosedGateAgree.land : ClosedGateAgree (landWrites P ws s) (landWrites P ws s') := by
  induction ws generalizing s s' with
  | nil => exact h
  | cons w ws ih => exact ih (h.target P w.target w.value)

/-- R201: the body of a frame takes `+0` and the modulated filter, which agree. -/
theorem ClosedGateAgree.body : ClosedGateAgree (voiceFrameBody P base false s) (voiceFrameBody P base false s') := by
  have hflt : voiceFilter P s' = voiceFilter P s := by rw [voiceFilter, voiceFilter, h.lfo, h.flt, h.baseCut]
  constructor <;> simp only [voiceFrameBody, voiceInput_closed, hflt, h.lfo, h.out, h.baseCut, h.index]

theorem ClosedGateAgree.frame :
    ClosedGateAgree (voiceFrame P ws base false s) (voiceFrame P ws base false s') := by
  rw [voiceFrame, voiceFrame, h.index]
  exact (h.land P _).body P base

theorem ClosedGateAgree.frames (n : Nat) :
    ClosedGateAgree (voiceFrames P ws base false n s) (voiceFrames P ws base false n s') := by
  induction n generalizing s s' with
  | zero => exact h
  | succ n ih => exact ih (h.frame P ws base)

end

/-- Settles O24: the frames read neither the headroom nor anything the two states may differ in. -/
theorem closedGateHidesTheOscillator : Obligations.ClosedGateHidesTheOscillator := by
  intro P h ws base n s s' hlfo hflt hout hbase
  have hagree : ClosedGateAgree { s with sch := { s.sch with i := 0 } } { s' with sch := { s'.sch with i := 0 } } :=
    ⟨hlfo, hflt, hout, hbase, rfl⟩
  have hframes := hagree.frames P ws base.toNat n.toNat
  simp only [voiceProcess, voiceFrames_closed_headroom]
  exact ⟨hframes.out, hframes.flt⟩

/-! ### A closed gate over a zero history -/

section
variable {P : Params} {ws : List TargetWrite} {base : Nat} {s : State}

/-- R177, R195: the modulator's write leaves the history. -/
theorem zeroHistory_voiceFilter (h : zeroHistory s.flt = true) : zeroHistory (voiceFilter P s) = true := by
  unfold voiceFilter
  split <;> exact h

/-- R72, R177: so do the concurrent writes. -/
theorem zeroHistory_landBefore (h : zeroHistory s.flt = true) (n : Nat) :
    zeroHistory (landBefore P ws n s).flt = true := by
  rw [landBefore, landWrites_flt]
  exact h

/-- R201: a silent frame. -/
theorem voiceFrame_silent (hP : P.hasFilter = true) (hh : zeroHistory s.flt = true)
    (hb : finiteBank (fltAdopt P (voiceFilter P (landBefore P ws (base + s.sch.i.toNat) s))).bank = true) :
    zeroHistory (voiceFrame P ws base false s).flt = true ∧
      ∃ y, isZero y = true ∧
        (voiceFrame P ws base false s).out = memWrite s.out .first (frameIndex base s.sch.i.toNat) y := by
  obtain ⟨hy, hhist⟩ := fltProcess_silent hP (x := zeroNum) (by decide)
    (zeroHistory_voiceFilter (zeroHistory_landBefore hh _)) hb
  refine ⟨hhist, _, hy, ?_⟩
  simp only [voiceFrame, voiceFrameBody, voiceInput_closed, landBefore, landWrites_out, landWrites_sch]

end

/-- R201: every word that the first `n` frames of a call write is a zero, and the history is zero after them. -/
theorem voiceFrames_silent {P : Params} {ws : List TargetWrite} {base n : Nat} {s : State} (hn : n ≤ 2 ^ 32)
    (hP : P.hasFilter = true) (hh : zeroHistory s.flt = true)
    (hb : ∀ k, k < n → finiteBank (fltAdopt P (voiceFilter P (landBefore P ws (base + k)
      (voiceFrames P ws base false k { s with sch := { s.sch with i := 0 } })))).bank = true) :
    let t := voiceFrames P ws base false n { s with sch := { s.sch with i := 0 } }
    zeroHistory t.flt = true ∧
      ∀ k, k < n → ∃ y, memRead t.out .first (frameIndex base k) = some y ∧ isZero y = true := by
  induction n with
  | zero => exact ⟨hh, fun _ h => absurd h (Nat.not_lt_zero _)⟩
  | succ n ih =>
    obtain ⟨hhist, hwords⟩ := ih (by omega) fun k hk => hb k (Nat.lt_succ_of_lt hk)
    have hi := voiceFrames_index P ws base false hn s
    obtain ⟨hhist', y, hy, hout⟩ := voiceFrame_silent hP hhist (by rw [hi]; exact hb n (Nat.lt_succ_self n))
    simp only [voiceFrames_succ_last]
    refine ⟨hhist', fun k hk => ?_⟩
    rw [hout, hi, memRead_memWrite_first]
    split
    · exact ⟨y, rfl, hy⟩
    · rename_i hne
      exact hwords k (lt_of_le_of_ne (Nat.lt_succ_iff.mp hk) fun he => hne ⟨rfl, by rw [he]⟩)

/-- Settles O25: the fall of the clock writes neither the filter nor the memory. -/
theorem closedGateIsSilent : Obligations.ClosedGateIsSilent := by
  intro P ws base n s hP hh hb
  exact voiceFrames_silent n.isLt.le hP hh hb

end Sys2Proof.Machine
end

section
/-! SUPPORT. A call of `VOICE.Process` split in two (R201). -/

namespace Sys2Proof.Machine

/-! ### The generators -/

/-- R164, R195: the modulator's part of a frame. -/
def lfoFrame (P : Params) (l : Lfo) : Lfo := if P.hasLfo then lfoAdvance l else l

section
variable (P : Params) (ws : List TargetWrite) (base n : Idx) (gate : Bool) (s : State)

/-- R195: frames advance the oscillator by themselves. -/
theorem voiceFrames_osc (base n : Nat) (s : State) : (voiceFrames P ws base gate n s).osc = oscAdvance^[n] s.osc := by
  induction n generalizing s with
  | zero => rfl
  | succ n ih => rw [voiceFrames, ih, voiceFrame_osc, Function.iterate_succ_apply]

/-- R195: and the modulator. -/
theorem voiceFrames_lfo (base n : Nat) (s : State) :
    (voiceFrames P ws base gate n s).lfo = (lfoFrame P)^[n] s.lfo := by
  induction n generalizing s with
  | zero => rfl
  | succ n ih => rw [voiceFrames, ih, voiceFrame_lfo, Function.iterate_succ_apply, lfoFrame]

theorem voiceProcess_osc : (voiceProcess P ws base n gate s).osc = oscAdvance^[n.toNat] s.osc :=
  voiceFrames_osc ..

theorem voiceProcess_lfo : (voiceProcess P ws base n gate s).lfo = (lfoFrame P)^[n.toNat] s.lfo :=
  voiceFrames_lfo ..

end

/-! ### The clock and the index with the envelope bypassed -/

/-- `s` at another time and at another index in the call: what sets the second part of a split call apart from the
same frames of the whole. -/
def State.retimed (c : Num64) (j : Idx) (s : State) : State :=
  { s with v := { s.v with noteOnTime := c }, sch := { s.sch with i := j } }

/-- R121: the next index, where it fits. -/
theorem toNat_next_index {i : Idx} (h : i.toNat + 1 < 2 ^ 32) : (i + 1).toNat = i.toNat + 1 := BitVec.toNat_add_of_lt h

section
variable (P : Params) (ws : List TargetWrite) (c : Num64) (j : Idx)

@[simp] theorem retimed_i (s : State) : (s.retimed c j).sch.i = j := rfl

theorem writeTarget_retimed (w : Smoothed) (x : Num64) (s : State) :
    writeTarget P w x (s.retimed c j) = (writeTarget P w x s).retimed c j := by
  unfold writeTarget
  cases w <;> (split <;> rfl)

/-- R72: the concurrent writes read neither the clock nor the index. -/
theorem landWrites_retimed (s : State) : landWrites P ws (s.retimed c j) = (landWrites P ws s).retimed c j := by
  induction ws generalizing s with
  | nil => rfl
  | cons w ws ih => exact (congrArg (landWrites P ws) (writeTarget_retimed P c j ..)).trans (ih _)

variable {P} {s : State}

/-- R185, R195: with the envelope bypassed the sample does not depend on the time. -/
theorem voiceInput_retimed (henv : envelopeOn P s.v = false) (gate : Bool) :
    voiceInput P gate (s.retimed c j) = voiceInput P gate s := by
  have henv' : envelopeOn P (s.retimed c j).v = false := henv
  simp only [voiceInput, henv, henv', envGain_bypassed]
  rfl

/-- R195: a target write leaves the envelope's flag. -/
theorem envelopeOn_landWrites (s : State) : envelopeOn P (landWrites P ws s).v = envelopeOn P s.v := by
  rw [landWrites_v]
  rfl

theorem envelopeOn_voiceFrame (base : Nat) (gate : Bool) (s : State) :
    envelopeOn P (voiceFrame P ws base gate s).v = envelopeOn P s.v := by
  rw [voiceFrame_v]
  rfl

/-- R201: a frame's body at the same place in the block, at another time and under another index in its call. -/
theorem voiceFrameBody_retimed (henv : envelopeOn P s.v = false) {base base' : Nat}
    (hindex : frameIndex base' j.toNat = frameIndex base s.sch.i.toNat) (gate : Bool) :
    voiceFrameBody P base' gate (s.retimed c j) = (voiceFrameBody P base gate s).retimed c (j + 1) := by
  simp only [voiceFrameBody, voiceInput_retimed c j henv, retimed_i, hindex]
  rfl

/-- R201: a frame of the second part is the frame of the whole at the same place in the block. -/
theorem voiceFrame_retimed (henv : envelopeOn P s.v = false) {base base' : Nat}
    (hplace : base' + j.toNat = base + s.sch.i.toNat) (hw : base + s.sch.i.toNat < 2 ^ 32) (gate : Bool) :
    voiceFrame P ws base' gate (s.retimed c j) = (voiceFrame P ws base gate s).retimed c (j + 1) := by
  rw [voiceFrame, retimed_i, hplace, landBefore, landWrites_retimed]
  refine voiceFrameBody_retimed c j ((envelopeOn_landWrites _ s).trans henv) ?_ gate
  rw [landWrites_sch, frameIndex_eq hw, frameIndex_eq (hplace ▸ hw), hplace]

/-- R201: so are any number of them. -/
theorem voiceFrames_retimed (henv : envelopeOn P s.v = false) {base base' n : Nat}
    (hplace : base' + j.toNat = base + s.sch.i.toNat) (hw : base + s.sch.i.toNat + n < 2 ^ 32) (gate : Bool) :
    voiceFrames P ws base' gate n (s.retimed c j) =
      (voiceFrames P ws base gate n s).retimed c (j + BitVec.ofNat 32 n) := by
  induction n generalizing s j with
  | zero => simp [voiceFrames]
  | succ n ih =>
    have hi : (s.sch.i + 1).toNat = s.sch.i.toNat + 1 := toNat_next_index (by omega)
    have hj : (j + 1).toNat = j.toNat + 1 := toNat_next_index (by omega)
    have hnext := ih (j + 1) (s := voiceFrame P ws base gate s) ((envelopeOn_voiceFrame ..).trans henv)
      (by rw [voiceFrame_sch, hi, hj]; omega) (by rw [voiceFrame_sch, hi]; omega)
    rw [voiceFrames, voiceFrames, voiceFrame_retimed ws c j henv hplace (by omega), hnext, BitVec.add_assoc,
      Nat.add_comm n, BitVec.ofNat_add]
    rfl

end

/-! ### The two parts -/

/-- R195: what a call does after its last frame: the clock falls, the index is dropped. -/
def endCall (n : Idx) (t : State) : State := { t with v := clockAfter n t.v, sch := { t.sch with i := 0 } }

theorem voiceProcess_eq_endCall (P : Params) (ws : List TargetWrite) (base n : Idx) (gate : Bool) (s : State) :
    voiceProcess P ws base n gate s =
      endCall n (voiceFrames P ws base.toNat gate n.toNat { s with sch := { s.sch with i := 0 } }) := rfl

/-- R195: the time, the index and the length of the call show in the clock alone once it has ended. -/
theorem endCall_retimed (m n : Idx) (c : Num64) (j : Idx) (t : State) :
    ∃ c', endCall m (t.retimed c j) = { endCall n t with v := { (endCall n t).v with noteOnTime := c' } } :=
  ⟨_, rfl⟩

/-- R201: with the envelope bypassed the second part of a split call ends as the whole does, but for the clock. -/
theorem voiceProcess_split {P : Params} {base k m : Idx} {s : State} (hw : base.toNat + k.toNat + m.toNat < 2 ^ 32)
    (henv : envelopeOn P s.v = false) (ws : List TargetWrite) (gate : Bool) :
    ∃ c, voiceProcess P ws (base + k) m gate (voiceProcess P ws base k gate s) =
      { voiceProcess P ws base (k + m) gate s with
        v := { (voiceProcess P ws base (k + m) gate s).v with noteOnTime := c } } := by
  have hbase : (base + k).toNat = base.toNat + k.toNat := BitVec.toNat_add_of_lt (by omega)
  have hkm : (k + m).toNat = k.toNat + m.toNat := BitVec.toNat_add_of_lt (by omega)
  -- `a` is the state of the whole at the split
  generalize ha : voiceFrames P ws base.toNat gate k.toNat { s with sch := { s.sch with i := 0 } } = a
  have hi : a.sch.i.toNat = k.toNat := ha ▸ voiceFrames_index P ws base.toNat gate k.isLt s
  have hv : envelopeOn P a.v = false := by rw [← ha, voiceFrames_v]; exact henv
  have hwhole : voiceProcess P ws base (k + m) gate s =
      endCall (k + m) (voiceFrames P ws base.toNat gate m.toNat a) := by
    rw [voiceProcess_eq_endCall, hkm, voiceFrames_add, ha]
  -- the second part starts in `a`, but at the index 0 and after the first part's fall of the clock
  have hsecond := voiceFrames_retimed ws (endCall k a).v.noteOnTime 0 hv (base' := (base + k).toNat)
    (base := base.toNat) (n := m.toNat) (by rw [hi]; exact hbase) (by rwa [hi]) gate
  rw [hwhole, voiceProcess_eq_endCall P ws base k, ha]
  obtain ⟨c, hc⟩ := endCall_retimed m (k + m) (endCall k a).v.noteOnTime (0 + BitVec.ofNat 32 m.toNat)
    (voiceFrames P ws base.toNat gate m.toNat a)
  exact ⟨c, (congrArg (endCall m) hsecond).trans hc⟩

/-- Settles O26: the generators take as many steps in two parts as in one, and the rest is `voiceProcess_split`. -/
theorem splitCallsAgree : Obligations.SplitCallsAgree := by
  intro P ws base k m gate s hw
  have hkm : (k + m).toNat = m.toNat + k.toNat := by rw [BitVec.toNat_add_of_lt (by omega), Nat.add_comm]
  refine ⟨?osc, ?lfo, fun henv => ?registers⟩
  case osc => simp only [voiceProcess_osc, hkm, Function.iterate_add_apply]
  case lfo => simp only [voiceProcess_lfo, hkm, Function.iterate_add_apply]
  case registers =>
    obtain ⟨c, h⟩ := voiceProcess_split hw henv ws gate
    rw [h]
    exact ⟨rfl, rfl, rfl⟩

end Sys2Proof.Machine
end

section
/-! SUPPORT. The events as instructions (R207 to R215), and the gate (R212). -/

namespace Sys2Proof.Machine

/-! ### What each event does to the state -/

section
variable (ch : BitVec 4) (d1 d2 : Data7) (off : Idx) (s : State)

theorem exec_noteOn : exec (.noteOn ch d1 d2 off) s = .next (applyNoteOn Config.params d1 s) := rfl

theorem exec_ccAllNotesOff : exec (.ccAllNotesOff ch d2 off) s = .next (applyAllNotesOff s) := rfl

/-- R213, R214: the controllers but one, and the statuses but three, are ignored. -/
theorem exec_ignored (st : BitVec 3) {i : Instr}
    (h : i ∈ [.ccOther ch d1 d2 off, .polyPressure ch d1 d2 off, .programChange ch d1 d2 off,
      .channelPressure ch d1 d2 off, .pitchBend ch d1 d2 off, .system ch d1 d2 off, .notAStatus st ch d1 d2 off]) :
    exec i s = .next (applyIgnored s) := by
  simp only [List.mem_cons, List.not_mem_nil, or_false] at h
  rcases h with rfl | rfl | rfl | rfl | rfl | rfl | rfl <;> rfl

end

/-- Settles O27: the frequency is the note's, and holding the note restarts the clock as `ENV.Attack` does. -/
theorem noteOnWrites : Obligations.NoteOnWrites := by
  intro ch note vel off s
  exact exec_noteOn ch note vel off s

/-- Settles O29: every event but the first is one of those ignored. -/
theorem allNotesOffAndIgnoredEvents : Obligations.AllNotesOffAndIgnoredEvents := by
  intro st ch d1 d2 off s
  have hignored {i : Instr} := exec_ignored ch d1 d2 off s st (i := i)
  refine ⟨exec_ccAllNotesOff ch d2 off s, ?_, ?_, ?_, ?_, ?_, ?_, ?_⟩ <;> exact hignored (by simp)

/-- Settles O30: the word's status and data select the event as the record's do, with any reserved bits. -/
theorem drainedRecordsActAsTheirWords : Obligations.DrainedRecordsActAsTheirWords := by
  intro w off s _ _
  exact exec_decodeEvent w off s

/-! ### The gate -/

section
variable (P : Params) {v : Voice}

theorem gateOf_bypassed (hb : v.bypass = true) : gateOf P v = false := by simp [gateOf, hb]

theorem gateOf_held (hb : v.bypass = false) (h : v.heldNote ≠ none) : gateOf P v = true := by
  simp [gateOf, noteHeld, hb, Option.isSome_iff_ne_none.mpr h]

/-- R212: with no note held the envelope keeps the gate open. -/
theorem gateOf_notHeld (hb : v.bypass = false) (h : v.heldNote = none) : gateOf P v = envelopeOn P v := by
  simp [gateOf, noteHeld, hb, h]

theorem gateOf_envelope (hb : v.bypass = false) (he : envelopeOn P v = true) : gateOf P v = true := by
  simp [gateOf, hb, he]

end

theorem exec_schGate (s : State) : exec .schGate s = .next (setFlagResult (gateOf Config.params s.v) s) := rfl

/-- Settles O32: the returned value is the gate, row by row of the table. -/
theorem gateTruthTable : Obligations.GateTruthTable := by
  intro s
  have henv : envelopeOn Config.params s.v = s.v.envEnabled := rfl
  exact ⟨_, exec_schGate s, gateOf_bypassed _, gateOf_held _, fun hb he => gateOf_envelope _ hb (henv.trans he),
    fun hb hn he => (gateOf_notHeld _ hb hn).trans (henv.trans he)⟩

end Sys2Proof.Machine
end

section
/-! SUPPORT. The channel copy (R216) and the drain (R206) by themselves. -/

namespace Sys2Proof.Machine

/-! ### The channel copy -/

theorem exec_schCopyChannels (n : Idx) (s : State) :
    exec (.schCopyChannels n) s = .next { s with out := copyChannels Config.params n s.out } := rfl

/-- R216: with two channels the second reads as the first below `n`, and above as it did. -/
theorem memRead_copyChannels_second {P : Params} (h : P.nch = .stereo) (n : Idx) (m : Memory) (k : Nat) :
    memRead (copyChannels P n m) .second k =
      if k < n.toNat then memRead m .first k else memRead m .second k := by
  rw [copyChannels_stereo h]
  exact bufRead_bufCopy ..

/-- Settles O33: the second channel, with one channel and with two. -/
theorem copyChannelsCopies : Obligations.CopyChannelsCopies := by
  intro frameCount s
  refine ⟨_, exec_schCopyChannels frameCount s, memRead_copyChannels_first _ _ _, fun k => ?_⟩
  cases h : Config.nch with
  | mono => rw [copyChannels_mono h]
  | stereo => exact memRead_copyChannels_second h frameCount s.out k

/-! ### The drain -/

/-- The records of a list, applied in its order. -/
def applyEvents (P : Params) (recs : List EventRec) (s : State) : State := recs.foldl (fun s e => applyEvent P e s) s

@[simp] theorem applyEvents_nil (P : Params) (s : State) : applyEvents P [] s = s := rfl

@[simp] theorem applyEvents_cons (P : Params) (e : EventRec) (recs : List EventRec) (s : State) :
    applyEvents P (e :: recs) s = applyEvents P recs (applyEvent P e s) := rfl

/-- R266: an event leaves the queue. -/
@[simp] theorem applyEvent_q (P : Params) (e : EventRec) (s : State) : (applyEvent P e s).q = s.q := by
  obtain ⟨f, i, c, h, he⟩ := applyEvent_eq P e s
  rw [he]

/-- R206: the records at the head that are due are applied in order, and the others stay. -/
theorem drainRecs_eq_applyEvents (P : Params) (offset : Idx) (recs : List EventRec) (s : State) :
    drainRecs P offset recs s =
      { applyEvents P (recs.takeWhile fun e => decide (e.off.toNat ≤ offset.toNat)) s with
        q := { s.q with recs := recs.dropWhile fun e => decide (e.off.toNat ≤ offset.toNat) } } := by
  induction recs generalizing s with
  | nil => rfl
  | cons e rest ih =>
    unfold drainRecs
    by_cases hdue : e.off.toNat ≤ offset.toNat
    · rw [if_pos hdue, ih, applyEvent_q, List.takeWhile_cons_of_pos (by simpa using hdue),
        List.dropWhile_cons_of_pos (by simpa using hdue), applyEvents_cons]
    · rw [if_neg hdue, List.takeWhile_cons_of_neg (by simpa using hdue),
        List.dropWhile_cons_of_neg (by simpa using hdue), applyEvents_nil]

theorem exec_schDrain (s : State) : exec .schDrain s = .next (schDrain Config.params s) := rfl

/-- Settles O31: the drain is that of the whole queue at the position. -/
theorem drainTakesTheRecordsThatAreDue : Obligations.DrainTakesTheRecordsThatAreDue := by
  intro s
  exact (exec_schDrain s).trans (congrArg Host.Outcome.next (drainRecs_eq_applyEvents ..))

end Sys2Proof.Machine
end

section
/-! SUPPORT. The partition of a block into runs (R205, R217): the render loop against the runs between the offsets. -/

namespace Sys2Proof.Machine

open Sys2Proof.Safety

/-! ### What a run does not read: the queue and the position -/

/-- `s` with another queue and at another position in the block: what sets the render loop apart from the runs. -/
def State.queuedAt (q : Queue) (offset : Idx) (s : State) : State :=
  { s with q := q, sch := { s.sch with offset := offset } }

section
variable (P : Params) (ws : List TargetWrite) (q : Queue) (offset : Idx) (s : State)

@[simp] theorem queuedAt_v : (s.queuedAt q offset).v = s.v := rfl
@[simp] theorem queuedAt_q : (s.queuedAt q offset).q = q := rfl
@[simp] theorem queuedAt_offset : (s.queuedAt q offset).sch.offset = offset := rfl

theorem applyEvent_queuedAt (e : EventRec) :
    applyEvent P e (s.queuedAt q offset) = (applyEvent P e s).queuedAt q offset := by
  have hoff (note : Data7) : applyNoteOff note (s.queuedAt q offset) = (applyNoteOff note s).queuedAt q offset := by
    rw [applyNoteOff_eq, applyNoteOff_eq]
    rfl
  unfold applyEvent
  split
  · split
    · exact hoff _
    · rfl
  split
  · exact hoff _
  split
  · split <;> rfl
  · rfl

theorem applyEvents_queuedAt (recs : List EventRec) :
    applyEvents P recs (s.queuedAt q offset) = (applyEvents P recs s).queuedAt q offset := by
  induction recs generalizing s with
  | nil => rfl
  | cons e recs ih => rw [applyEvents_cons, applyEvent_queuedAt, ih, applyEvents_cons]

theorem writeTarget_queuedAt (w : Smoothed) (x : Num64) :
    writeTarget P w x (s.queuedAt q offset) = (writeTarget P w x s).queuedAt q offset := by
  unfold writeTarget
  cases w <;> (split <;> rfl)

theorem landWrites_queuedAt : landWrites P ws (s.queuedAt q offset) = (landWrites P ws s).queuedAt q offset := by
  induction ws generalizing s with
  | nil => rfl
  | cons w ws ih => exact (congrArg (landWrites P ws) (writeTarget_queuedAt P q offset s ..)).trans (ih _)

theorem voiceFrame_queuedAt (base : Nat) (gate : Bool) :
    voiceFrame P ws base gate (s.queuedAt q offset) = (voiceFrame P ws base gate s).queuedAt q offset := by
  rw [voiceFrame, landBefore, landWrites_queuedAt]
  rfl

theorem voiceFrames_queuedAt (base : Nat) (gate : Bool) (n : Nat) :
    voiceFrames P ws base gate n (s.queuedAt q offset) = (voiceFrames P ws base gate n s).queuedAt q offset := by
  induction n generalizing s with
  | zero => rfl
  | succ n ih => rw [voiceFrames, voiceFrame_queuedAt, ih, voiceFrames]

theorem voiceProcess_queuedAt (base n : Idx) (gate : Bool) :
    voiceProcess P ws base n gate (s.queuedAt q offset) = (voiceProcess P ws base n gate s).queuedAt q offset := by
  have hstart : { s.queuedAt q offset with sch := { (s.queuedAt q offset).sch with i := 0 } } =
      ({ s with sch := { s.sch with i := 0 } } : State).queuedAt q offset := rfl
  rw [voiceProcess_eq_endCall, hstart, voiceFrames_queuedAt]
  rfl

end

/-! ### A queue in order -/

/-- In a list whose members that pass a test stand before the others, the test splits it as a filter does. -/
theorem takeWhile_dropWhile_eq_filter {α : Type} {p : α → Bool} {l : List α}
    (h : l.Pairwise fun x y => p y = true → p x = true) :
    l.takeWhile p = l.filter p ∧ l.dropWhile p = l.filter fun x => !p x := by
  induction l with
  | nil => exact ⟨rfl, rfl⟩
  | cons x l ih =>
    obtain ⟨hx, hl⟩ := List.pairwise_cons.mp h
    obtain ⟨htake, hdrop⟩ := ih hl
    by_cases hp : p x = true
    · simp [hp, htake, hdrop]
    · have hnone : ∀ y ∈ l, ¬p y = true := fun y hy hpy => hp (hx y hy hpy)
      refine ⟨?_, ?_⟩
      · rw [List.takeWhile_cons_of_neg hp, List.filter_cons_of_neg hp, List.filter_eq_nil_iff.mpr hnone]
      · rw [List.dropWhile_cons_of_neg hp, eq_comm, List.filter_eq_self]
        simpa [hp] using hnone

/-- The records at and after a frame: what a queue in order still holds when the loop comes to that frame. -/
def recsFrom (recs : List EventRec) (a : Idx) : List EventRec := recs.filter fun e => decide (a.toNat ≤ e.off.toNat)

/-- R217: `b` is where the run from `a` ends: at the next offset in the queue, or at the end of the block. -/
structure RunEnd (recs : List EventRec) (frameCount a b : Idx) : Prop where
  after : a.toNat < b.toNat
  first : ∀ e ∈ recs, a.toNat < e.off.toNat → b.toNat ≤ e.off.toNat
  stop : b = frameCount ∨ ∃ e ∈ recs, e.off = b

section
variable {recs : List EventRec} {frameCount a b : Idx}

theorem recsFrom_zero (recs : List EventRec) : recsFrom recs 0 = recs := List.filter_eq_self.mpr (by simp)

theorem recsFrom_eq_nil (hq : ∀ e ∈ recs, e.off.toNat < frameCount.toNat) : recsFrom recs frameCount = [] :=
  List.filter_eq_nil_iff.mpr fun e he => by simpa using hq e he

theorem mem_recsFrom {e : EventRec} : e ∈ recsFrom recs a ↔ e ∈ recs ∧ a.toNat ≤ e.off.toNat := by
  simp [recsFrom]

section
variable (hsort : recs.Pairwise fun a b => a.off.toNat ≤ b.off.toNat)
include hsort

/-- R206: in a queue in order, what is due is what the test on the offset finds anywhere in it. -/
theorem recsFrom_split (a : Idx) :
    (recsFrom recs a).takeWhile (fun e => decide (e.off.toNat ≤ a.toNat)) =
        (recsFrom recs a).filter (fun e => decide (e.off.toNat ≤ a.toNat)) ∧
      (recsFrom recs a).dropWhile (fun e => decide (e.off.toNat ≤ a.toNat)) =
        (recsFrom recs a).filter fun e => !decide (e.off.toNat ≤ a.toNat) :=
  takeWhile_dropWhile_eq_filter ((hsort.filter _).imp fun hle hy => by
    simp only [decide_eq_true_eq] at hy ⊢
    exact hle.trans hy)

/-- R217: the records due at a frame are those at that frame. -/
theorem takeWhile_recsFrom (a : Idx) :
    (recsFrom recs a).takeWhile (fun e => decide (e.off.toNat ≤ a.toNat)) =
      recs.filter fun e => decide (e.off = a) := by
  rw [(recsFrom_split hsort a).1, recsFrom, List.filter_filter]
  refine List.filter_congr fun e _ => ?_
  rw [← Bool.decide_and]
  exact decide_eq_decide.mpr (by rw [← BitVec.toNat_inj]; omega)

/-- R217: the records that stay are those from the end of the run on. -/
theorem dropWhile_recsFrom (h : RunEnd recs frameCount a b) :
    (recsFrom recs a).dropWhile (fun e => decide (e.off.toNat ≤ a.toNat)) = recsFrom recs b := by
  rw [(recsFrom_split hsort a).2, recsFrom, List.filter_filter, recsFrom]
  refine List.filter_congr fun e he => ?_
  have hafter := h.after
  have hfirst := h.first e he
  rw [← decide_not, ← Bool.decide_and]
  exact decide_eq_decide.mpr (by omega)

/-- R205: the next offset is the end of the run. -/
theorem nextOffset_recsFrom (hq : ∀ e ∈ recs, e.off.toNat < frameCount.toNat) (h : RunEnd recs frameCount a b)
    (cap : Idx) : nextOffset frameCount { cap := cap, recs := recsFrom recs b } = b := by
  rcases h.stop with rfl | ⟨e, he, rfl⟩
  · rw [recsFrom_eq_nil hq]
    rfl
  · have hmem : e ∈ recsFrom recs e.off := mem_recsFrom.mpr ⟨he, le_rfl⟩
    have hsorted : (recsFrom recs e.off).Pairwise fun a b => a.off.toNat ≤ b.off.toNat := hsort.filter _
    cases hc : recsFrom recs e.off with
    | nil => simp [hc] at hmem
    | cons head rest =>
      have hhead : e.off.toNat ≤ head.off.toNat := (mem_recsFrom.mp (hc ▸ List.mem_cons_self)).2
      rw [hc] at hmem hsorted
      have hle : head.off.toNat ≤ e.off.toNat := by
        rcases List.mem_cons.mp hmem with rfl | hrest
        · exact le_rfl
        · exact (List.pairwise_cons.mp hsorted).1 e hrest
      exact BitVec.eq_of_toNat_eq (le_antisymm hle hhead)

end

/-! ### The offsets after a frame -/

/-- R217: `later` is the distinct offsets after `a`, in order. -/
def offsetsAfter (recs : List EventRec) (a : Idx) (later : List Idx) : Prop :=
  later.Pairwise (fun x y => x.toNat < y.toNat) ∧ ∀ x, x ∈ later ↔ a.toNat < x.toNat ∧ ∃ e ∈ recs, e.off = x

theorem offsetsAfter_zero {later : List Idx} : offsetsAfter recs 0 later ↔ offsetsAbove0 recs later := Iff.rfl

/-- R217: with no offset after `a` the run from there is the last. -/
theorem runEnd_last (h : offsetsAfter recs a []) (ha : a.toNat < frameCount.toNat) :
    RunEnd recs frameCount a frameCount where
  after := ha
  first e he hlt := absurd ((h.2 e.off).mpr ⟨hlt, e, he, rfl⟩) List.not_mem_nil
  stop := .inl rfl

/-- R217: otherwise it ends at the first of them. -/
theorem runEnd_next {later : List Idx} (h : offsetsAfter recs a (b :: later)) : RunEnd recs frameCount a b where
  after := ((h.2 b).mp List.mem_cons_self).1
  first e he hlt := by
    rcases List.mem_cons.mp ((h.2 e.off).mpr ⟨hlt, e, he, rfl⟩) with hb | hlater
    · rw [hb]
    · exact ((List.pairwise_cons.mp h.1).1 _ hlater).le
  stop := .inr ((h.2 b).mp List.mem_cons_self).2

theorem offsetsAfter_next {later : List Idx} (h : offsetsAfter recs a (b :: later)) : offsetsAfter recs b later := by
  obtain ⟨hfirst, hlater⟩ := List.pairwise_cons.mp h.1
  obtain ⟨hab, -⟩ := (h.2 b).mp List.mem_cons_self
  refine ⟨hlater, fun x => ⟨fun hx => ⟨hfirst x hx, ((h.2 x).mp (List.mem_cons_of_mem _ hx)).2⟩, fun ⟨hlt, hx⟩ => ?_⟩⟩
  rcases List.mem_cons.mp ((h.2 x).mpr ⟨hab.trans hlt, hx⟩) with rfl | hmem
  · exact absurd hlt (lt_irrefl _)
  · exact hmem

/-! ### The loop is the runs -/

variable (P : Params) (ws : List TargetWrite) (cap : Idx)

/-- R205: at the end of the block the loop does nothing. -/
theorem schLoop_done (fuel : Nat) (q : Queue) (s : State) :
    schLoop P ws frameCount fuel (s.queuedAt q frameCount) = s.queuedAt q frameCount := by
  cases fuel with
  | zero => rfl
  | succ fuel => rw [schLoop, queuedAt_offset, if_neg (lt_irrefl _)]

variable (hsort : recs.Pairwise fun a b => a.off.toNat ≤ b.off.toNat)
  (hq : ∀ e ∈ recs, e.off.toNat < frameCount.toNat)
include hsort hq

/-- R205, R217: an iteration from `a` is the run from there to its end. -/
theorem schIteration_eq_renderRun (h : RunEnd recs frameCount a b) (s : State) :
    schIteration P ws frameCount (s.queuedAt { cap := cap, recs := recsFrom recs a } a) =
      (renderRun P ws recs a b s).queuedAt { cap := cap, recs := recsFrom recs b } b := by
  have hdrain : schDrain P (s.queuedAt { cap := cap, recs := recsFrom recs a } a) =
      (applyEvents P (recs.filter fun e => decide (e.off = a)) s).queuedAt
        { cap := cap, recs := recsFrom recs b } a := by
    rw [schDrain, queuedAt_q, queuedAt_offset, drainRecs_eq_applyEvents, takeWhile_recsFrom hsort,
      dropWhile_recsFrom hsort h, applyEvents_queuedAt]
    rfl
  rw [schIteration, hdrain, queuedAt_q, queuedAt_offset, nextOffset_recsFrom hsort hq h, queuedAt_v,
    voiceProcess_queuedAt]
  rfl

/-- R205: while the block is not done, the loop does the next run. -/
theorem schLoop_succ_run (ha : a.toNat < frameCount.toNat) (h : RunEnd recs frameCount a b) (fuel : Nat) (s : State) :
    schLoop P ws frameCount (fuel + 1) (s.queuedAt { cap := cap, recs := recsFrom recs a } a) =
      schLoop P ws frameCount fuel ((renderRun P ws recs a b s).queuedAt { cap := cap, recs := recsFrom recs b } b) := by
  rw [schLoop, queuedAt_offset, if_pos ha, schIteration_eq_renderRun P ws cap hsort hq h]

/-- R205, R217: the loop from `a` is the runs that start there and at the offsets after it. -/
theorem schLoop_eq_renderRuns {later : List Idx} (h : offsetsAfter recs a later) (ha : a.toNat < frameCount.toNat)
    {fuel : Nat} (hfuel : frameCount.toNat ≤ a.toNat + fuel) (s : State) :
    schLoop P ws frameCount fuel (s.queuedAt { cap := cap, recs := recsFrom recs a } a) =
      (renderRuns P ws recs frameCount a later s).queuedAt { cap := cap, recs := [] } frameCount := by
  obtain ⟨fuel, rfl⟩ := Nat.exists_eq_succ_of_ne_zero (n := fuel) (by omega)
  induction later generalizing a fuel s with
  | nil =>
    rw [schLoop_succ_run P ws cap hsort hq ha (runEnd_last h ha), schLoop_done, recsFrom_eq_nil hq, renderRuns]
  | cons b later ih =>
    have hend : RunEnd recs frameCount a b := runEnd_next h
    have hafter := hend.after
    obtain ⟨-, e, he, rfl⟩ := (h.2 b).mp List.mem_cons_self
    have hb := hq e he
    obtain ⟨fuel, rfl⟩ := Nat.exists_eq_succ_of_ne_zero (n := fuel) (by omega)
    rw [schLoop_succ_run P ws cap hsort hq ha hend, ih (offsetsAfter_next h) hb _ fuel (by omega), renderRuns]

end

/-! ### The position after the runs -/

section
variable (P : Params) (ws : List TargetWrite) (recs : List EventRec) (s : State)

theorem applyEvents_sch : (applyEvents P recs s).sch = s.sch := by
  induction recs generalizing s with
  | nil => rfl
  | cons e recs ih =>
    obtain ⟨f, i, c, h, he⟩ := applyEvent_eq P e s
    rw [applyEvents_cons, ih, he]

/-- R29: a call leaves the scheduler's registers but for the frame index. -/
theorem voiceProcess_sch (base n : Idx) (gate : Bool) :
    (voiceProcess P ws base n gate s).sch = { s.sch with i := 0 } := by
  obtain ⟨p, l, f, b, o, -, -, h⟩ := voiceProcess_eq P ws base n gate s
  rw [h]

theorem renderRun_sch (a b : Idx) : (renderRun P ws recs a b s).sch = { s.sch with i := 0 } := by
  rw [← applyEvents_sch P (recs.filter fun e => decide (e.off = a)) s]
  exact voiceProcess_sch ..

theorem renderRuns_sch (frameCount a : Idx) (later : List Idx) :
    (renderRuns P ws recs frameCount a later s).sch = { s.sch with i := 0 } := by
  induction later generalizing a s with
  | nil => exact renderRun_sch ..
  | cons b later ih => rw [renderRuns, ih, renderRun_sch]

end

/-- R228: a `RENDER` of at least one frame that passes its checks renders the block. -/
theorem exec_render_ready {frameCount : Idx} {ws : List TargetWrite} {s : State} (hpos : 0 < frameCount.toNat)
    (h : RenderReady frameCount ws s) :
    exec (.render frameCount ws) s = .next (schRender Config.params ws frameCount s) :=
  (execRender_ready frameCount ws s h.between h.rate h.block h.fits h.reached h.values).trans
    (by rw [if_neg hpos.ne'])

/-- Settles O34: the loop starts as the runs do, with the whole queue at position 0. -/
theorem renderIsTheRunsBetweenOffsets : Obligations.RenderIsTheRunsBetweenOffsets := by
  intro frameCount ws later s hpos hready hsort hlater r
  have hloop : schLoop Config.params ws frameCount frameCount.toNat (renderEntry s) =
      r.queuedAt { s.q with recs := [] } frameCount := by
    have h := schLoop_eq_renderRuns Config.params ws s.q.cap hsort (hready.reached hpos)
      (offsetsAfter_zero.mpr hlater) hpos (Nat.le_add_left _ _) { s with out := Memory.poisoned }
    rwa [recsFrom_zero] at h
  have hsch : r.sch = { s.sch with i := 0 } := renderRuns_sch ..
  rw [exec_render_ready hpos hready, schRender, hloop, State.queuedAt, hsch]

end Sys2Proof.Machine
end

section
/-! SUPPORT. The host commands by themselves (R225 to R240): the parameter port, the configuration and the queue. -/

namespace Sys2Proof.Machine

/-! ### How a command is presented (R225 to R229) -/

section
variable {c : Command} {s : State} {a : Answer State}

theorem betweenRenders_idle (h : s.port.during = false) : betweenRenders c s a = a := by
  rw [betweenRenders, h]
  rfl

theorem betweenRenders_during (h : s.port.during = true) : betweenRenders c s a = .fault (.concurrentWrite c) := by
  rw [betweenRenders, h]
  rfl

end

/-! ### The checks of the parameter port (R230) -/

section
variable {id : BitVec 8} {x : Num64} {s next : State}

theorem setSmoothed_value (hx : isFinite x = true) : setSmoothed id x next = .next next := if_pos hx

theorem setSmoothed_nonValue (hx : isFinite x = false) : setSmoothed id x next = .fault (.badOperand id x) :=
  if_neg (Bool.eq_false_iff.mp hx)

theorem setUnsmoothed_nonValue {present : Bool} (hx : isFinite x = false) :
    setUnsmoothed id x present s next = .fault (.badOperand id x) :=
  if_neg (Bool.eq_false_iff.mp hx)

/-- R230: a value set between `RENDER` commands is stored, where the configuration has its unit. -/
theorem setUnsmoothed_idle (hx : isFinite x = true) (hd : s.port.during = false) :
    setUnsmoothed id x true s next = .next next :=
  (if_pos hx).trans (betweenRenders_idle hd)

theorem setUnsmoothed_during {present : Bool} (hx : isFinite x = true) (hd : s.port.during = true) :
    setUnsmoothed id x present s next = .fault (.concurrentWrite (.setp id)) :=
  (if_pos hx).trans (betweenRenders_during hd)

end

/-- Settles O45: a time is converted on its way (R100), a depth is not. -/
theorem timesAndDepthAreStored : Obligations.TimesAndDepthAreStored := by
  intro x s
  refine ⟨rfl, rfl, rfl, rfl, fun hd hx => ⟨?_, ?_, ?_, ?_⟩⟩ <;> exact setUnsmoothed_idle hx hd

/-! ### The other parameters -/

/-- R237: the frequency is all that is written before the first `SETSR`, and before the modulator's rate is set. -/
theorem lfoRate_unset {s : State} (h : s.cfg.srSet = false ∨ s.lfo.srSet = false) (x : Num64) :
    (if s.cfg.srSet then lfoSetFrequency x s.lfo else { s.lfo with freq := x }) = { s.lfo with freq := x } := by
  split
  · rename_i hc
    exact lfoSetFrequency_rateUnset (h.resolve_left (by simp [hc])) x
  · rfl

/-- R239: the enable flag, and the clock where the contour restarts. -/
theorem envEnable_writes (b : Bool) (v : Voice) :
    voiceSetEnvelopeEnabled b v =
      { v with
        envEnabled := b
        noteOnTime := if b = true ∧ v.envEnabled = false ∧ v.heldNote ≠ none then zeroNum else v.noteOnTime } := by
  simp only [voiceSetEnvelopeEnabled_eq, envelopeRestarts_iff]

/-- Settles O46: each command stores what its setter makes of the converted value. -/
theorem setParameterWrites : Obligations.SetParameterWrites := by
  intro x s hd hx
  refine ⟨setSmoothed_value hx, setSmoothed_value hx, setUnsmoothed_idle hx hd, fun hc hl => ?rate, fun hunset => ?kept,
    ?enable, setUnsmoothed_idle hx hd⟩
  case rate =>
    refine (setUnsmoothed_idle hx hd).trans ?_
    rw [if_pos hc, lfoSetFrequency_rateSet hl]
  case kept =>
    refine (setUnsmoothed_idle hx hd).trans ?_
    rw [lfoRate_unset hunset]
  case enable =>
    refine (setUnsmoothed_idle hx hd).trans ?_
    rw [envEnable_writes]
    rfl

/-! ### The sample rate and the block size -/

/-- R225: a sample rate is a finite number above 0. -/
theorem isSampleRate_iff (r : Num64) : isSampleRate r = true ↔ isFinite r = true ∧ numLt zeroNum r = true := by
  rw [isSampleRate, Bool.and_eq_true, Bool.not_eq_true']
  constructor
  · rintro ⟨hpos, hinf⟩
    refine ⟨?_, hpos⟩
    by_contra hfin
    rcases isNaN_or_isInf (Bool.not_eq_true _ ▸ hfin) with h | h
    · simp [numLt, h] at hpos
    · simp [h] at hinf
  · exact fun ⟨hfin, hpos⟩ => ⟨hpos, isInf_of_isFinite hfin⟩

section
variable {s : State} (hd : s.port.during = false)
include hd

theorem exec_setsr_rate {r : Num64} (h : isSampleRate r = true) :
    exec (.setsr r) s = .next { voiceSetSampleRate Config.params r s with cfg := { s.cfg with srSet := true } } :=
  (betweenRenders_idle hd).trans (if_pos h)

theorem exec_setsr_noRate {r : Num64} (h : isSampleRate r = false) :
    exec (.setsr r) s = .fault (.badSampleRate r) :=
  (betweenRenders_idle hd).trans (if_neg (Bool.eq_false_iff.mp h))

theorem exec_setbs (frames : Idx) :
    exec (.setbs frames) s = .next { s with
      sch := { s.sch with blockSize := frames }, q := queueResize s.q frames, cfg := { s.cfg with bsSet := true } } :=
  betweenRenders_idle hd

theorem exec_reset : exec .reset s = .next (voiceReset s) := betweenRenders_idle hd

end

/-- Settles O47: what is no value is found first, and what is no finite number above 0 is no sample rate. -/
theorem nonValuesFault : Obligations.NonValuesFault := by
  intro x s
  refine ⟨fun hx => ⟨setSmoothed_nonValue hx, setSmoothed_nonValue hx, ?_, ?_, ?_, ?_, ?_, ?_, ?_, ?_⟩,
    fun hd hx => exec_setsr_noRate hd ?rate⟩
  case rate =>
    rw [Bool.eq_false_iff, ne_eq, isSampleRate_iff, not_and_or, Bool.not_eq_true, Bool.not_eq_true]
    exact hx
  all_goals exact setUnsmoothed_nonValue hx

/-- Settles O48: the mark is the first test of every command but `SETP`, and of a `SETP` the second. -/
theorem commandsDuringARenderFault : Obligations.CommandsDuringARenderFault := by
  intro s hd
  refine ⟨fun r => betweenRenders_during hd, fun n => betweenRenders_during hd, fun ev off => betweenRenders_during hd,
    fun n ws => betweenRenders_during hd, betweenRenders_during hd, fun x hx => ?setp⟩
  case setp =>
    refine ⟨?_, ?_, ?_, ?_, ?_, ?_, ?_, ?_, ⟨_, setSmoothed_value hx⟩, ⟨_, setSmoothed_value hx⟩⟩
    all_goals exact setUnsmoothed_during hx hd

/-- Settles O20: `RESET` is `VOICE.Reset`. -/
theorem transportResetWrites : Obligations.TransportResetWrites := by
  intro s hd
  exact exec_reset hd

/-- Settles O21: `SETSR` is `VOICE.SetSampleRate` and its own configuration bit. -/
theorem sampleRateChangeWrites : Obligations.SampleRateChangeWrites := by
  intro r s t
  have ht : voiceSetSampleRate Config.params r s = t := rfl
  exact ⟨congrArg Host.Outcome.next ht, fun hd hfin hpos => exec_setsr_rate hd ((isSampleRate_iff r).mpr ⟨hfin, hpos⟩)⟩

/-- R226: a new block size writes the capacity alone of the queue. -/
theorem queueResize_eq (q : Queue) (frames : Idx) :
    queueResize q frames = { q with cap := (queueResize q frames).cap } := by
  unfold queueResize
  split <;> rfl

/-- Settles O41: the new capacity is that of the resized queue. -/
theorem setBlockSizeWrites : Obligations.SetBlockSizeWrites := by
  intro frames s hd
  refine ⟨(queueResize s.q frames).cap, ?_, queueResize_cap s.q frames⟩
  rw [exec_setbs hd, ← queueResize_eq]

/-! ### The queue -/

theorem isMalformed_iff (ev : BitVec 24) : isMalformed ev = true ↔ evReserved15 ev = true ∨ evReserved7 ev = true := by
  rw [isMalformed, Bool.or_eq_true]

theorem breaksOrder_iff (q : Queue) (off : Idx) :
    breaksOrder q off = true ↔ ∃ last, q.recs.getLast? = some last ∧ off.toNat < last.off.toNat := by
  unfold breaksOrder queueTailOff
  cases q.recs.getLast? <;> simp

/-- R227: the checks of an `ENQ` presented between `RENDER` commands, in their order. -/
theorem exec_enq {s : State} (hd : s.port.during = false) (ev : BitVec 24) (off : Idx) :
    exec (.enq ev off) s =
      if !s.cfg.bsSet then .fault (.notConfigured .enq)
      else if isMalformed ev then .refused (.malformedEvent ev)
      else if s.sch.blockSize.toNat ≤ off.toNat then .fault (.eventOffsetOutOfRange off)
      else if breaksOrder s.q off then .fault (.eventOrderViolation off)
      else if s.q.cap.toNat ≤ s.q.recs.length then .fault (.queueOverflow s.q.recs.length)
      else .next { s with q := queuePush s.q (recordOf ev off) } :=
  betweenRenders_idle hd

/-- Settles O42: each clause passes the checks before its own. -/
theorem enqueuePushesOrStops : Obligations.EnqueuePushesOrStops := by
  intro ev off s hd reserved early
  have hreserved : isMalformed ev = true ↔ reserved := isMalformed_iff ev
  have hearly : breaksOrder s.q off = true ↔ early := breaksOrder_iff s.q off
  rw [← hreserved, ← hearly]
  refine ⟨fun hb hm ho hord hroom => ?pushed, fun hb => ?unset, fun hb hm => ?malformed, fun hb hm ho => ?range,
    fun hb hm ho hord => ?order, fun hb hm ho hord hfull => ?full⟩
  case pushed => exact execEnq_pushes hd hb (Bool.eq_false_iff.mpr hm) ho (Bool.eq_false_iff.mpr hord) hroom
  all_goals rw [exec_enq hd]
  case unset => simp [hb]
  case malformed => simp [hb, hm]
  case range => simp [hb, hm, ho]
  case order => simp [hb, hm, Nat.not_le.mpr ho, hord]
  case full => simp [hb, hm, Nat.not_le.mpr ho, hord, hfull]

end Sys2Proof.Machine
end

section
/-! SUPPORT. What a `RENDER` answers (R228), check by check, and what it leaves alone (R62, R266). -/

namespace Sys2Proof.Safety

open Sys2Proof.Machine

variable {frameCount : Idx} {ws : List TargetWrite} {s : State}

/-- R228: a `RENDER` that is ready completes. -/
theorem RenderReady.exec (h : RenderReady frameCount ws s) :
    exec (.render frameCount ws) s =
      .next (if frameCount.toNat = 0 then landAfter Config.params ws 0 s
        else schRender Config.params ws frameCount s) :=
  execRender_ready frameCount ws s h.between h.rate h.block h.fits h.reached h.values

/-- R228: a `RENDER` that is ready is ready with fewer writes. -/
theorem RenderReady.fewer (h : RenderReady frameCount ws s) {ws' : List TargetWrite} (hsub : ws' ⊆ ws) :
    RenderReady frameCount ws' s :=
  { h with values := fun w hw => h.values w (hsub hw) }

/-- R228, R230: the `SETP` of a target leaves what a `RENDER` checks. -/
theorem RenderReady.target (h : RenderReady frameCount ws s) (P : Params) (w : Smoothed) (x : Num64) :
    RenderReady frameCount ws (writeTarget P w x s) where
  between := by rw [writeTarget_port]; exact h.between
  rate := by rw [writeTarget_cfg]; exact h.rate
  block := by rw [writeTarget_cfg]; exact h.block
  fits := by rw [writeTarget_sch]; exact h.fits
  reached := by rw [writeTarget_q]; exact h.reached
  values := h.values

end Sys2Proof.Safety

namespace Sys2Proof.Machine

open Sys2Proof.Safety

/-! ### The checks of a `RENDER` -/

section
variable {frameCount : Idx} {ws : List TargetWrite} {s : State} (hd : s.port.during = false)
include hd

theorem exec_render_notConfigured (h : ¬(s.cfg.srSet = true ∧ s.cfg.bsSet = true)) :
    exec (.render frameCount ws) s = .fault (.notConfigured .render) := by
  have hc : (!s.cfg.srSet || !s.cfg.bsSet) = true := by
    rw [← Bool.not_and, Bool.not_eq_true', ← Bool.not_eq_true, Bool.and_eq_true]
    exact h
  exact (betweenRenders_idle hd).trans (if_pos hc)

variable (hc : s.cfg.srSet = true ∧ s.cfg.bsSet = true)
include hc

/-- R228: the checks that follow, of a configured core. -/
theorem exec_render_configured :
    exec (.render frameCount ws) s =
      if s.sch.blockSize.toNat < frameCount.toNat then .fault (.frameCountExceedsBlockSize frameCount)
      else if frameCount.toNat = 0 then renderBlock frameCount ws s
      else match recordBeyond s.q frameCount with
        | some e => .fault (.eventBeyondFrameCount e.status e.data1 e.data2 e.off)
        | none => renderBlock frameCount ws s := by
  have hset : (!s.cfg.srSet || !s.cfg.bsSet) = false := by rw [hc.1, hc.2]; rfl
  exact (betweenRenders_idle hd).trans (if_neg (by rw [hset]; exact Bool.false_ne_true))

theorem exec_render_exceeds (h : s.sch.blockSize.toNat < frameCount.toNat) :
    exec (.render frameCount ws) s = .fault (.frameCountExceedsBlockSize frameCount) := by
  rw [exec_render_configured hd hc, if_pos h]

variable (hfits : frameCount.toNat ≤ s.sch.blockSize.toNat)
include hfits

theorem exec_render_beyond (hpos : 0 < frameCount.toNat) {e : EventRec}
    (h : recordBeyond s.q frameCount = some e) :
    exec (.render frameCount ws) s = .fault (.eventBeyondFrameCount e.status e.data1 e.data2 e.off) := by
  rw [exec_render_configured hd hc, if_neg (Nat.not_lt.mpr hfits), if_neg hpos.ne', h]

/-- R228: past the entry checks the block is next. -/
theorem exec_render_entered (hq : 0 < frameCount.toNat → ∀ e ∈ s.q.recs, e.off.toNat < frameCount.toNat) :
    exec (.render frameCount ws) s = renderBlock frameCount ws s := by
  rw [exec_render_configured hd hc, if_neg (Nat.not_lt.mpr hfits)]
  split
  · rfl
  · rename_i h0
    have hnone : recordBeyond s.q frameCount = none :=
      List.find?_eq_none.mpr fun e he => by simpa using hq (Nat.pos_of_ne_zero h0) e he
    rw [hnone]

end

theorem recordBeyond_eq_some {q : Queue} {frameCount : Idx} {before after : List EventRec} {e : EventRec}
    (hq : q.recs = before ++ e :: after) (hbefore : ∀ a ∈ before, a.off.toNat < frameCount.toNat)
    (he : frameCount.toNat ≤ e.off.toNat) : recordBeyond q frameCount = some e :=
  List.find?_eq_some_iff_append.mpr ⟨by simpa using he, before, after, hq, by simpa using hbefore⟩

theorem badWrite_eq_some {before after : List TargetWrite} {w : TargetWrite}
    (hbefore : ∀ a ∈ before, isValue a.value = true) (hw : isValue w.value = false) :
    badWrite (before ++ w :: after) = some w :=
  List.find?_eq_some_iff_append.mpr ⟨by simpa using hw, before, after, rfl, by simpa using hbefore⟩

/-- Settles O44: the checks in their order; a bad write is met behind the entry checks (log entry 14). -/
theorem renderCompletesOrFaults : Obligations.RenderCompletesOrFaults := by
  intro frameCount ws s hd ready
  refine ⟨fun h => ⟨_, h.exec⟩, fun hc => ?empty, exec_render_notConfigured hd, fun hc => exec_render_exceeds hd hc,
    fun hc hfits hpos before e after hq hbefore he =>
      exec_render_beyond hd hc hfits hpos (recordBeyond_eq_some hq hbefore he),
    fun hc hfits hq before w after hws hbefore hw => ?badWrite⟩
  case empty =>
    have hready : RenderReady 0 [] s := ⟨hd, hc.1, hc.2, Nat.zero_le _, fun h => absurd h (lt_irrefl _), by simp⟩
    exact hready.exec
  case badWrite =>
    rw [exec_render_entered hd hc hfits hq, renderBlock, hws, badWrite_eq_some hbefore hw]
    rfl

/-! ### What a `RENDER` leaves alone -/

/-- What a block without events leaves (R266): the held note, the frequency and the increment. -/
structure NoteKept (s t : State) : Prop where
  empty : t.q.recs = []
  held : t.v.heldNote = s.v.heldNote
  freq : t.osc.freq = s.osc.freq
  inc : t.osc.inc = s.osc.inc

/-- R206: a drain of an empty queue does nothing. -/
theorem schDrain_of_empty (P : Params) {s : State} (h : s.q.recs = []) : schDrain P s = s := by
  rw [schDrain, h]
  change { s with q := { s.q with recs := [] } } = s
  rw [← h]

section
variable {s t : State} (h : NoteKept s t) (P : Params) (ws : List TargetWrite)
include h

theorem NoteKept.iteration (frameCount : Idx) : NoteKept s (schIteration P ws frameCount t) := by
  obtain ⟨p, l, f, b, o, -, -, hp⟩ := voiceProcess_eq P ws t.sch.offset (nextOffset frameCount t.q - t.sch.offset)
    (gateOf P t.v) t
  simp only [schIteration, schDrain_of_empty P h.empty, hp]
  exact ⟨h.empty, h.held, h.freq, h.inc⟩

theorem NoteKept.land : NoteKept s (landWrites P ws t) where
  empty := by rw [landWrites_q]; exact h.empty
  held := by rw [landWrites_v]; exact h.held
  freq := by rw [landWrites_osc]; exact h.freq
  inc := by rw [landWrites_osc]; exact h.inc

end

theorem NoteKept.render (P : Params) (ws : List TargetWrite) (frameCount : Idx) {s : State} (h : s.q.recs = []) :
    NoteKept s (schRender P ws frameCount s) := by
  have hloop := schLoop_induction P ws frameCount (NoteKept s) (fun _ h _ => h.iteration P ws frameCount)
    frameCount.toNat (renderEntry s) ⟨h, rfl, rfl, rfl⟩
  have hcopied : NoteKept s { schLoop P ws frameCount frameCount.toNat (renderEntry s) with
      out := copyChannels P frameCount (schLoop P ws frameCount frameCount.toNat (renderEntry s)).out } :=
    ⟨hloop.empty, hloop.held, hloop.freq, hloop.inc⟩
  exact hcopied.land P _

theorem NoteKept.completed (frameCount : Idx) (ws : List TargetWrite) {s : State} (h : s.q.recs = []) :
    NoteKept s
      (if frameCount.toNat = 0 then landAfter Config.params ws 0 s else schRender Config.params ws frameCount s) := by
  split
  · exact NoteKept.land ⟨h, rfl, rfl, rfl⟩ ..
  · exact .render _ ws frameCount h

/-- What a block without target writes leaves (R195, R266): the resonance target and the base cutoff. -/
structure TargetsKept (s t : State) : Prop where
  resonance : t.flt.resTgt = s.flt.resTgt
  base : t.v.baseCut = s.v.baseCut

theorem TargetsKept.iteration {s t : State} (h : TargetsKept s t) (P : Params) (frameCount : Idx) :
    TargetsKept s (schIteration P [] frameCount t) := by
  obtain ⟨f, i, c, n, hd⟩ := drainRecs_eq P t.sch.offset t.q.recs t
  have hflt : (schDrain P t).flt = t.flt := by rw [schDrain, hd]
  have hbase : (schDrain P t).v.baseCut = t.v.baseCut := by rw [schDrain, hd]
  obtain ⟨hb, hr⟩ := voiceProcess_targets P (schDrain P t).sch.offset
    (nextOffset frameCount (schDrain P t).q - (schDrain P t).sch.offset) (gateOf P (schDrain P t).v) (schDrain P t)
  exact ⟨hr.trans (by rw [hflt, h.resonance]), hb.trans (hbase.trans h.base)⟩

theorem TargetsKept.completed (frameCount : Idx) (s : State) :
    TargetsKept s
      (if frameCount.toNat = 0 then landAfter Config.params [] 0 s else schRender Config.params [] frameCount s) := by
  split
  · exact ⟨rfl, rfl⟩
  · have hloop := schLoop_induction Config.params [] frameCount (TargetsKept s)
      (fun _ h _ => h.iteration Config.params frameCount) frameCount.toNat (renderEntry s) ⟨rfl, rfl⟩
    exact ⟨hloop.resonance, hloop.base⟩

/-- Settles O36: the loop's own frame, and the two further ones of a block without events and without target writes. -/
theorem renderFrame : Obligations.RenderFrame := by
  intro frameCount ws s hready
  have hkeeps := RenderKeeps.completed frameCount ws s
  refine ⟨_, hready.exec, hkeeps.env, hkeeps.cfg, hkeeps.faults, hkeeps.res, hkeeps.port, hkeeps.cap, hkeeps.block,
    (congrArg Osc.sr hkeeps.osc :), hkeeps.lfo, hkeeps.factor, hkeeps.rate, (congrArg Voice.envEnabled hkeeps.voice :),
    (congrArg Voice.bypass hkeeps.voice :), (congrArg Voice.sr hkeeps.voice :), fun hrecs => ?note, fun hws => ?targets⟩
  case note =>
    obtain ⟨-, hheld, hfreq, hinc⟩ := NoteKept.completed frameCount ws hrecs
    exact ⟨hheld, hfreq, hinc⟩
  case targets =>
    obtain ⟨hres, hbase⟩ := hws ▸ TargetsKept.completed frameCount s
    exact ⟨hres, hbase⟩

end Sys2Proof.Machine
end

section
/-! SUPPORT. The held note under an enabled envelope (R212, R323): a block carries it along and lets nothing depend on
it. -/

namespace Sys2Proof.Machine

open Sys2Proof.Safety

/-- `s` with another note held. -/
def State.holding (note : Option Data7) (s : State) : State := { s with v := { s.v with heldNote := note } }

@[simp] theorem holding_q (note : Option Data7) (s : State) : (s.holding note).q = s.q := rfl
@[simp] theorem holding_sch (note : Option Data7) (s : State) : (s.holding note).sch = s.sch := rfl

theorem renderEntry_holding (note : Option Data7) (s : State) :
    renderEntry (s.holding note) = (renderEntry s).holding note := rfl

/-- R212: an enabled envelope decides the gate without the held note. -/
theorem gateOf_holding {P : Params} {s : State} (henv : envelopeOn P s.v = true) (note : Option Data7) :
    gateOf P (s.holding note).v = gateOf P s.v := by
  have henv' : envelopeOn P (s.holding note).v = true := henv
  rw [gateOf, gateOf, henv, henv', Bool.or_true, Bool.or_true]
  rfl

/-! ### Events and the drain -/

/-- R210: the held note after a `NOTE_OFF`. -/
def heldAfterOff (note : Data7) (held : Option Data7) : Option Data7 := if held = some note then none else held

theorem applyNoteOff_holding (note : Data7) (s : State) :
    applyNoteOff note s = s.holding (heldAfterOff note s.v.heldNote) := applyNoteOff_eq note s

/-- R207 to R214: an event starts its note in every state, or puts the held note through one map in every state. -/
theorem applyEvent_uniform (P : Params) (e : EventRec) :
    (∀ s, applyEvent P e s = applyNoteOn P e.data1 s) ∨
      ∃ held : Option Data7 → Option Data7, ∀ s, applyEvent P e s = s.holding (held s.v.heldNote) := by
  unfold applyEvent
  by_cases h9 : e.status = 0x9
  · by_cases h0 : e.data2 = 0
    · exact .inr ⟨_, fun s => by rw [if_pos h9, if_pos h0, applyNoteOff_holding]⟩
    · exact .inl fun s => by rw [if_pos h9, if_neg h0]
  by_cases h8 : e.status = 0x8
  · exact .inr ⟨_, fun s => by rw [if_neg h9, if_pos h8, applyNoteOff_holding]⟩
  by_cases hB : e.status = 0xB
  · by_cases h123 : e.data1 = 123
    · exact .inr ⟨fun _ => none, fun s => by rw [if_neg h9, if_neg h8, if_pos hB, if_pos h123]; rfl⟩
    · exact .inr ⟨id, fun s => by rw [if_neg h9, if_neg h8, if_pos hB, if_neg h123]; rfl⟩
  · exact .inr ⟨id, fun s => by rw [if_neg h9, if_neg h8, if_neg hB]; rfl⟩

section
variable (P : Params) (s : State)

/-- R207 to R211: an event writes the held note, or leaves it, and reads it for nothing else. -/
theorem applyEvent_holding (e : EventRec) (note : Option Data7) :
    ∃ note', applyEvent P e (s.holding note) = (applyEvent P e s).holding note' := by
  rcases applyEvent_uniform P e with hon | ⟨held, hheld⟩
  · rw [hon, hon]
    exact ⟨some e.data1, rfl⟩
  · rw [hheld, hheld]
    exact ⟨held note, rfl⟩

theorem applyEvents_holding (recs : List EventRec) (note : Option Data7) :
    ∃ note', applyEvents P recs (s.holding note) = (applyEvents P recs s).holding note' := by
  induction recs generalizing s note with
  | nil => exact ⟨note, rfl⟩
  | cons e recs ih =>
    obtain ⟨note', he⟩ := applyEvent_holding P s e note
    rw [applyEvents_cons, he]
    exact ih _ note'

theorem schDrain_holding (note : Option Data7) :
    ∃ note', schDrain P (s.holding note) = (schDrain P s).holding note' := by
  obtain ⟨note', h⟩ := applyEvents_holding P s
    (s.q.recs.takeWhile fun e => decide (e.off.toNat ≤ s.sch.offset.toNat)) note
  refine ⟨note', ?_⟩
  rw [schDrain, schDrain, drainRecs_eq_applyEvents, drainRecs_eq_applyEvents, holding_q, holding_sch, h]
  rfl

end

/-! ### Frames -/

section
variable (P : Params) (ws : List TargetWrite) (note : Option Data7) (s : State)

theorem writeTarget_holding (w : Smoothed) (x : Num64) :
    writeTarget P w x (s.holding note) = (writeTarget P w x s).holding note := by
  unfold writeTarget
  cases w <;> (split <;> rfl)

theorem landWrites_holding : landWrites P ws (s.holding note) = (landWrites P ws s).holding note := by
  induction ws generalizing s with
  | nil => rfl
  | cons w ws ih => exact (congrArg (landWrites P ws) (writeTarget_holding P note s ..)).trans (ih _)

/-- R195: a frame takes its gate as given and does not read the held note. -/
theorem voiceFrame_holding (base : Nat) (gate : Bool) :
    voiceFrame P ws base gate (s.holding note) = (voiceFrame P ws base gate s).holding note := by
  rw [voiceFrame, landBefore, landWrites_holding]
  rfl

theorem voiceFrames_holding (base : Nat) (gate : Bool) (n : Nat) :
    voiceFrames P ws base gate n (s.holding note) = (voiceFrames P ws base gate n s).holding note := by
  induction n generalizing s with
  | zero => rfl
  | succ n ih => rw [voiceFrames, voiceFrame_holding, ih, voiceFrames]

theorem voiceProcess_holding (base n : Idx) (gate : Bool) :
    voiceProcess P ws base n gate (s.holding note) = (voiceProcess P ws base n gate s).holding note :=
  congrArg (endCall n) (voiceFrames_holding P ws note { s with sch := { s.sch with i := 0 } } base.toNat gate n.toNat)

end

/-! ### The block -/

section
variable {P : Params} (ws : List TargetWrite) (frameCount : Idx) {s : State} (henv : envelopeOn P s.v = true)
include henv

theorem schIteration_holding (note : Option Data7) :
    ∃ note', schIteration P ws frameCount (s.holding note) = (schIteration P ws frameCount s).holding note' := by
  obtain ⟨note', hd⟩ := schDrain_holding P s note
  have hon : envelopeOn P (schDrain P s).v = true := by
    rw [(RenderKeeps.drain P s).voice]
    exact henv
  refine ⟨note', ?_⟩
  rw [schIteration, hd, gateOf_holding hon, holding_q, holding_sch, voiceProcess_holding]
  rfl

theorem schLoop_holding (fuel : Nat) (note : Option Data7) :
    ∃ note', schLoop P ws frameCount fuel (s.holding note) = (schLoop P ws frameCount fuel s).holding note' := by
  induction fuel generalizing s note with
  | zero => exact ⟨note, rfl⟩
  | succ fuel ih =>
    unfold schLoop
    rw [holding_sch]
    split
    · obtain ⟨note', hiter⟩ := schIteration_holding ws frameCount henv note
      rw [hiter]
      refine ih ?_ note'
      rw [(RenderKeeps.iteration P ws frameCount s).voice]
      exact henv
    · exact ⟨note, rfl⟩

theorem schRender_holding (note : Option Data7) :
    ∃ note', schRender P ws frameCount (s.holding note) = (schRender P ws frameCount s).holding note' := by
  obtain ⟨note', hloop⟩ := schLoop_holding ws frameCount (s := renderEntry s) henv frameCount.toNat note
  rw [schRender, schRender, renderEntry_holding, hloop]
  generalize schLoop P ws frameCount frameCount.toNat (renderEntry s) = t
  exact ⟨note', landWrites_holding P _ note' { t with out := copyChannels P frameCount t.out }⟩

end

/-- Settles O40: every frame's gate is decided by the envelope, so the two blocks differ as their states did. -/
theorem heldNoteIsInaudibleUnderTheEnvelope : Obligations.HeldNoteIsInaudibleUnderTheEnvelope := by
  intro frameCount ws s note henv hready
  have hready' : RenderReady frameCount ws (s.holding note) :=
    ⟨hready.between, hready.rate, hready.block, hready.fits, hready.reached, hready.values⟩
  have hblock : ∃ note',
      (if frameCount.toNat = 0 then landAfter Config.params ws 0 (s.holding note)
        else schRender Config.params ws frameCount (s.holding note)) =
      State.holding note'
        (if frameCount.toNat = 0 then landAfter Config.params ws 0 s else schRender Config.params ws frameCount s) := by
    split
    · exact ⟨note, landWrites_holding ..⟩
    · exact schRender_holding ws frameCount (P := Config.params) henv note
  obtain ⟨note', h⟩ := hblock
  refine ⟨_, _, hready.exec, hready'.exec, ?_⟩
  rw [h]
  rfl

end Sys2Proof.Machine
end

section
/-! SUPPORT. The concurrent writes of a `RENDER` (R72, R228): which of its list a frame reads, a write before frame 0
and a write after the last frame. -/

namespace Sys2Proof.Machine

open Sys2Proof.Safety

/-! ### A target write beside the other registers -/

section
variable (P : Params) (w : Smoothed) (x : Num64) (s : State)

/-- R231, R232: a target write neither reads nor writes the scheduler, the queue and the output memory. -/
theorem writeTarget_blind (sch : Sch) (q : Queue) (out : Memory) :
    writeTarget P w x { s with sch := sch, q := q, out := out } =
      { writeTarget P w x s with sch := sch, q := q, out := out } := by
  unfold writeTarget
  cases w <;> (split <;> rfl)

theorem gateOf_writeTarget : gateOf P (writeTarget P w x s).v = gateOf P s.v := by
  rw [writeTarget_v]
  rfl

/-- R207: an event and a target write may change places. -/
theorem applyEvent_writeTarget (e : EventRec) :
    applyEvent P e (writeTarget P w x s) = writeTarget P w x (applyEvent P e s) := by
  rcases applyEvent_uniform P e with hon | ⟨held, hheld⟩
  · rw [hon, hon]
    unfold writeTarget
    cases w <;> (split <;> rfl)
  · rw [hheld, hheld, writeTarget_holding, writeTarget_v]

theorem applyEvents_writeTarget (recs : List EventRec) :
    applyEvents P recs (writeTarget P w x s) = writeTarget P w x (applyEvents P recs s) := by
  induction recs generalizing s with
  | nil => rfl
  | cons e recs ih => rw [applyEvents_cons, applyEvent_writeTarget, ih, applyEvents_cons]

/-- R206: so may the drain. -/
theorem schDrain_writeTarget : schDrain P (writeTarget P w x s) = writeTarget P w x (schDrain P s) := by
  generalize hd : applyEvents P (s.q.recs.takeWhile fun e => decide (e.off.toNat ≤ s.sch.offset.toNat)) s = d
  have hblind := writeTarget_blind P w x d d.sch
    { s.q with recs := s.q.recs.dropWhile fun e => decide (e.off.toNat ≤ s.sch.offset.toNat) } d.out
  rw [schDrain, schDrain, writeTarget_q, writeTarget_sch, drainRecs_eq_applyEvents, drainRecs_eq_applyEvents,
    applyEvents_writeTarget, hd, hblind, writeTarget_q, ← writeTarget_sch P w x d, ← writeTarget_out P w x d]

end

/-! ### The writes a frame reads -/

/-- R228: the writes of two lists that land before any frame from `lo` up to `hi` are the same, in the same order. -/
def SameWrites (ws ws' : List TargetWrite) (lo hi : Nat) : Prop :=
  ∀ k, lo ≤ k → k < hi →
    ws.filter (fun w => decide (w.frame.toNat = k)) = ws'.filter fun w => decide (w.frame.toNat = k)

theorem SameWrites.within {ws ws' : List TargetWrite} {lo hi lo' hi' : Nat} (h : SameWrites ws ws' lo hi)
    (hlo : lo ≤ lo') (hhi : hi' ≤ hi) : SameWrites ws ws' lo' hi' :=
  fun k h1 h2 => h k (hlo.trans h1) (h2.trans_le hhi)

section
variable {ws ws' : List TargetWrite} (P : Params)

theorem SameWrites.frame {base : Nat} {s : State}
    (h : SameWrites ws ws' (base + s.sch.i.toNat) (base + s.sch.i.toNat + 1)) (gate : Bool) :
    voiceFrame P ws base gate s = voiceFrame P ws' base gate s := by
  rw [voiceFrame, voiceFrame, landBefore, landBefore, h _ le_rfl (Nat.lt_succ_self _)]

theorem SameWrites.frames {base n : Nat} {s : State} (hi : s.sch.i.toNat + n < 2 ^ 32)
    (h : SameWrites ws ws' (base + s.sch.i.toNat) (base + s.sch.i.toNat + n)) (gate : Bool) :
    voiceFrames P ws base gate n s = voiceFrames P ws' base gate n s := by
  induction n generalizing s with
  | zero => rfl
  | succ n ih =>
    have hnext : (voiceFrame P ws' base gate s).sch.i.toNat = s.sch.i.toNat + 1 := by
      rw [voiceFrame_sch]
      exact toNat_next_index (by omega)
    rw [voiceFrames, voiceFrames, (h.within le_rfl (by omega)).frame P gate]
    exact ih (by omega) (h.within (by omega) (by omega))

/-- R195: a call reads the writes placed before its own frames. -/
theorem SameWrites.process {base n : Idx} (h : SameWrites ws ws' base.toNat (base.toNat + n.toNat)) (gate : Bool)
    (s : State) : voiceProcess P ws base n gate s = voiceProcess P ws' base n gate s := by
  have hn := n.isLt
  have hframes := SameWrites.frames P (base := base.toNat) (n := n.toNat) (s := { s with sch := { s.sch with i := 0 } })
    (by change 0 + n.toNat < _; omega) h gate
  rw [voiceProcess_eq_endCall, voiceProcess_eq_endCall, hframes]

variable {frameCount : Idx} {s : State}

/-- R205: an iteration ends its call where it leaves the position. -/
theorem iteration_call_end (hq : ∀ e ∈ s.q.recs, e.off.toNat < frameCount.toNat)
    (hlt : s.sch.offset.toNat < frameCount.toNat) :
    0 < (nextOffset frameCount (schDrain P s).q - s.sch.offset).toNat ∧
      s.sch.offset.toNat + (nextOffset frameCount (schDrain P s).q - s.sch.offset).toNat ≤ frameCount.toNat := by
  obtain ⟨hforward, hend, -, -⟩ := schIteration_advances P [] frameCount s hq hlt
  change s.sch.offset.toNat < (nextOffset frameCount (schDrain P s).q).toNat at hforward
  change (nextOffset frameCount (schDrain P s).q).toNat ≤ _ at hend
  rw [BitVec.toNat_sub_of_le (Nat.le_of_lt hforward)]
  omega

theorem SameWrites.iteration (h : SameWrites ws ws' s.sch.offset.toNat frameCount.toNat)
    (hq : ∀ e ∈ s.q.recs, e.off.toNat < frameCount.toNat) (hlt : s.sch.offset.toNat < frameCount.toNat) :
    schIteration P ws frameCount s = schIteration P ws' frameCount s := by
  have hcall := (h.within le_rfl (iteration_call_end P hq hlt).2).process P (gateOf P (schDrain P s).v) (schDrain P s)
  rw [schIteration, schIteration, schDrain_sch, hcall]

/-- R205: the loop reads the writes placed from its position up to the end of the block. -/
theorem SameWrites.loop (h : SameWrites ws ws' s.sch.offset.toNat frameCount.toNat)
    (hq : ∀ e ∈ s.q.recs, e.off.toNat < frameCount.toNat) (fuel : Nat) :
    schLoop P ws frameCount fuel s = schLoop P ws' frameCount fuel s := by
  induction fuel generalizing s with
  | zero => rfl
  | succ fuel ih =>
    unfold schLoop
    split
    · rename_i hlt
      obtain ⟨hforward, -, hrecs, -⟩ := schIteration_advances P ws' frameCount s hq hlt
      rw [h.iteration P hq hlt, ih (h.within (Nat.le_of_lt hforward) le_rfl) hrecs]
    · rfl

end

/-! ### A write after the last frame -/

section
variable (P : Params) {frameCount : Idx} {w : TargetWrite} (hw : w.frame = frameCount) (ws : List TargetWrite)
  (s : State)
include hw

theorem sameWrites_last : SameWrites (ws ++ [w]) ws 0 frameCount.toNat := by
  intro k _ hk
  have hne : w.frame.toNat ≠ k := hw ▸ hk.ne'
  simp [hne]

/-- R228: it lands after every other write. -/
theorem landAfter_last :
    landAfter P (ws ++ [w]) frameCount.toNat s = writeTarget P w.target w.value (landAfter P ws frameCount.toNat s) := by
  simp [landAfter, landWrites, hw]

theorem schRender_last (hq : ∀ e ∈ s.q.recs, e.off.toNat < frameCount.toNat) :
    schRender P (ws ++ [w]) frameCount s = writeTarget P w.target w.value (schRender P ws frameCount s) := by
  have hloop := (sameWrites_last hw ws).loop P (s := renderEntry s) hq frameCount.toNat
  rw [schRender, hloop, landAfter_last P hw]
  rfl

end

/-! ### A write before frame 0 -/

section
variable (P : Params) {w : TargetWrite} (hw : w.frame = 0) (ws : List TargetWrite)
include hw

/-- R228: no later frame reads it. -/
theorem sameWrites_first (hi : Nat) : SameWrites (w :: ws) ws 1 hi := by
  intro k hk _
  refine List.filter_cons_of_neg ?_
  simp only [hw, decide_eq_true_eq]
  exact (Nat.pos_of_ne_zero (by omega)).ne

/-- R72: of the frames from index 0 on, the first starts with it. -/
theorem voiceFrames_first {n : Nat} (hn : n + 1 < 2 ^ 32) (gate : Bool) {s : State} (hi : s.sch.i = 0) :
    voiceFrames P (w :: ws) 0 gate (n + 1) s =
      voiceFrames P ws 0 gate (n + 1) (writeTarget P w.target w.value s) := by
  have hframe : voiceFrame P (w :: ws) 0 gate s = voiceFrame P ws 0 gate (writeTarget P w.target w.value s) := by
    simp [voiceFrame, landBefore, landWrites, hi, hw]
  have hnext : (voiceFrame P (w :: ws) 0 gate s).sch.i.toNat = 1 := by
    rw [voiceFrame_sch, hi]
    rfl
  rw [voiceFrames, voiceFrames, ← hframe]
  refine SameWrites.frames P (by omega) ?_ gate
  rw [hnext]
  exact sameWrites_first hw ws _

/-- R72: so does a call that starts the block. -/
theorem voiceProcess_first {n : Idx} (hn : 0 < n.toNat) (gate : Bool) (s : State) :
    voiceProcess P (w :: ws) 0 n gate s = voiceProcess P ws 0 n gate (writeTarget P w.target w.value s) := by
  obtain ⟨m, hm⟩ : ∃ m, n.toNat = m + 1 := Nat.exists_eq_succ_of_ne_zero hn.ne'
  have hlt := n.isLt
  have hframes := voiceFrames_first P hw ws (n := m) (by omega) gate
    (s := { s with sch := { s.sch with i := 0 } }) rfl
  have hblind := writeTarget_blind P w.target w.value s { s.sch with i := 0 } s.q s.out
  rw [hblind, ← hm] at hframes
  rw [voiceProcess_eq_endCall, voiceProcess_eq_endCall, writeTarget_sch]
  refine congrArg (endCall n) (hframes.trans ?_)
  rw [← writeTarget_q P w.target w.value s, ← writeTarget_out P w.target w.value s]
  rfl

variable {frameCount : Idx} {s : State}

/-- R205: and the first iteration, whose events do not see it. -/
theorem schIteration_first (hoff : s.sch.offset = 0) (hq : ∀ e ∈ s.q.recs, e.off.toNat < frameCount.toNat)
    (hpos : 0 < frameCount.toNat) :
    schIteration P (w :: ws) frameCount s = schIteration P ws frameCount (writeTarget P w.target w.value s) := by
  have hcall := (iteration_call_end P hq (by rwa [hoff])).1
  rw [hoff] at hcall
  rw [schIteration, schIteration, schDrain_writeTarget, gateOf_writeTarget, writeTarget_q, writeTarget_sch, schDrain_sch,
    hoff, voiceProcess_first P hw ws hcall]

/-- R205: and the loop from position 0. -/
theorem schLoop_first (hoff : s.sch.offset = 0) (hq : ∀ e ∈ s.q.recs, e.off.toNat < frameCount.toNat)
    (hpos : 0 < frameCount.toNat) {fuel : Nat} (hfuel : 0 < fuel) :
    schLoop P (w :: ws) frameCount fuel s = schLoop P ws frameCount fuel (writeTarget P w.target w.value s) := by
  obtain ⟨m, rfl⟩ : ∃ m, fuel = m + 1 := Nat.exists_eq_succ_of_ne_zero hfuel.ne'
  have hlt : s.sch.offset.toNat < frameCount.toNat := by rwa [hoff]
  obtain ⟨hforward, -, hrecs, -⟩ := schIteration_advances P (w :: ws) frameCount s hq hlt
  have hrest := ((sameWrites_first hw ws frameCount.toNat).within (Nat.succ_le_of_lt (Nat.zero_lt_of_lt hforward))
    le_rfl).loop P hrecs m
  rw [schLoop, schLoop, writeTarget_sch, if_pos hlt, if_pos hlt, hrest, schIteration_first P hw ws hoff hq hpos]

/-- R72, R228: a block with the write first in its list is the block after the write. -/
theorem schRender_first (hq : ∀ e ∈ s.q.recs, e.off.toNat < frameCount.toNat) (hpos : 0 < frameCount.toNat) :
    schRender P (w :: ws) frameCount s = schRender P ws frameCount (writeTarget P w.target w.value s) := by
  have hentry : writeTarget P w.target w.value (renderEntry s) = renderEntry (writeTarget P w.target w.value s) := by
    have hblind := writeTarget_blind P w.target w.value s { s.sch with offset := 0 } s.q Memory.poisoned
    exact hblind.trans (by rw [renderEntry, writeTarget_sch, ← writeTarget_q P w.target w.value s])
  have hloop := schLoop_first P hw ws (s := renderEntry s) rfl hq hpos hpos
  have hafter : (w :: ws).filter (fun w => decide (frameCount.toNat ≤ w.frame.toNat)) =
      ws.filter fun w => decide (frameCount.toNat ≤ w.frame.toNat) :=
    List.filter_cons_of_neg (by simpa [hw] using hpos.ne')
  rw [schRender, hloop, hentry, landAfter, hafter]
  rfl

end

/-! ### The `SETP` beside the `RENDER` -/

/-- R231, R232: the `SETP` command of a target write. -/
def setpOfWrite (w : TargetWrite) : Instr :=
  match w.target with
  | .cutoff => .setpCutoff w.value
  | .resonance => .setpResonance w.value

/-- R230 to R232: of a value it does the write. -/
theorem exec_setp {w : TargetWrite} (h : isValue w.value = true) (s : State) :
    exec (setpOfWrite w) s = .next (writeTarget Config.params w.target w.value s) := by
  unfold setpOfWrite
  cases w.target <;> exact if_pos h

/-- Settles O38: the events at frame 0 and the target write may change places, and only the first frame reads a write
before frame 0. -/
theorem writeBeforeFrameZeroIsAPrecedingSetp : Obligations.WriteBeforeFrameZeroIsAPrecedingSetp := by
  intro frameCount w ws s hpos hw hready
  have hrest := (hready.fewer (List.subset_cons_self w ws)).target Config.params w.target w.value
  refine ⟨_, exec_setp (hready.values w List.mem_cons_self) s, ?_⟩
  rw [exec_render_ready hpos hready, exec_render_ready hpos hrest, schRender_first _ hw ws (hready.reached hpos) hpos]

/-- Settles O39: no frame reads a write placed at the end of the block, and the last of a list lands last. -/
theorem writeAfterTheLastFrameIsAFollowingSetp : Obligations.WriteAfterTheLastFrameIsAFollowingSetp := by
  intro frameCount w ws s hw hready
  refine ⟨_, (hready.fewer (List.subset_append_left ws [w])).exec, ?_⟩
  refine Eq.trans ?_ (exec_setp (hready.values w (by simp)) _).symm
  rw [hready.exec]
  split
  case isTrue h0 => rw [← h0, landAfter_last Config.params hw]
  case isFalse h0 => rw [schRender_last _ hw ws s (hready.reached (Nat.pos_of_ne_zero h0))]

end Sys2Proof.Machine
end

section
/-! SUPPORT. The power-on state (R302). -/

namespace Sys2Proof.Machine

open Sys2Proof.Safety

/-- R302: every word of the output memory is poisoned. -/
theorem powerOn_out (p : PowerOn) : (State.powerOn p).out = Memory.poisoned := rfl

/-- R302: the queue is empty. -/
theorem powerOn_queue_wf (p : PowerOn) : (State.powerOn p).q.wf := ⟨.nil, Nat.zero_le _⟩

/-- Settles O49: the registers are those of the record or zero, and a poisoned memory reads as nothing. -/
theorem powerOnState : Obligations.PowerOnState := by
  intro p s
  refine ⟨rfl, rfl, rfl, rfl, rfl, rfl, rfl, rfl, rfl, rfl, rfl, rfl, rfl, rfl, rfl, rfl, rfl, rfl, rfl, rfl, rfl, rfl,
    rfl, fun c n => ?_, rfl⟩
  exact powerOn_out p ▸ memRead_poisoned c n

/-- Settles O51: an empty memory, an empty queue, an idle index. -/
theorem invariantHoldsAtPowerOn : Obligations.InvariantHoldsAtPowerOn := by
  intro p
  exact ⟨powerOn_memory_wf p, powerOn_queue_wf p, rfl⟩

end Sys2Proof.Machine
end
